-- ==== Sys2Proof/Word.lean ====
section
/-! DEFINITION. The words of the engine: 32-bit register and command words, and bytes. A log-likelihood ratio
is an Int in [-127, 127], positive for bit 0 (00_scope.md R15, R19). -/

namespace Sys2Proof

/-- A 32-bit register or command word (10_state.md introduction, 30_encoding.md R91). -/
abbrev Word := BitVec 32

/-- A byte of the bus address space (20_memory.md R60). -/
abbrev Byte := BitVec 8

end Sys2Proof
end

