-- ==== Sys2Proof/Config.lean ====
section
/-! DEFINITION. What an instance fixes (00_scope.md R13), the identification constants (R4), and the values the spec leaves
free, as constants with no body. -/

namespace Sys2Proof

/-- LDPC base graph 1 or 2 (00_scope.md R3, R19). -/
inductive BaseGraph where
  | bg1
  | bg2
  deriving DecidableEq, Repr

/-- What a decoding kernel is given (43_ldpc_decoder.md R220, R233): the decoder input λ, BG, Zc, iLS, K' and MAX_ITER. -/
structure KernelIn where
  lam : List Int
  bg : BaseGraph
  zc : Nat
  iLS : Nat
  kPrime : Nat
  maxIter : Nat
  deriving DecidableEq, Repr

namespace Config

/-- Default NUM_HARQ (R13). -/
def numHarq : Nat := 16
/-- Default MAX_CB (R13). -/
def maxCb : Nat := 152
/-- Default MAX_TB_BYTES (R13). -/
def maxTbBytes : Nat := 159749
/-- Default MAX_SOFTBITS (R13). -/
def maxSoftbits : Nat := 2097152
/-- MAX_LAYERS, fixed (R13). -/
def maxLayers : Nat := 4
/-- STAGE_BYTES, fixed (R13). -/
def stageBytes : Nat := 4096
/-- The size of TBOUT in bytes (10_state.md R45). -/
def tboutBytes : Nat := 262144
/-- LLR_MAX, fixed (R13). -/
def llrMax : Int := 127
/-- DEC_MAX, fixed (R13). -/
def decMax : Int := 127
/-- N_MAX, the length of a soft buffer (R13). -/
def nMax : Nat := 25344
/-- K_MAX, the length of a message buffer (R13). -/
def kMax : Nat := 8448
/-- ADDR_WIDTH (R13, 20_memory.md R61). -/
def addrWidth : Nat := 19
/-- The ID register's constant (R4). -/
def idValue : Word := 0x4C445043#32
/-- The VERSION register's constant (R4). -/
def versionValue : Word := 0x00000001#32
/-- Bus address of STAGE byte 0 (20_memory.md R62). -/
def stageBase : Nat := 0x01000
/-- Bus address of TBOUT byte 0 (20_memory.md R62). -/
def tboutBase : Nat := 0x40000

/-- FREE VALUE, U1 and U2 of 93_implementation_defined.md: what the byte of STAGE or TBOUT at a bus address reads as while
nothing has written it since the reset numbered by the first argument. Log 5. -/
opaque ramByte : Nat → Nat → Byte

/-- FREE VALUE, U3 of 93_implementation_defined.md: the value of the n-th read, of a register or window whose value is
unspecified while BUSY = 1 (20_memory.md R72). Log 4. -/
opaque busyRead : Nat → Word

/-- OPEN parameter BG_SHIFT (43_ldpc_decoder.md R222), U9: for a graph, a row and a column, `none` where the base graph has no
entry, else its shift coefficients by set index iLS (a coefficient past the end of the list counts as 0). Log 8. -/
opaque standardShift : BaseGraph → Nat → Nat → Option (List Nat)

/-- OPEN parameter DEC_KERNEL (43_ldpc_decoder.md R233), U10: hard decision bit k after iteration t of the other kernel numbered
by the first argument. Arguments: the kernel's number, its input, t, k. Log 9. -/
opaque otherKernel : Nat → KernelIn → Nat → Nat → Bool

/-- OPEN parameter TS38212_RELEASE (00_scope.md R5), U11: no rule depends on it. Log 10. -/
opaque ts38212Release : Nat

end Config
end Sys2Proof
end

