-- ==== Sys2Proof/Syntax.lean ====
section
/-! DEFINITION. What the host can send the engine: bus transactions and command words (30_encoding.md R90, R98), and the
instructions they stand for, one constructor per row of spec/opcode_table.json. -/

namespace Sys2Proof

/-- The three legal sizes of a bus transaction (30_encoding.md R98). -/
inductive Size where
  | one
  | two
  | four
  deriving DecidableEq, Repr

/-- The size in bytes. -/
def Size.bytes : Size → Nat
  | .one => 1
  | .two => 2
  | .four => 4

/-- A bus transaction (DIR, SIZE, ADDR, WDATA) of 30_encoding.md R98. DIR is the constructor. `addr` is the address
the host drives; the engine sees it modulo 2^19 (20_memory.md R61). WDATA is present for writes only; a write moves the low
SIZE bytes of `wdata`. -/
inductive Txn where
  | read (size : Size) (addr : Nat)
  | write (size : Size) (addr : Nat) (wdata : Word)
  deriving DecidableEq, Repr

/-- Whether the transaction is a read. -/
def Txn.isRead : Txn → Bool
  | .read _ _ => true
  | .write _ _ _ => false

/-- The two kinds of encoded object (30_encoding.md R90): a command word and a bus transaction. -/
inductive Encoded where
  | command (w : Word)
  | transaction (t : Txn)
  deriving DecidableEq, Repr

/-- One constructor per row of spec/opcode_table.json: five commands (40_commands.md) and thirteen transaction classes
(45_register_access.md). A transaction carries its size, legal or not, because an illegal one is answered with a bus error
(20_memory.md R69), and the address bits its row leaves free. -/
inductive Instr where
  /-- NOP, R121. -/
  | nop
  /-- HARQ_ALLOC, R122. -/
  | harqAlloc (hid : BitVec 8) (ncb : BitVec 16)
  /-- BEGIN, R123. -/
  | beginSession
  /-- PUSH, R124. -/
  | push (len : BitVec 13)
  /-- END, R125. -/
  | endSession
  /-- CMD_WR, R303: a write at 0x034. -/
  | cmdWr (size : Size) (wdata : Word)
  /-- CTRL_WR, R304: a write at 0x020. -/
  | ctrlWr (size : Size) (wdata : Word)
  /-- STATUS_WR, R305: a write at 0x024. -/
  | statusWr (size : Size) (wdata : Word)
  /-- REG_WR, R302: a write at 0x040 + off, the four CFG registers. -/
  | regWr (off : BitVec 4) (size : Size) (wdata : Word)
  /-- REG_WR_VIEW, R302: a write at 0x050, HARQ_VIEW_ID. -/
  | regWrView (size : Size) (wdata : Word)
  /-- REG_WR_IGNORED, R70: a write at any other address of the register region. -/
  | regWrIgnored (off : BitVec 12) (size : Size) (wdata : Word)
  /-- REG_RD, R301: a read in the register region. -/
  | regRd (off : BitVec 12) (size : Size)
  /-- STAGE_WR, R306: a write at 0x01000 + off. -/
  | stageWr (off : BitVec 12) (size : Size) (wdata : Word)
  /-- STAGE_RD, R306: a read at 0x01000 + off. -/
  | stageRd (off : BitVec 12) (size : Size)
  /-- TBOUT_RD, R307: a read at 0x40000 + off. -/
  | tboutRd (off : BitVec 18) (size : Size)
  /-- TBOUT_WR_IGNORED, R70: a write at 0x40000 + off. -/
  | tboutWrIgnored (off : BitVec 18) (size : Size) (wdata : Word)
  /-- RSVD_RD, R63: a read at an address 0x02000 to 0x3FFFF. -/
  | rsvdRd (addr : BitVec 18) (size : Size)
  /-- RSVD_WR, R63: a write at an address 0x02000 to 0x3FFFF. -/
  | rsvdWr (addr : BitVec 18) (size : Size) (wdata : Word)
  deriving DecidableEq, Repr

end Sys2Proof
end

