-- ==== Sys2Proof/Machine/State.lean ====
section
/-! DEFINITION. The state of one engine instance as plain data (10_state.md), what the host side has sent it, and the state after
reset (70_reset_and_hazards.md R380). -/

namespace Sys2Proof.Machine

/-- STATUS.PHASE: 0 is IDLE, 1 is ACCUM; 2 and 3 never occur (10_state.md R21, R26). -/
inductive Phase where
  | idle
  | accum
  deriving DecidableEq, Repr

/-- FAULT_CAUSE: the cause codes 0 to 10 of 60_exceptions.md R330, in order; 11 to 255 are never produced. -/
inductive FaultCause where
  | none
  | illegalCmd
  | seqError
  | cfgInvalid
  | harqRange
  | pushRange
  | accOverflow
  | softbitsNotMultiple
  | layersNotMultiple
  | segRange
  | cbCountMismatch
  deriving DecidableEq, Repr

/-- Data by number, one entry per number, numbers rising; a number that is not listed holds the default its reader names. -/
abbrev Sparse (α : Type) := List (Nat × α)

/-- The bytes of the bus address space that have been written since reset, by bus address (20_memory.md R62): addresses strictly
rising. An address that is not listed has no known byte (log 5). -/
abbrev Memory := List Host.Cell

/-- The shift tables an instance is given as an argument (43_ldpc_decoder.md R222): entries (row, column, coefficients by iLS). -/
structure ShiftTables where
  bg1 : List (Nat × Nat × List Nat)
  bg2 : List (Nat × Nat × List Nat)
  deriving DecidableEq, Repr

/-- BG_SHIFT (43_ldpc_decoder.md R222): the standard's tables, which the spec leaves OPEN, or tables given as an argument. -/
inductive ShiftSource where
  | standard
  | given (t : ShiftTables)
  deriving DecidableEq, Repr

/-- DEC_KERNEL (43_ldpc_decoder.md R233): the reference kernel, the test kernel K_HD (R236), or another one by number. -/
inductive Kernel where
  | reference
  | hardDecision
  | other (n : Nat)
  deriving DecidableEq, Repr

/-- The parameters of an instance (00_scope.md R13). No step changes them. -/
structure Params where
  numHarq : Nat
  maxCb : Nat
  maxTbBytes : Nat
  maxSoftbits : Nat
  kernel : Kernel
  shifts : ShiftSource
  deriving DecidableEq, Repr

/-- The parameters' default values (00_scope.md R13). -/
def Params.default : Params where
  numHarq := Config.numHarq
  maxCb := Config.maxCb
  maxTbBytes := Config.maxTbBytes
  maxSoftbits := Config.maxSoftbits
  kernel := .reference
  shifts := .standard

/-- The session latch SESS (10_state.md R42). -/
structure Session where
  tbBytes : Word
  bg : BitVec 2
  rv : BitVec 2
  qm : BitVec 4
  nl : BitVec 3
  newData : Bool
  earlyStop : Bool
  maxIter : BitVec 8
  nref : Word
  harqId : BitVec 8
  deriving DecidableEq, Repr

/-- SESS after reset: all zero (10_state.md R42). -/
def Session.zero : Session where
  tbBytes := 0
  bg := 0
  rv := 0
  qm := 0
  nl := 0
  newData := false
  earlyStop := false
  maxIter := 0
  nref := 0
  harqId := 0

/-- One codeblock's part of a HARQ buffer (10_state.md R46 to R50). `soft` lists the positions that hold an LLR other than 0;
`msg` lists message bits from bit 0, and a bit past its end is 0. -/
structure CbBuf where
  alloc : Bool
  flag : Bool
  soft : Sparse Int
  msg : List Bool
  deriving DecidableEq, Repr

/-- A codeblock buffer that has not been used since reset (10_state.md R50, R55); the arrays' contents are then never read
(log 6). -/
def CbBuf.unused : CbBuf where
  alloc := false
  flag := false
  soft := []
  msg := []

/-- One HARQ buffer (10_state.md R46): `nof_cb`, and the codeblock buffers by index r. -/
structure HarqBuf where
  nofCb : Nat
  cbs : Sparse CbBuf
  deriving DecidableEq, Repr

/-- A HARQ buffer after reset (10_state.md R55). -/
def HarqBuf.unused : HarqBuf where
  nofCb := 0
  cbs := []

/-- The result registers (10_state.md R37 to R41). RES_CB and RES_CB_E are listed from r = 0; past the list's end a register
reads 0. -/
structure Results where
  summary : Word
  nofDecoded : Word
  iterSum : Word
  iterMin : Word
  iterMax : Word
  g : Word
  zc : Word
  kPrime : Word
  filler : Word
  ncb : Word
  k0 : Word
  cb : List Word
  cbE : List Word
  deriving DecidableEq, Repr

/-- The result registers after reset (10_state.md section 5). -/
def Results.zero : Results where
  summary := 0
  nofDecoded := 0
  iterSum := 0
  iterMin := 0
  iterMax := 0
  g := 0
  zc := 0
  kPrime := 0
  filler := 0
  ncb := 0
  k0 := 0
  cb := []
  cbE := []

/-- What the world outside does to the engine, in the order it takes effect (log 1, 3, 15): a bus transaction reaches the slave
port; enough time passes for the running command's step to end; the hardware reset input is asserted. -/
inductive HostInput where
  | txn (t : Txn)
  | lapse
  | reset
  deriving DecidableEq, Repr

/-- The slave port's answer to a transaction (30_encoding.md R98): OK or ERR, a read with exactly SIZE bytes of data. -/
inductive Response where
  /-- No transaction has completed yet. -/
  | none
  | writeOk
  | writeErr
  /-- The low SIZE bytes of `data` are the data read (45_register_access.md R309). -/
  | readOk (size : Size) (data : Word)
  /-- A refused read: its data is 0 (20_memory.md R69). -/
  | readErr (size : Size)
  deriving DecidableEq, Repr

/-- The machine's state. -/
structure State where
  /-- The instance's parameters (00_scope.md R13). -/
  params : Params
  /-- CTRL[1] (R25). -/
  ieDone : Bool
  /-- CTRL[2] (R25). -/
  ieFault : Bool
  /-- STATUS[1] (R26). -/
  done : Bool
  /-- STATUS[2] (R26). -/
  fault : Bool
  /-- STATUS[5:4] (R26). -/
  phase : Phase
  /-- The accepted command word whose step is running; STATUS.BUSY is 1 exactly when there is one (R21, R28). -/
  pending : Option Word
  /-- FAULT_CAUSE (R27). -/
  faultCause : FaultCause
  /-- FAULT_CMD (R27). -/
  faultCmd : Word
  /-- FAULT_INFO (R27). -/
  faultInfo : Word
  /-- RES_SEQ (R30). -/
  resSeq : Word
  /-- CFG_TB_BYTES (R31). -/
  cfgTbBytes : Word
  /-- CFG_CODING (R32). -/
  cfgCoding : Word
  /-- CFG_NREF (R33). -/
  cfgNref : Word
  /-- CFG_HARQ_ID[7:0] (R34). -/
  cfgHarqId : BitVec 8
  /-- HARQ_VIEW_ID[7:0] (R35). -/
  harqViewId : BitVec 8
  /-- The session latch (R42). -/
  sess : Session
  /-- ACC[0..ACC_COUNT), in push order (R43); its length is ACC_COUNT (R29). -/
  acc : List Int
  /-- The HARQ store (R46). -/
  hs : Sparse HarqBuf
  /-- TBA (R51), from bit 0; a bit past its end is 0. -/
  tba : List Bool
  /-- The result registers (R37 to R41). -/
  res : Results
  /-- The written bytes of STAGE (R44) and TBOUT (R45). -/
  mem : Memory
  /-- The model's own: what the host side has sent and the engine has not taken (log 1). -/
  inputs : List HostInput
  /-- The model's own: the answer to the last completed transaction (log 14). -/
  resp : Response
  /-- The model's own: the free values drawn by reads while BUSY (log 4). -/
  draws : Nat
  /-- The model's own: the resets performed, each of which leaves new RAM contents (log 5). -/
  epoch : Nat
  deriving DecidableEq, Repr

/-- Why the machine would stop with a fault. It never does: every fault the spec gives the engine is a state it enters
(60_exceptions.md R333), so this type has no constructor. -/
inductive Fault where
  deriving DecidableEq, Repr

/-- Why the machine would give an instruction no meaning. -/
inductive Refusal where
  /-- Raised by `exec` for an instruction that has no meaning yet, by its mnemonic. Safe. No arm raises it. -/
  | notModelled (mnemonic : String)
  deriving DecidableEq, Repr

/-- The machine right after reset (70_reset_and_hazards.md R380, 10_state.md R55), with default parameters and nothing sent to it
yet. -/
def State.reset : State where
  params := Params.default
  ieDone := false
  ieFault := false
  done := false
  fault := false
  phase := .idle
  pending := none
  faultCause := .none
  faultCmd := 0
  faultInfo := 0
  resSeq := 0
  cfgTbBytes := 0
  cfgCoding := 0
  cfgNref := 0
  cfgHarqId := 0
  harqViewId := 0
  sess := Session.zero
  acc := []
  hs := []
  tba := []
  res := Results.zero
  mem := []
  inputs := []
  resp := .none
  draws := 0
  epoch := 0

end Sys2Proof.Machine
end

