-- ==== Sys2Proof/Machine/Ops.lean ====
section
/-! DEFINITION. The named operations over the state: sparse data, memory bytes, the HARQ store, saturation, completing a transaction,
the command step with fault entry (60_exceptions.md R333), reset (70_reset_and_hazards.md R380), and fetching what is next. -/

namespace Sys2Proof.Machine

/-! ### Sparse data -/

/-- The listed entry of a number, if any. -/
def sparseFind {α : Type} : Sparse α → Nat → Option α
  | [], _ => none
  | (j, v) :: rest, k => if j = k then some v else sparseFind rest k

/-- What a number holds, `d` where it is not listed. -/
def sparseGet {α : Type} (d : α) (l : Sparse α) (k : Nat) : α := (sparseFind l k).getD d

/-- List a number's entry, at its place in rising order, in place of any it had. -/
def sparseInsert {α : Type} : Sparse α → Nat → α → Sparse α
  | [], k, v => [(k, v)]
  | (j, w) :: rest, k, v =>
    if k < j then (k, v) :: (j, w) :: rest
    else if k = j then (k, v) :: rest
    else (j, w) :: sparseInsert rest k v

/-- Take a number off the list. -/
def sparseErase {α : Type} (l : Sparse α) (k : Nat) : Sparse α := l.filter fun e => decide (e.1 ≠ k)

/-- Make a number hold a value; the default is held by not being listed. -/
def sparseSet {α : Type} [DecidableEq α] (d : α) (l : Sparse α) (k : Nat) (v : α) : Sparse α :=
  if v = d then sparseErase l k else sparseInsert l k v

/-- The numbers rise strictly. -/
def sparseSorted {α : Type} (l : Sparse α) : Bool := decide (l.Pairwise fun x y => x.1 < y.1)

/-! ### Bytes of STAGE and TBOUT -/

/-- The canonical form of memory: addresses strictly rising. A listed byte is a known byte, so no entry equals what an unlisted
address holds (nothing known). -/
def Memory.wf (m : Memory) : Bool := sparseSorted m

/-- The byte written at a bus address since reset, if any. -/
def memFind (m : Memory) (a : Nat) : Option Byte := sparseFind m a

/-- Write one byte. -/
def memWrite (m : Memory) (a : Nat) (b : Byte) : Memory := sparseInsert m a b

/-- Write bytes at rising addresses from `a`. -/
def memWriteBytes : Memory → Nat → List Byte → Memory
  | m, _, [] => m
  | m, a, b :: bs => memWriteBytes (memWrite m a b) (a + 1) bs

/-- The byte read at a bus address of STAGE or TBOUT: the one written since reset, else a free one that stays the same until it is
written or reset (10_state.md R44, R45; U1, U2; log 5). -/
def State.byteAt (s : State) (a : Nat) : Byte := (memFind s.mem a).getD (Config.ramByte s.epoch a)

/-- STAGE[i] (10_state.md R44). -/
def State.stageByte (s : State) (i : Nat) : Byte := s.byteAt (Config.stageBase + i)

/-- TBOUT[i] (10_state.md R45). -/
def State.tboutByte (s : State) (i : Nat) : Byte := s.byteAt (Config.tboutBase + i)

/-! ### The HARQ store -/

/-- HS[h] (10_state.md R46). -/
def State.harq (s : State) (h : Nat) : HarqBuf := sparseGet HarqBuf.unused s.hs h

/-- The buffers of codeblock r in a HARQ buffer. -/
def HarqBuf.cb (b : HarqBuf) (r : Nat) : CbBuf := sparseGet CbBuf.unused b.cbs r

/-- Put back the buffers of codeblock r. -/
def HarqBuf.setCb (b : HarqBuf) (r : Nat) (c : CbBuf) : HarqBuf :=
  { b with cbs := sparseSet CbBuf.unused b.cbs r c }

/-- Put back HS[h]. -/
def State.setHarq (s : State) (h : Nat) (b : HarqBuf) : State :=
  { s with hs := sparseSet HarqBuf.unused s.hs h b }

/-- HS[h].soft[r][p] (10_state.md R47). -/
def softAt (soft : Sparse Int) (p : Nat) : Int := sparseGet 0 soft p

/-- HS[h].soft[r][p] <- v. -/
def softSet (soft : Sparse Int) (p : Nat) (v : Int) : Sparse Int := sparseSet 0 soft p v

/-- Clear a whole soft buffer: every position 0. -/
def softZero : Sparse Int := []

/-! ### Bit arrays held as lists from bit 0 -/

/-- The bit at an index; past the list's end it is 0. -/
def bitAt (bits : List Bool) (k : Nat) : Bool := bits.getD k false

/-- Write bits at an offset that the list has reached; every other bit stays. -/
def bitsWrite (old : List Bool) (off : Nat) (new : List Bool) : List Bool :=
  old.take off ++ new ++ old.drop (off + new.length)

/-! ### Saturation -/

/-- sat(v), to ±LLR_MAX (00_scope.md R15). -/
def sat (v : Int) : Int := max (-Config.llrMax) (min Config.llrMax v)

/-- satD(v), to ±DEC_MAX (00_scope.md R15). -/
def satD (v : Int) : Int := max (-Config.decMax) (min Config.decMax v)

/-! ### Status -/

/-- STATUS.BUSY (10_state.md R26). -/
def State.busy (s : State) : Bool := s.pending.isSome

/-- ACC_COUNT (10_state.md R29). -/
def State.accCount (s : State) : Nat := s.acc.length

/-- The value of STATUS.PHASE (10_state.md R26). -/
def Phase.code : Phase → Nat
  | .idle => 0
  | .accum => 1

/-- The value of FAULT_CAUSE[7:0] (60_exceptions.md R330). -/
def FaultCause.code : FaultCause → Nat
  | .none => 0
  | .illegalCmd => 1
  | .seqError => 2
  | .cfgInvalid => 3
  | .harqRange => 4
  | .pushRange => 5
  | .accOverflow => 6
  | .softbitsNotMultiple => 7
  | .layersNotMultiple => 8
  | .segRange => 9
  | .cbCountMismatch => 10

/-! ### Completing a transaction -/

/-- The slave port answers and the transaction is over. -/
def State.respond (s : State) (r : Response) : State := { s with resp := r }

/-- The step of a command is over: BUSY <- 0 (40_commands.md R120). -/
def State.endStep (s : State) : State := { s with pending := none }

/-- What the host side has sent and the engine has not taken. -/
def State.withInputs (s : State) (rest : List HostInput) : State := { s with inputs := rest }

/-! ### Reset -/

/-- Reset() (70_reset_and_hazards.md R380): every register and all internal state as after reset, RAM contents unspecified anew. The
instance's parameters stay, and so does what belongs to the host's side. -/
def State.doReset (s : State) : State :=
  { State.reset with
    params := s.params
    inputs := s.inputs
    resp := s.resp
    draws := s.draws
    epoch := s.epoch + 1 }

/-! ### The command step and fault entry -/

/-- What a command raises: its cause and the information word (60_exceptions.md R330). -/
abbrev Raise := FaultCause × Word

/-- Taking a fault (60_exceptions.md R333): the cause, the command word and the information word are recorded, FAULT is set, the step
ends; nothing else changes. -/
def takeFault (w : Word) (e : Raise) (s : State) : State :=
  { s with
    faultCause := e.1
    faultCmd := w
    faultInfo := e.2
    fault := true
    pending := none }

/-- The step of command word w (40_commands.md R120): discarded while FAULT = 1 (60_exceptions.md R336); else its rule runs to the end,
or to its first raise, and BUSY returns to 0. -/
def commandStep (w : Word) (rule : State → Except Raise State) (s : State) : State :=
  if s.fault then s.endStep
  else
    match rule s with
    | .ok t => t.endStep
    | .error e => takeFault w e s

/-- The rule of an illegal command word (30_encoding.md R95). -/
def illegalRule (_ : State) : Except Raise State := .error (.illegalCmd, 0)

/-- The phase as a FAULT_INFO word, for SEQ_ERROR (60_exceptions.md R330). -/
def phaseInfo (p : Phase) : Word := BitVec.ofNat 32 p.code

/-! ### What the engine does next -/

/-- What the engine takes up next. -/
inductive Fetched where
  | nothing
  | reset
  | command (w : Word)
  | transaction (t : Txn)
  deriving DecidableEq, Repr

/-- The next thing the engine does, and the state once it has taken it up. The hardware reset acts at any time (70_reset_and_hazards.md
R382). While BUSY = 1 a read is served at once (20_memory.md R72); a write is held, so that the running step ends first (R71); the step
also ends when time passes or nothing else comes (R398). While BUSY = 0 the port performs the next transaction (R77). -/
def fetch (s : State) : Fetched × State :=
  match s.inputs, s.pending with
  | [], none => (.nothing, s)
  | [], some w => (.command w, s)
  | .reset :: rest, _ => (.reset, s.withInputs rest)
  | .lapse :: rest, none => (.nothing, s.withInputs rest)
  | .lapse :: rest, some w => (.command w, s.withInputs rest)
  | .txn t :: rest, none => (.transaction t, s.withInputs rest)
  | .txn t :: rest, some w =>
    if t.isRead then (.transaction t, s.withInputs rest) else (.command w, s)

end Sys2Proof.Machine
end

