-- ==== Sys2Proof/Machine/Flags.lean ====
section
/-! DEFINITION. The status flags and the words they make (10_state.md R25, R26, R54; 60_exceptions.md R345). The engine has no
condition codes (R54). -/

namespace Sys2Proof.Machine

/-- The interrupt output, mirrored in STATUS.IRQ (60_exceptions.md R345). -/
def State.irq (s : State) : Bool := (s.done && s.ieDone) || (s.fault && s.ieFault)

/-- STATUS as read (10_state.md R26): BUSY, DONE, FAULT, IRQ, PHASE from bit 0 up. -/
def statusWord (s : State) : Word :=
  0#26 ++ BitVec.ofNat 2 s.phase.code ++ BitVec.ofBool s.irq ++ BitVec.ofBool s.fault ++ BitVec.ofBool s.done
    ++ BitVec.ofBool s.busy

/-- CTRL as read (10_state.md R25): SOFT_RESET reads 0. -/
def ctrlWord (s : State) : Word :=
  0#29 ++ BitVec.ofBool s.ieFault ++ BitVec.ofBool s.ieDone ++ 0#1

/-- RES_SUMMARY (10_state.md R37, 44_crc_tb_assembly.md R275): TB_CRC_OK, RES_VALID, NOF_CB. -/
def summaryWord (nofCb : Nat) (ok : Bool) : Word :=
  BitVec.ofNat 16 nofCb ++ 0#14 ++ 1#1 ++ BitVec.ofBool ok

/-- RES_CB[r] (10_state.md R40): ITER, ATTEMPTED, CB_PASS, FLAG_END. -/
def cbWord (iter : Nat) (attempted cbPass flagEnd : Bool) : Word :=
  0#13 ++ BitVec.ofBool flagEnd ++ BitVec.ofBool cbPass ++ BitVec.ofBool attempted ++ BitVec.ofNat 16 iter

end Sys2Proof.Machine
end

