-- ==== Sys2Proof/Machine/Crc.lean ====
section
/-! DEFINITION. The three CRCs (44_crc_tb_assembly.md R260 to R265). -/

namespace Sys2Proof.Machine

/-- The CRCs the engine uses (R260). -/
inductive Crc where
  | crc24A
  | crc24B
  | crc16
  deriving DecidableEq, Repr

/-- Lp, the CRC's length in bits (R260). -/
def crcLen : Crc → Nat
  | .crc24A => 24
  | .crc24B => 24
  | .crc16 => 16

/-- The generator polynomial without its highest term (R260). -/
def crcGen : (p : Crc) → BitVec (crcLen p)
  | .crc24A => 0x864CFB#24
  | .crc24B => 0x800063#24
  | .crc16 => 0x1021#16

/-- One bit into the CRC register (R261). -/
def crcStep (p : Crc) (reg : BitVec (crcLen p)) (bit : Bool) : BitVec (crcLen p) :=
  if (reg.msb ^^ bit) = true then (reg <<< 1) ^^^ crcGen p else reg <<< 1

/-- Crc(a, poly): initial value 0, no reflection, no final inversion (R261). -/
def crcOf (p : Crc) (bits : List Bool) : BitVec (crcLen p) := bits.foldl (crcStep p) 0

/-- The value of bits read most significant first (R262). -/
def valueMsbFirst (bits : List Bool) : Nat := bits.foldl (fun n b => 2 * n + b.toNat) 0

/-- CrcOk(x, poly): the CRC of all but the last Lp bits is the value of the last Lp bits (R262). -/
def crcOk (p : Crc) (x : List Bool) : Bool :=
  (crcOf p (x.take (x.length - crcLen p))).toNat == valueMsbFirst (x.drop (x.length - crcLen p))

/-- CbCrcPoly(A, C) (R263). -/
def cbCrc (a c : Nat) : Crc := if 1 < c then .crc24B else if 3824 < a then .crc24A else .crc16

/-- TbAndCrcLength(A, C) (R264). -/
def tbAndCrcLen (a c : Nat) : Nat := if c = 1 then a else a + 24

end Sys2Proof.Machine
end

