-- ==== Sys2Proof/Machine/Segmentation.lean ====
section
/-! DEFINITION. Codeblock segmentation and rate-matched lengths (41_segmentation.md R160 to R170). -/

namespace Sys2Proof.Machine

/-- Ceiling division (00_scope.md R15). -/
def cdiv (a b : Nat) : Nat := (a + b - 1) / b

/-- The base graph of a BG_SEL value. BEGIN latches 1 or 2 only (40_commands.md R123); any other is taken as 2 (log 19). -/
def baseGraphOf (sel : BitVec 2) : BaseGraph := if sel = 1#2 then .bg1 else .bg2

/-- The TB CRC length Ltb (R161). -/
def tbCrcLen (a : Nat) : Nat := if 3824 < a then 24 else 16

/-- The maximum codeblock size Kcb (R162). -/
def kcbOf : BaseGraph → Nat
  | .bg1 => 8448
  | .bg2 => 3840

/-- The systematic column count Kb (R164). -/
def kbOf (bg : BaseGraph) (b : Nat) : Nat :=
  match bg with
  | .bg1 => 22
  | .bg2 => if 640 < b then 10 else if 560 < b then 9 else if 192 < b then 8 else 6

/-- The lifting sizes by set index iLS (R165). -/
def liftingSets : List (List Nat) :=
  [[2, 4, 8, 16, 32, 64, 128, 256],
   [3, 6, 12, 24, 48, 96, 192, 384],
   [5, 10, 20, 40, 80, 160, 320],
   [7, 14, 28, 56, 112, 224],
   [9, 18, 36, 72, 144, 288],
   [11, 22, 44, 88, 176, 352],
   [13, 26, 52, 104, 208],
   [15, 30, 60, 120, 240]]

/-- The least number of a list, `d` if it is empty. -/
def leastOr (d : Nat) : List Nat → Nat
  | [] => d
  | z :: zs => zs.foldl min z

/-- Zc: the least lifting size Z with Kb·Z >= K' (R165). One always exists for a latched session (R169); else 384 (log 20). -/
def liftingSize (kb kPrime : Nat) : Nat :=
  leastOr 384 (liftingSets.flatten.filter fun z => decide (kPrime ≤ kb * z))

/-- iLS: the index of the set that holds Zc (R165). -/
def liftingSet (zc : Nat) : Nat := liftingSets.findIdx fun set => set.contains zc

/-- The message length K (R166). -/
def messageLen : BaseGraph → Nat → Nat
  | .bg1, zc => 22 * zc
  | .bg2, zc => 10 * zc

/-- The codeblock length N after puncturing (R166). -/
def codeLen : BaseGraph → Nat → Nat
  | .bg1, zc => 66 * zc
  | .bg2, zc => 50 * zc

/-- The record `seg` (41_segmentation.md introduction). -/
structure Seg where
  a : Nat
  bg : BaseGraph
  b : Nat
  c : Nat
  l : Nat
  bPrime : Nat
  kPrime : Nat
  kb : Nat
  zc : Nat
  iLS : Nat
  k : Nat
  n : Nat
  f : Nat
  lcb : Nat
  d : Nat
  deriving DecidableEq, Repr

/-- L, the CRC that segmentation attaches to each codeblock (R162). -/
def cbCrcAttached (bg : BaseGraph) (b : Nat) : Nat := if b ≤ kcbOf bg then 0 else 24

/-- C, the codeblock count (R162). -/
def codeblockCount (bg : BaseGraph) (b : Nat) : Nat :=
  if b ≤ kcbOf bg then 1 else cdiv b (kcbOf bg - 24)

/-- B' (R162): B itself for one codeblock, else B and 24 bits for each. -/
def totalWithCbCrcs (bg : BaseGraph) (b : Nat) : Nat :=
  if b ≤ kcbOf bg then b else b + codeblockCount bg b * 24

/-- Segment(A, BG) (R160 to R168). -/
def segmentTb (a : Nat) (bg : BaseGraph) : Seg :=
  let b := a + tbCrcLen a
  let c := codeblockCount bg b
  let bPrime := totalWithCbCrcs bg b
  let kPrime := cdiv bPrime c
  let kb := kbOf bg b
  let zc := liftingSize kb kPrime
  let lcb := if c = 1 then tbCrcLen a else 24
  { a := a
    bg := bg
    b := b
    c := c
    l := cbCrcAttached bg b
    bPrime := bPrime
    kPrime := kPrime
    kb := kb
    zc := zc
    iLS := liftingSet zc
    k := messageLen bg zc
    n := codeLen bg zc
    f := messageLen bg zc - kPrime
    lcb := lcb
    d := kPrime - lcb }

/-- E_r, the number of LLRs of codeblock r (R170). -/
def rateMatchedLen (g c nl qm r : Nat) : Nat :=
  let q := g / (nl * qm)
  if r + q % c + 1 ≤ c then nl * qm * (q / c) else nl * qm * cdiv q c

/-- A circular-buffer position that holds a filler bit: K' - 2·Zc <= p < K - 2·Zc (R167). -/
def isFiller (seg : Seg) (p : Nat) : Bool :=
  decide (seg.kPrime ≤ p + 2 * seg.zc ∧ p + 2 * seg.zc < seg.k)

end Sys2Proof.Machine
end

