-- ==== Sys2Proof/Machine/Ldpc.lean ====
section
/-! DEFINITION. The LDPC codeblock decoder: the code (43_ldpc_decoder.md R221 to R223), the reference kernel (R224 to R229), the kernel
parameter (R233, R236), and the control every kernel shares (R230 to R232). -/

namespace Sys2Proof.Machine

/-! ### The code -/

/-- nrow(BG) (R221). -/
def nrow : BaseGraph → Nat
  | .bg1 => 46
  | .bg2 => 42

/-- ncol(BG) (R221). -/
def ncol : BaseGraph → Nat
  | .bg1 => 68
  | .bg2 => 52

/-- The entries of a given table for one graph (R222). -/
def ShiftTables.entries (t : ShiftTables) : BaseGraph → List (Nat × Nat × List Nat)
  | .bg1 => t.bg1
  | .bg2 => t.bg2

/-- BG_SHIFT at position (i, j): `none` where (i, j) is not in E(BG), else its coefficients by iLS (R222). -/
def shiftsAt (src : ShiftSource) (bg : BaseGraph) (i j : Nat) : Option (List Nat) :=
  match src with
  | .standard => Config.standardShift bg i j
  | .given t => ((t.entries bg).find? fun e => e.1 == i && e.2.1 == j).map fun e => e.2.2

/-- One nonzero block of a base row: its column j and the shift P = V(BG, i, j, iLS) mod Zc (R223). -/
structure Block where
  col : Nat
  shift : Nat
  deriving DecidableEq, Repr

/-- The nonzero blocks of base row i, columns rising (R223). -/
def rowBlocks (src : ShiftSource) (bg : BaseGraph) (zc iLS i : Nat) : List Block :=
  (List.range (ncol bg)).filterMap fun j =>
    (shiftsAt src bg i j).map fun vs => { col := j, shift := vs.getD iLS 0 % zc }

/-- The variables of check z of a base row: j·Zc + ((z + P) mod Zc) for each of its blocks (R223). -/
def checkVars (blocks : List Block) (zc z : Nat) : List Nat :=
  blocks.map fun b => b.col * zc + (z + b.shift) % zc

/-! ### The reference kernel -/

/-- The least magnitude of a list, 0 if it is empty. -/
def leastMagnitude : List Int → Nat
  | [] => 0
  | q :: qs => qs.foldl (fun m x => min m x.natAbs) q.natAbs

/-- An odd number of the values is negative. -/
def oddNegatives (qs : List Int) : Bool := (qs.filter fun q => decide (q < 0)).length % 2 == 1

/-- The check-to-variable value from the other edges' values (R227): min-sum normalised by 3/4, rounded down. It is 0 where there is no
other edge. -/
def checkValue (others : List Int) : Int :=
  let m : Int := ((3 * leastMagnitude others / 4 : Nat) : Int)
  if oddNegatives others then -m else m

/-- CN(Q) (R227). -/
def checkNode (q : List Int) : List Int := (List.range q.length).map fun e => checkValue (q.eraseIdx e)

/-- Q[t] = satD(L[n_t] - Rm[m, n_t]) (R228). -/
def checkInputs (post : List Int) (vars : List Nat) (msgs : List Int) : List Int :=
  List.zipWith (fun n r => satD (post.getD n 0 - r)) vars msgs

/-- Put new posteriors at their variables. -/
def setPosteriors : List Int → List Nat → List Int → List Int
  | post, n :: ns, v :: vs => setPosteriors (post.set n v) ns vs
  | post, _, _ => post

/-- One check's update (R228): the posteriors and the check's messages after it. -/
def checkUpdate (post : List Int) (vars : List Nat) (msgs : List Int) : List Int × List Int :=
  let q := checkInputs post vars msgs
  let new := checkNode q
  (setPosteriors post vars (List.zipWith (fun a b => satD (a + b)) q new), new)

/-- The update of a base row from its check z on; `msgs` holds the messages of each check (R228). -/
def rowUpdate (blocks : List Block) (zc : Nat) : Nat → List Int → List (List Int) → List Int × List (List Int)
  | _, post, [] => (post, [])
  | z, post, ms :: rest =>
    let one := checkUpdate post (checkVars blocks zc z) ms
    let others := rowUpdate blocks zc (z + 1) one.1 rest
    (others.1, one.2 :: others.2)

/-- The decoder scratch of an attempt (R224): posteriors L, and the messages Rm by base row, check and edge. -/
structure Scratch where
  post : List Int
  msgs : List (List (List Int))
  deriving DecidableEq, Repr

/-- One iteration: the base rows in increasing order (R229). -/
def iterateRows (zc : Nat) : List (List Block) → List Int → List (List (List Int)) → Scratch
  | blocks :: rest, post, ms :: mss =>
    let row := rowUpdate blocks zc 0 post ms
    let others := iterateRows zc rest row.1 mss
    { post := others.post, msgs := row.2 :: others.msgs }
  | _, post, mss => { post := post, msgs := mss }

/-- The base rows of a codeblock's code (R223). -/
def codeRows (src : ShiftSource) (inp : KernelIn) : List (List Block) :=
  (List.range (nrow inp.bg)).map fun i => rowBlocks src inp.bg inp.zc inp.iLS i

/-- Initialisation (R226): L = λ, every message 0. -/
def initScratch (rows : List (List Block)) (inp : KernelIn) : Scratch where
  post := inp.lam
  msgs := rows.map fun blocks => List.replicate inp.zc (List.replicate blocks.length 0)

/-- The hard decision on K' posteriors: 1 for a negative one (R229). -/
def hardBits (kPrime : Nat) (post : List Int) : List Bool :=
  (List.range kPrime).map fun k => decide (post.getD k 0 < 0)

/-- The hard decisions after the next `n` iterations (R229). -/
def referenceRun (rows : List (List Block)) (inp : KernelIn) : Nat → Scratch → List (List Bool)
  | 0, _ => []
  | n + 1, sc =>
    let next := iterateRows inp.zc rows sc.post sc.msgs
    hardBits inp.kPrime next.post :: referenceRun rows inp n next

/-- The reference kernel (R224 to R229). -/
def referenceKernel (src : ShiftSource) (inp : KernelIn) : List (List Bool) :=
  let rows := codeRows src inp
  referenceRun rows inp inp.maxIter (initScratch rows inp)

/-! ### The kernel parameter -/

/-- K_HD: the hard decision on the input, for every iteration (R236). -/
def hardDecisionKernel (inp : KernelIn) : List (List Bool) :=
  List.replicate inp.maxIter (hardBits inp.kPrime inp.lam)

/-- Another kernel: MAX_ITER hard decisions of K' bits, nothing more is known of them (R233). -/
def otherKernelRun (n : Nat) (inp : KernelIn) : List (List Bool) :=
  (List.range inp.maxIter).map fun t =>
    (List.range inp.kPrime).map fun k => Config.otherKernel n inp (t + 1) k

/-- DEC_KERNEL: the sequence of MAX_ITER hard decisions of K' bits (R233). -/
def runKernel (k : Kernel) (src : ShiftSource) (inp : KernelIn) : List (List Bool) :=
  match k with
  | .reference => referenceKernel src inp
  | .hardDecision => hardDecisionKernel inp
  | .other n => otherKernelRun n inp

/-! ### The control -/

/-- DecoderInput(buf, seg, Ncb) (R225): 0 for the punctured bits and for positions the circular buffer never reaches. -/
def decoderInput (soft : Sparse Int) (seg : Seg) (ncb : Nat) : List Int :=
  (List.range (ncol seg.bg * seg.zc)).map fun n =>
    if n < 2 * seg.zc then 0
    else if n - 2 * seg.zc < ncb ∨ isFiller seg (n - 2 * seg.zc) = true then softAt soft (n - 2 * seg.zc)
    else 0

/-- What a decode attempt returns (R220): message bits, iteration count, pass. -/
structure Decoded where
  bits : List Bool
  iter : Nat
  pass : Bool
  deriving DecidableEq, Repr

/-- Early stop (R230): from iteration t on, stop at the first decision whose CRC passes; `last` is the decision before, and a failure costs
the whole budget. -/
def earlyStopScan (p : Crc) (maxIter : Nat) : Nat → List Bool → List (List Bool) → Decoded
  | _, last, [] => { bits := last, iter := maxIter, pass := false }
  | t, _, c :: cs =>
    if crcOk p c then { bits := c, iter := t, pass := true } else earlyStopScan p maxIter (t + 1) c cs

/-- No early stop (R230): the CRC is checked once, on the last decision. -/
def fullRun (p : Crc) (maxIter : Nat) (decisions : List (List Bool)) : Decoded :=
  let last := decisions.getLastD []
  { bits := last, iter := maxIter, pass := crcOk p last }

/-- DecodeCB (R230). -/
def decodeCb (early : Bool) (p : Crc) (maxIter : Nat) (decisions : List (List Bool)) : Decoded :=
  if early then earlyStopScan p maxIter 1 [] decisions else fullRun p maxIter decisions

/-- DecodeStep's record (R232). -/
structure CbRec where
  attempted : Bool
  iter : Nat
  cbPass : Bool
  deriving DecidableEq, Repr

/-- The kernel's input for a codeblock (R220). -/
def kernelInput (soft : Sparse Int) (seg : Seg) (ncb maxIter : Nat) : KernelIn where
  lam := decoderInput soft seg ncb
  bg := seg.bg
  zc := seg.zc
  iLS := seg.iLS
  kPrime := seg.kPrime
  maxIter := maxIter

/-- A decode attempt of a codeblock (R220, R230). -/
def attemptDecode (ps : Params) (early : Bool) (maxIter : Nat) (seg : Seg) (ncb : Nat) (p : Crc) (soft : Sparse Int) :
    Decoded :=
  decodeCb early p maxIter (runKernel ps.kernel ps.shifts (kernelInput soft seg ncb maxIter))

/-- DecodeStep (R231, R232): only a codeblock whose flag is clear is decoded; every attempt writes its message bits. -/
def decodeStep (ps : Params) (early : Bool) (maxIter : Nat) (seg : Seg) (ncb : Nat) (p : Crc) (c : CbBuf) :
    CbBuf × CbRec :=
  if c.flag then (c, { attempted := false, iter := 0, cbPass := true })
  else
    let d := attemptDecode ps early maxIter seg ncb p c.soft
    ({ c with msg := bitsWrite c.msg 0 d.bits, flag := d.pass },
     { attempted := true, iter := d.iter, cbPass := d.pass })

end Sys2Proof.Machine
end

