-- ==== Sys2Proof/Machine/RateDematch.lean ====
section
/-! DEFINITION. Rate dematching and soft combining (42_rate_dematch.md R190 to R196). -/

namespace Sys2Proof.Machine

/-- CircularBufferLength(N, NREF) (R190). -/
def circularLen (n nref : Nat) : Nat := if nref = 0 then n else min n nref

/-- The numerator of the k0 table (R191). -/
def k0Num : BaseGraph → Nat → Nat
  | .bg1, rv => [0, 17, 33, 56].getD rv 0
  | .bg2, rv => [0, 13, 25, 43].getD rv 0

/-- The denominator of the k0 table (R191). -/
def k0Den : BaseGraph → Nat
  | .bg1 => 66
  | .bg2 => 50

/-- StartPosition(RV, BG, Ncb, Zc) (R191). -/
def startPosition (rv : Nat) (bg : BaseGraph) (ncb zc : Nat) : Nat :=
  k0Num bg rv * ncb / (k0Den bg * zc) * zc

/-- Deinterleaving: e[i·R + j] = f[i + j·QM], R = E / QM (R192). -/
def deinterleave (f : List Int) (qm : Nat) : List Int :=
  (List.range qm).flatMap fun i => (List.range (f.length / qm)).map fun j => f.getD (i + j * qm) 0

/-- The walk of R194 from position index j: the next LLR is added, saturating, at the next position that is no filler. `fuel` bounds the
positions looked at; Ncb·(E + 1) is enough (70_reset_and_hazards.md R398). -/
def dematchWalk (seg : Seg) (ncb k0 : Nat) : (fuel j : Nat) → List Int → Sparse Int → Sparse Int
  | _, _, [], buf => buf
  | 0, _, _ :: _, buf => buf
  | fuel + 1, j, x :: xs, buf =>
    if isFiller seg ((k0 + j) % ncb) then dematchWalk seg ncb k0 fuel (j + 1) (x :: xs) buf
    else
      dematchWalk seg ncb k0 fuel (j + 1) xs
        (softSet buf ((k0 + j) % ncb) (sat (softAt buf ((k0 + j) % ncb) + x)))

/-- The positions looked at are at most this many (70_reset_and_hazards.md R398). -/
def walkBound (ncb e : Nat) : Nat := ncb * (e + 1)

/-- Every filler position holds LLR_MAX (R195). -/
def writeFillers (seg : Seg) (buf : Sparse Int) : Sparse Int :=
  (List.range seg.f).foldl (fun b t => softSet b (seg.kPrime - 2 * seg.zc + t) Config.llrMax) buf

/-- RateDematch on one soft buffer (R193, R194, R195): clear on new data, combine, write the fillers. -/
def rateDematch (newData : Bool) (qm : Nat) (seg : Seg) (ncb k0 : Nat) (f : List Int) (buf : Sparse Int) :
    Sparse Int :=
  let start := if newData then softZero else buf
  let e := deinterleave f qm
  writeFillers seg (dematchWalk seg ncb k0 (walkBound ncb e.length) 0 e start)

/-- FetchOrAllocate (R196): the first use zeroes the codeblock's buffers. -/
def fetchOrAllocate (c : CbBuf) : CbBuf :=
  if c.alloc then c else { c with soft := softZero, msg := [], alloc := true }

end Sys2Proof.Machine
end

