-- ==== Sys2Proof/Machine/Assembly.lean ====
section
/-! DEFINITION. TB assembly, the TB CRC decision and the result report (44_crc_tb_assembly.md R266 to R275), and the per-codeblock loop of
END (40_commands.md R125). -/

namespace Sys2Proof.Machine

/-- What END works out before its loop (40_commands.md R125). -/
structure EndPlan where
  seg : Seg
  g : Nat
  nl : Nat
  qm : Nat
  ncb : Nat
  k0 : Nat
  poly : Crc
  tbc : Nat
  deriving DecidableEq, Repr

/-- E_r of a plan (41_segmentation.md R170). -/
def EndPlan.len (p : EndPlan) (r : Nat) : Nat := rateMatchedLen p.g p.seg.c p.nl p.qm r

/-- END's running values: the borrowed HARQ buffer, the offsets into ACC and TBA, TBA, and the records so far. -/
structure EndLoop where
  harq : HarqBuf
  off : Nat
  otb : Nat
  tba : List Bool
  recs : List CbRec
  deriving DecidableEq, Repr

/-- How many data bits AssembleCB copies: truncated to the bits still needed (R266). -/
def assembleLen (seg : Seg) (tbc otb : Nat) : Nat := min seg.d (tbc - otb)

/-- The data bits AssembleCB copies from a message buffer (R266). -/
def assembleBits (msg : List Bool) (n : Nat) : List Bool := (List.range n).map fun k => bitAt msg k

/-- What END does with the buffers of codeblock r, whose span of ACC starts at `off` (40_commands.md R125): fetch or allocate, dematch
always, decode if its flag is clear. -/
def endBuffers (ps : Params) (ss : Session) (p : EndPlan) (acc : List Int) (off r : Nat) (c : CbBuf) : CbBuf × CbRec :=
  let fetched := fetchOrAllocate c
  let f := (acc.drop off).take (p.len r)
  let combined :=
    { fetched with soft := rateDematch ss.newData p.qm p.seg p.ncb p.k0 f fetched.soft }
  decodeStep ps ss.earlyStop ss.maxIter.toNat p.seg p.ncb p.poly combined

/-- One codeblock of END (40_commands.md R125): its buffers, then its data bits into TBA. -/
def endCodeblock (ps : Params) (ss : Session) (p : EndPlan) (acc : List Int) (l : EndLoop) (r : Nat) : EndLoop :=
  let decoded := endBuffers ps ss p acc l.off r (l.harq.cb r)
  let n := assembleLen p.seg p.tbc l.otb
  { harq := l.harq.setCb r decoded.1
    off := l.off + p.len r
    otb := l.otb + n
    tba := bitsWrite l.tba l.otb (assembleBits decoded.1.msg n)
    recs := l.recs ++ [decoded.2] }

/-- Clear the CRC-pass flags of codeblocks 0..C-1 (40_commands.md R125, 44_crc_tb_assembly.md R271). -/
def clearFlags (b : HarqBuf) (c : Nat) : HarqBuf :=
  (List.range c).foldl (fun b r => b.setCb r { b.cb r with flag := false }) b

/-- Every CRC-pass flag of codeblocks 0..C-1 is 1 (R269, R270). -/
def allFlags (b : HarqBuf) (c : Nat) : Bool := (List.range c).all fun r => (b.cb r).flag

/-- The TB CRC check of a TB of several codeblocks: CRC24A over TBA[0..A+24) (R265, R269). -/
def tbCrcOk (tba : List Bool) (a : Nat) : Bool :=
  crcOk .crc24A ((List.range (a + 24)).map fun k => bitAt tba k)

/-- TbDecision's outcome (R267, R269, R270). -/
def tbDecision (b : HarqBuf) (tba : List Bool) (c a : Nat) : Bool :=
  if c = 1 then (b.cb 0).flag
  else allFlags b c && tbCrcOk tba a

/-- TbDecision's flags: a TB CRC mismatch clears every one (R271). -/
def decisionFlags (b : HarqBuf) (tba : List Bool) (c a : Nat) : HarqBuf :=
  if 1 < c ∧ allFlags b c = true ∧ tbCrcOk tba a = false then clearFlags b c else b

/-- Byte i of the TB, its first bit the most significant (R272). -/
def tbByte (tba : List Bool) (i : Nat) : Byte :=
  BitVec.ofNat 8 (valueMsbFirst ((List.range 8).map fun k => bitAt tba (8 * i + k)))

/-- The bytes of the TB (R272). -/
def tbBytesOf (tba : List Bool) (n : Nat) : List Byte := (List.range n).map fun i => tbByte tba i

/-- The records of the attempted codeblocks: the set S of R274. -/
def attemptedRecs (recs : List CbRec) : List CbRec := recs.filter fun r => r.attempted

/-- ITER_SUM (R274). -/
def iterSum (recs : List CbRec) : Nat := ((attemptedRecs recs).map fun r => r.iter).sum

/-- ITER_MIN, 0 when no decode was attempted (R274). -/
def iterMin (recs : List CbRec) : Nat := leastOr 0 ((attemptedRecs recs).map fun r => r.iter)

/-- ITER_MAX, 0 when no decode was attempted (R274). -/
def iterMax (recs : List CbRec) : Nat := ((attemptedRecs recs).map fun r => r.iter).foldl max 0

/-- The RES_CB words of codeblocks 0..C-1, of 256 registers; the flag is the one after the TB decision (R275). -/
def reportCb (recs : List CbRec) (b : HarqBuf) (c : Nat) : List Word :=
  (List.range (min c 256)).map fun r =>
    let rec' := recs.getD r { attempted := false, iter := 0, cbPass := false }
    cbWord rec'.iter rec'.attempted rec'.cbPass (b.cb r).flag

/-- The RES_CB_E words of codeblocks 0..C-1, of 256 registers (R275). -/
def reportCbE (p : EndPlan) : List Word :=
  (List.range (min p.seg.c 256)).map fun r => BitVec.ofNat 32 (p.len r)

/-- The result registers that Report writes (R275). -/
def report (ok : Bool) (recs : List CbRec) (p : EndPlan) (b : HarqBuf) : Results where
  summary := summaryWord p.seg.c ok
  nofDecoded := BitVec.ofNat 32 (attemptedRecs recs).length
  iterSum := BitVec.ofNat 32 (iterSum recs)
  iterMin := BitVec.ofNat 32 (iterMin recs)
  iterMax := BitVec.ofNat 32 (iterMax recs)
  g := BitVec.ofNat 32 p.g
  zc := BitVec.ofNat 32 p.seg.zc
  kPrime := BitVec.ofNat 32 p.seg.kPrime
  filler := BitVec.ofNat 32 p.seg.f
  ncb := BitVec.ofNat 32 p.ncb
  k0 := BitVec.ofNat 32 p.k0
  cb := reportCb recs b p.seg.c
  cbE := reportCbE p

/-- END's values before its loop (40_commands.md R125). -/
def endPlan (s : State) : EndPlan :=
  let seg := segmentTb (8 * s.sess.tbBytes.toNat) (baseGraphOf s.sess.bg)
  let ncb := circularLen seg.n s.sess.nref.toNat
  { seg := seg
    g := s.accCount
    nl := s.sess.nl.toNat
    qm := s.sess.qm.toNat
    ncb := ncb
    k0 := startPosition s.sess.rv.toNat seg.bg ncb seg.zc
    poly := cbCrc seg.a seg.c
    tbc := tbAndCrcLen seg.a seg.c }

/-- The HARQ buffer as END's loop finds it: new data clears the flags first (40_commands.md R125). -/
def endStartHarq (s : State) (p : EndPlan) : HarqBuf :=
  let b := s.harq s.sess.harqId.toNat
  if s.sess.newData then clearFlags b p.seg.c else b

/-- END's loop over the codeblocks, in order (40_commands.md R125). -/
def endLoop (s : State) (p : EndPlan) : EndLoop :=
  (List.range p.seg.c).foldl (endCodeblock s.params s.sess p s.acc)
    { harq := endStartHarq s p, off := 0, otb := 0, tba := s.tba, recs := [] }

/-- The effect of an END that raises nothing (40_commands.md R125, 44_crc_tb_assembly.md R266 to R275). -/
def endEffect (s : State) (p : EndPlan) : State :=
  let l := endLoop s p
  let ok := tbDecision l.harq l.tba p.seg.c p.seg.a
  let b := decisionFlags l.harq l.tba p.seg.c p.seg.a
  { s.setHarq s.sess.harqId.toNat b with
    tba := l.tba
    mem := if ok then memWriteBytes s.mem Config.tboutBase (tbBytesOf l.tba s.sess.tbBytes.toNat) else s.mem
    res := report ok l.recs p b
    done := true
    resSeq := s.resSeq + 1
    acc := []
    phase := .idle }

end Sys2Proof.Machine
end

