-- ==== Sys2Proof/WellFormed.lean ====
section
/-! DEFINITION. The checks on an instruction's operands that its constructor does not make by type: WDATA has no bits
beyond SIZE bytes (30_encoding.md R98), and an address belongs to the row it stands in, not to an earlier one. -/

namespace Sys2Proof

/-- WDATA is SIZE bytes (30_encoding.md R98): no bit above them is set. -/
def wdataFits (size : Size) (wdata : Word) : Bool :=
  decide (wdata.toNat < 2 ^ (8 * size.bytes))

/-- A write at this offset of the register region is taken by an earlier row of the table: CMD_WR, CTRL_WR, STATUS_WR, REG_WR
or REG_WR_VIEW. -/
def takenByEarlierRow (off : BitVec 12) : Bool :=
  off == 0x034#12 || off == 0x020#12 || off == 0x024#12 || off &&& 0xFF0#12 == 0x040#12 || off == 0x050#12

/-- The address lies in the reserved region 0x02000 to 0x3FFFF (20_memory.md R62). -/
def inReserved (addr : BitVec 18) : Bool :=
  decide (0x2000 ≤ addr.toNat)

/-- A well-formed instruction: one that some command word or bus transaction stands for. -/
def Instr.wf : Instr → Bool
  | .nop => true
  | .harqAlloc _ _ => true
  | .beginSession => true
  | .push _ => true
  | .endSession => true
  | .cmdWr size v => wdataFits size v
  | .ctrlWr size v => wdataFits size v
  | .statusWr size v => wdataFits size v
  | .regWr _ size v => wdataFits size v
  | .regWrView size v => wdataFits size v
  | .regWrIgnored off size v => wdataFits size v && !takenByEarlierRow off
  | .regRd _ _ => true
  | .stageWr _ size v => wdataFits size v
  | .stageRd _ _ => true
  | .tboutRd _ _ => true
  | .tboutWrIgnored _ size v => wdataFits size v
  | .rsvdRd addr _ => inReserved addr
  | .rsvdWr addr size v => wdataFits size v && inReserved addr

end Sys2Proof
end

