-- ==== Sys2Proof/Decode.lean ====
section
/-! DEFINITION. From a command word or a bus transaction to the instruction it stands for (30_encoding.md R92 to R98), and
back. -/

namespace Sys2Proof

/-- Why a word stands for no instruction. -/
inductive DecodeError where
  /-- OPC in 0x05..0xFF (30_encoding.md R95). -/
  | illegalOpcode
  /-- A reserved bit of the command's format is 1 (30_encoding.md R95). -/
  | reservedBits
  /-- The size code of a transaction frame is none of 1, 2 and 4 bytes (30_encoding.md R98). Frames are the model's (log 2). -/
  | frameSize
  /-- A bit of a transaction frame that carries nothing is 1. Frames are the model's (log 2). -/
  | frameReserved
  deriving DecidableEq, Repr

/-! ### Command words -/

/-- OPC, bits [31:24] (30_encoding.md R92). -/
def opcOf (w : Word) : BitVec 8 := w.extractLsb' 24 8
/-- HID, bits [23:16] of format H. -/
def hidOf (w : Word) : BitVec 8 := w.extractLsb' 16 8
/-- NCB, bits [15:0] of format H. -/
def ncbOf (w : Word) : BitVec 16 := w.extractLsb' 0 16
/-- LEN, bits [12:0] of format P. -/
def lenOf (w : Word) : BitVec 13 := w.extractLsb' 0 13
/-- Format Z's reserved bits [23:0] (30_encoding.md R92). -/
def reservedZ (w : Word) : BitVec 24 := w.extractLsb' 0 24
/-- Format P's reserved bits [23:13] (30_encoding.md R92). -/
def reservedP (w : Word) : BitVec 11 := w.extractLsb' 13 11

/-- An instruction of format Z: its reserved bits must be 0. -/
def formatZ (w : Word) (i : Instr) : Except DecodeError Instr :=
  if reservedZ w = 0 then .ok i else .error .reservedBits

/-- Decoding a command word: OPC first, then the format's reserved bits (30_encoding.md R94, R95, R96). -/
def decodeCommand (w : Word) : Except DecodeError Instr :=
  if opcOf w = 0x00#8 then formatZ w .nop
  else if opcOf w = 0x01#8 then .ok (.harqAlloc (hidOf w) (ncbOf w))
  else if opcOf w = 0x02#8 then formatZ w .beginSession
  else if opcOf w = 0x03#8 then
    if reservedP w = 0 then .ok (.push (lenOf w)) else .error .reservedBits
  else if opcOf w = 0x04#8 then formatZ w .endSession
  else .error .illegalOpcode

/-! ### Bus transactions -/

/-- The effective address: ADDR modulo 2^19 (45_register_access.md R300). -/
def effectiveAddr (addr : Nat) : BitVec 19 := BitVec.ofNat 19 addr

/-- A row of the table matches an address: its masked bits are the row's (30_encoding.md R98). -/
def rowMatches (ea pattern mask : BitVec 19) : Bool := ea &&& mask == pattern

/-- The low SIZE bytes of WDATA: a write moves no others (30_encoding.md R98, log 13). -/
def wdataLanes (size : Size) (v : Word) : Word :=
  match size with
  | .one => v &&& 0x000000FF#32
  | .two => v &&& 0x0000FFFF#32
  | .four => v

/-- The write rows of the table, in table order (30_encoding.md R98). -/
def decodeWrite (size : Size) (ea : BitVec 19) (v : Word) : Instr :=
  if rowMatches ea 0x00034#19 0x7FFFF#19 then .cmdWr size v
  else if rowMatches ea 0x00020#19 0x7FFFF#19 then .ctrlWr size v
  else if rowMatches ea 0x00024#19 0x7FFFF#19 then .statusWr size v
  else if rowMatches ea 0x00040#19 0x7FFF0#19 then .regWr (ea.extractLsb' 0 4) size v
  else if rowMatches ea 0x00050#19 0x7FFFF#19 then .regWrView size v
  else if rowMatches ea 0x00000#19 0x7F000#19 then .regWrIgnored (ea.extractLsb' 0 12) size v
  else if rowMatches ea 0x01000#19 0x7F000#19 then .stageWr (ea.extractLsb' 0 12) size v
  else if rowMatches ea 0x40000#19 0x40000#19 then .tboutWrIgnored (ea.extractLsb' 0 18) size v
  else .rsvdWr (ea.extractLsb' 0 18) size v

/-- The read rows of the table, in table order (30_encoding.md R98). -/
def decodeRead (size : Size) (ea : BitVec 19) : Instr :=
  if rowMatches ea 0x00000#19 0x7F000#19 then .regRd (ea.extractLsb' 0 12) size
  else if rowMatches ea 0x01000#19 0x7F000#19 then .stageRd (ea.extractLsb' 0 12) size
  else if rowMatches ea 0x40000#19 0x40000#19 then .tboutRd (ea.extractLsb' 0 18) size
  else .rsvdRd (ea.extractLsb' 0 18) size

/-- Decoding a bus transaction: every one belongs to exactly one row (30_encoding.md R98). -/
def decodeTxn : Txn → Instr
  | .read size addr => decodeRead size (effectiveAddr addr)
  | .write size addr v => decodeWrite size (effectiveAddr addr) (wdataLanes size v)

/-- The decoder: total, rejecting an illegal command word by name. -/
def decode : Encoded → Except DecodeError Instr
  | .command w => decodeCommand w
  | .transaction t => .ok (decodeTxn t)

/-! ### The encoder -/

/-- A command word of format Z (30_encoding.md R92). -/
def encodeZ (opc : BitVec 8) : Word := opc ++ 0#24
/-- A command word of format H (30_encoding.md R92). -/
def encodeH (opc : BitVec 8) (hid : BitVec 8) (ncb : BitVec 16) : Word := opc ++ hid ++ ncb
/-- A command word of format P (30_encoding.md R92). -/
def encodeP (opc : BitVec 8) (len : BitVec 13) : Word := opc ++ 0#11 ++ len

/-- The command word or transaction of an instruction (30_encoding.md R94, R98, R99). -/
def encode : Instr → Encoded
  | .nop => .command (encodeZ 0x00#8)
  | .harqAlloc hid ncb => .command (encodeH 0x01#8 hid ncb)
  | .beginSession => .command (encodeZ 0x02#8)
  | .push len => .command (encodeP 0x03#8 len)
  | .endSession => .command (encodeZ 0x04#8)
  | .cmdWr size v => .transaction (.write size 0x034 v)
  | .ctrlWr size v => .transaction (.write size 0x020 v)
  | .statusWr size v => .transaction (.write size 0x024 v)
  | .regWr off size v => .transaction (.write size (0x040 + off.toNat) v)
  | .regWrView size v => .transaction (.write size 0x050 v)
  | .regWrIgnored off size v => .transaction (.write size off.toNat v)
  | .regRd off size => .transaction (.read size off.toNat)
  | .stageWr off size v => .transaction (.write size (0x01000 + off.toNat) v)
  | .stageRd off size => .transaction (.read size (0x01000 + off.toNat))
  | .tboutRd off size => .transaction (.read size (0x40000 + off.toNat))
  | .tboutWrIgnored off size v => .transaction (.write size (0x40000 + off.toNat) v)
  | .rsvdRd addr size => .transaction (.read size addr.toNat)
  | .rsvdWr addr size v => .transaction (.write size addr.toNat v)

/-! ### Words as the opcode table numbers them -/

/-- The size of a frame's size code: 0 is 4 bytes, 1 is 1 byte, 2 is 2 bytes (log 2). -/
def sizeOfCode (code : Nat) : Except DecodeError Size :=
  if code = 0 then .ok .four
  else if code = 1 then .ok .one
  else if code = 2 then .ok .two
  else .error .frameSize

/-- A transaction laid out as one number, the model's own layout (log 2): ADDR in bits 18..0, where the table's match and mask
put it; DIR in bit 19, 0 for a write; the size code in bits 21..20; bits 31..22 are 0; WDATA in bits 63..32, which are 0 for a read. -/
def txnOfFrame (w : Nat) : Except DecodeError Txn := do
  let size ← sizeOfCode (w / 2 ^ 20 % 4)
  if w / 2 ^ 22 % 2 ^ 10 ≠ 0 then .error .frameReserved
  else if w / 2 ^ 19 % 2 = 0 then
    if w / 2 ^ 64 ≠ 0 then .error .frameReserved
    else .ok (.write size (w % 2 ^ 19) (BitVec.ofNat 32 (w / 2 ^ 32)))
  else if w / 2 ^ 32 ≠ 0 then .error .frameReserved
  else .ok (.read size (w % 2 ^ 19))

/-- The encoded object of a word of the opcode table: 32 bits are a command word, any other width is a transaction frame (log 2). -/
def encodedOfTableWord (nbits w : Nat) : Except DecodeError Encoded :=
  if nbits = 32 then .ok (.command (BitVec.ofNat 32 w))
  else (txnOfFrame w).map .transaction

/-- The instruction the decoder reads from a word numbered as spec/opcode_table.json numbers it. -/
def decodeTableWord (nbits w : Nat) : Option Instr :=
  match encodedOfTableWord nbits w with
  | .ok e => (decode e).toOption
  | .error _ => none

end Sys2Proof
end

