-- ==== Sys2Proof/Machine/Operands.lean ====
section
/-! DEFINITION. The operand forms: sizes, alignment and byte lanes of a transaction (20_memory.md R64, R68; 45_register_access.md R300,
R309), and the register file by address (10_state.md R23 to R41). A command's operands are unsigned fields (30_encoding.md R93). -/

namespace Sys2Proof.Machine

/-! ### Legal accesses -/

/-- Naturally aligned (20_memory.md R68). -/
def aligned (size : Size) (addr : Nat) : Bool := addr % size.bytes == 0

/-- A legal access of the register region: 32 bits wide at a multiple of 4 (20_memory.md R68). -/
def regLegal (size : Size) (addr : Nat) : Bool := size == .four && aligned .four addr

/-- A legal access of STAGE, TBOUT or the reserved region (20_memory.md R68). -/
def windowLegal (size : Size) (addr : Nat) : Bool := aligned size addr

/-! ### Byte lanes -/

/-- The bytes a write moves: byte k is bits [8k+7:8k] of the value (20_memory.md R64). -/
def lanesOf (size : Size) (v : Word) : List Byte :=
  (List.range size.bytes).map fun k => v.extractLsb' (8 * k) 8

/-- The value of the bytes a read moves (20_memory.md R64). -/
def wordOfLanes : List Byte → Word
  | [] => 0
  | b :: bs => (wordOfLanes bs <<< 8) ||| b.setWidth 32

/-- The bytes at a bus address and after, read as one value (45_register_access.md R306, R307). -/
def State.readBytes (s : State) (size : Size) (a : Nat) : Word :=
  wordOfLanes ((List.range size.bytes).map fun k => s.byteAt (a + k))

/-! ### Registers by address -/

/-- The registers of 10_state.md. -/
inductive Reg where
  | id
  | version
  | param0
  | param1
  | param2
  | ctrl
  | status
  | faultCause
  | faultCmd
  | faultInfo
  | cmd
  | accCount
  | resSeq
  | cfgTbBytes
  | cfgCoding
  | cfgNref
  | cfgHarqId
  | harqViewId
  | harqViewNofCb
  | resSummary
  | resNofDecoded
  | resIterSum
  | resIterMin
  | resIterMax
  | resG
  | resZc
  | resKPrime
  | resFiller
  | resNcb
  | resK0
  | resCb (r : Nat)
  | resCbE (r : Nat)
  | harqViewFlags (w : Nat)
  deriving DecidableEq, Repr

/-- The registers that have an address of their own (10_state.md R23 to R39). -/
def singleRegs : List (Nat × Reg) :=
  [(0x000, .id), (0x004, .version), (0x008, .param0), (0x00C, .param1), (0x010, .param2),
   (0x020, .ctrl), (0x024, .status), (0x028, .faultCause), (0x02C, .faultCmd), (0x030, .faultInfo),
   (0x034, .cmd), (0x038, .accCount), (0x03C, .resSeq),
   (0x040, .cfgTbBytes), (0x044, .cfgCoding), (0x048, .cfgNref), (0x04C, .cfgHarqId),
   (0x050, .harqViewId), (0x054, .harqViewNofCb),
   (0x060, .resSummary), (0x064, .resNofDecoded), (0x068, .resIterSum), (0x06C, .resIterMin),
   (0x070, .resIterMax), (0x074, .resG), (0x078, .resZc), (0x07C, .resKPrime), (0x080, .resFiller),
   (0x084, .resNcb), (0x088, .resK0)]

/-- The register at a word address of the register region, if there is one (20_memory.md R62, R63). -/
def regAt (addr : Nat) : Option Reg :=
  if 0x100 ≤ addr ∧ addr < 0x500 then some (.resCb ((addr - 0x100) / 4))
  else if 0x500 ≤ addr ∧ addr < 0x900 then some (.resCbE ((addr - 0x500) / 4))
  else if 0x900 ≤ addr ∧ addr < 0x920 then some (.harqViewFlags ((addr - 0x900) / 4))
  else sparseFind singleRegs addr

/-- HARQ_VIEW_NOF_CB (10_state.md R35). -/
def viewNofCb (s : State) : Nat :=
  if s.harqViewId.toNat < s.params.numHarq then (s.harq s.harqViewId.toNat).nofCb else 0

/-- The CRC-pass flag that the HARQ view shows for codeblock r (10_state.md R36). -/
def viewFlag (s : State) (r : Nat) : Bool :=
  decide (s.harqViewId.toNat < s.params.numHarq) && decide (r < s.params.maxCb)
    && ((s.harq s.harqViewId.toNat).cb r).flag

/-- HARQ_VIEW_FLAGS[w] (10_state.md R36): bit b shows codeblock 32w + b. -/
def viewFlagsWord (s : State) (w : Nat) : Word :=
  BitVec.ofFnLE fun b : Fin 32 => viewFlag s (32 * w + b.val)

/-- The value of a register (10_state.md; 45_register_access.md R301). CMD reads 0. -/
def regRead (s : State) : Reg → Word
  | .id => Config.idValue
  | .version => Config.versionValue
  | .param0 => BitVec.ofNat 16 s.params.numHarq ++ BitVec.ofNat 16 s.params.maxCb
  | .param1 => BitVec.ofNat 32 s.params.maxSoftbits
  | .param2 => BitVec.ofNat 32 s.params.maxTbBytes
  | .ctrl => ctrlWord s
  | .status => statusWord s
  | .faultCause => BitVec.ofNat 32 s.faultCause.code
  | .faultCmd => s.faultCmd
  | .faultInfo => s.faultInfo
  | .cmd => 0
  | .accCount => BitVec.ofNat 32 s.accCount
  | .resSeq => s.resSeq
  | .cfgTbBytes => s.cfgTbBytes
  | .cfgCoding => s.cfgCoding
  | .cfgNref => s.cfgNref
  | .cfgHarqId => s.cfgHarqId.setWidth 32
  | .harqViewId => s.harqViewId.setWidth 32
  | .harqViewNofCb => BitVec.ofNat 32 (viewNofCb s)
  | .resSummary => s.res.summary
  | .resNofDecoded => s.res.nofDecoded
  | .resIterSum => s.res.iterSum
  | .resIterMin => s.res.iterMin
  | .resIterMax => s.res.iterMax
  | .resG => s.res.g
  | .resZc => s.res.zc
  | .resKPrime => s.res.kPrime
  | .resFiller => s.res.filler
  | .resNcb => s.res.ncb
  | .resK0 => s.res.k0
  | .resCb r => if r < s.params.maxCb then s.res.cb.getD r 0 else 0
  | .resCbE r => s.res.cbE.getD r 0
  | .harqViewFlags w => viewFlagsWord s w

/-- The registers whose value is unspecified while BUSY = 1 (20_memory.md R72). -/
def busyUnspecified : Reg → Bool
  | .accCount => true
  | .resSeq => true
  | .harqViewNofCb => true
  | .resSummary => true
  | .resNofDecoded => true
  | .resIterSum => true
  | .resIterMin => true
  | .resIterMax => true
  | .resG => true
  | .resZc => true
  | .resKPrime => true
  | .resFiller => true
  | .resNcb => true
  | .resK0 => true
  | .resCb _ => true
  | .resCbE _ => true
  | .harqViewFlags _ => true
  | .id => false
  | .version => false
  | .param0 => false
  | .param1 => false
  | .param2 => false
  | .ctrl => false
  | .status => false
  | .faultCause => false
  | .faultCmd => false
  | .faultInfo => false
  | .cmd => false
  | .cfgTbBytes => false
  | .cfgCoding => false
  | .cfgNref => false
  | .cfgHarqId => false
  | .harqViewId => false

/-- A read's answer whose data is a free value (20_memory.md R72, U3; log 4). -/
def State.drawRead (s : State) (size : Size) : State :=
  { s with
    resp := .readOk size (wdataLanes size (Config.busyRead s.draws))
    draws := s.draws + 1 }

/-- A legal read at a word address of the register region: 0 where there is no register (45_register_access.md R301, 20_memory.md R63);
some values are unspecified while BUSY = 1 (R72). -/
def readRegister (s : State) (addr : Nat) : State :=
  match regAt addr with
  | none => s.respond (.readOk .four 0)
  | some g =>
    if s.busy && busyUnspecified g then s.drawRead .four
    else s.respond (.readOk .four (regRead s g))

/-! ### Writes of plain registers -/

/-- WMASK(CFG_CODING) (45_register_access.md R302); the other bits are RAZ/WI. -/
def codingMask : Word := 0x00FF1FFF#32

/-- Write a CFG register by its offset from 0x040 (45_register_access.md R302). CFG_HARQ_ID keeps bits [7:0]. -/
def writeCfg (s : State) (off : BitVec 4) (v : Word) : State :=
  if off = 0x0#4 then { s with cfgTbBytes := v }
  else if off = 0x4#4 then { s with cfgCoding := v &&& codingMask }
  else if off = 0x8#4 then { s with cfgNref := v }
  else if off = 0xC#4 then { s with cfgHarqId := v.setWidth 8 }
  else s

/-! ### Fields of CFG_CODING (10_state.md R32) -/

/-- BG_SEL, [1:0]. -/
def codingBg (c : Word) : BitVec 2 := c.extractLsb' 0 2
/-- RV, [3:2]. -/
def codingRv (c : Word) : BitVec 2 := c.extractLsb' 2 2
/-- QM, [7:4]. -/
def codingQm (c : Word) : BitVec 4 := c.extractLsb' 4 4
/-- NL, [10:8]. -/
def codingNl (c : Word) : BitVec 3 := c.extractLsb' 8 3
/-- NEW_DATA, [11]. -/
def codingNewData (c : Word) : Bool := c.getLsbD 11
/-- EARLY_STOP, [12]. -/
def codingEarlyStop (c : Word) : Bool := c.getLsbD 12
/-- MAX_ITER, [23:16]. -/
def codingMaxIter (c : Word) : BitVec 8 := c.extractLsb' 16 8

end Sys2Proof.Machine
end

