-- ==== Sys2Proof/Machine/Commands.lean ====
section
/-! DEFINITION. The five commands (40_commands.md R121 to R125): each rule with its checks in the order of 60_exceptions.md R338, and its
meaning, which is the rule run as a command step (R120). -/

namespace Sys2Proof.Machine

/-- The command word of a command instruction (30_encoding.md R94); 0 for a transaction. -/
def commandWord (i : Instr) : Word :=
  match encode i with
  | .command w => w
  | .transaction _ => 0

/-! ### The rules -/

/-- NOP's rule (R121): nothing. -/
def nopRule (s : State) : Except Raise State := .ok s

/-- Clear `alloc` and `flag` of codeblocks 0..n-1 (R122). The arrays keep their contents, which nothing reads before they are zeroed
(log 21). -/
def deallocate (b : HarqBuf) (n : Nat) : HarqBuf :=
  (List.range n).foldl (fun b r => b.setCb r { b.cb r with alloc := false, flag := false }) b

/-- HARQ_ALLOC's rule (R122). -/
def harqAllocRule (hid : BitVec 8) (ncb : BitVec 16) (s : State) : Except Raise State :=
  if s.phase ≠ .idle then .error (.seqError, phaseInfo s.phase)
  else if ¬ hid.toNat < s.params.numHarq then .error (.harqRange, hid.setWidth 32)
  else if ¬ (1 ≤ ncb.toNat ∧ ncb.toNat ≤ s.params.maxCb) then .error (.harqRange, ncb.setWidth 32)
  else .ok (s.setHarq hid.toNat { deallocate (s.harq hid.toNat) s.params.maxCb with nofCb := ncb.toNat })

/-- The session BEGIN latches (R123, 10_state.md R42). -/
def latchSession (s : State) : Session where
  tbBytes := s.cfgTbBytes
  bg := codingBg s.cfgCoding
  rv := codingRv s.cfgCoding
  qm := codingQm s.cfgCoding
  nl := codingNl s.cfgCoding
  newData := codingNewData s.cfgCoding
  earlyStop := codingEarlyStop s.cfgCoding
  maxIter := codingMaxIter s.cfgCoding
  nref := s.cfgNref
  harqId := s.cfgHarqId

/-- A legal modulation order (R123). -/
def legalQm (qm : Nat) : Bool := [1, 2, 4, 6, 8].contains qm

/-- BEGIN's rule (R123): FAULT_INFO names the first illegal field. -/
def beginRule (s : State) : Except Raise State :=
  if s.phase ≠ .idle then .error (.seqError, phaseInfo s.phase)
  else if ¬ (1 ≤ s.cfgTbBytes.toNat ∧ s.cfgTbBytes.toNat ≤ s.params.maxTbBytes) then .error (.cfgInvalid, 1)
  else if ¬ (codingBg s.cfgCoding = 1 ∨ codingBg s.cfgCoding = 2) then .error (.cfgInvalid, 2)
  else if ¬ legalQm (codingQm s.cfgCoding).toNat then .error (.cfgInvalid, 3)
  else if ¬ (1 ≤ (codingNl s.cfgCoding).toNat ∧ (codingNl s.cfgCoding).toNat ≤ Config.maxLayers) then
    .error (.cfgInvalid, 4)
  else if ¬ 1 ≤ (codingMaxIter s.cfgCoding).toNat then .error (.cfgInvalid, 5)
  else if ¬ s.cfgHarqId.toNat < s.params.numHarq then .error (.cfgInvalid, 6)
  else .ok { s with sess := latchSession s, acc := [], phase := .accum }

/-- The LLRs a PUSH takes from STAGE bytes 0..n-1: two's complement, saturated, so that -128 becomes -127 (R124). -/
def stagedLlrs (s : State) (n : Nat) : List Int := (List.range n).map fun i => sat (s.stageByte i).toInt

/-- PUSH's rule (R124). -/
def pushRule (len : BitVec 13) (s : State) : Except Raise State :=
  if s.phase ≠ .accum then .error (.seqError, phaseInfo s.phase)
  else if ¬ len.toNat ≤ Config.stageBytes then .error (.pushRange, len.setWidth 32)
  else if ¬ s.accCount + len.toNat ≤ s.params.maxSoftbits then
    .error (.accOverflow, BitVec.ofNat 32 (s.accCount + len.toNat))
  else .ok { s with acc := s.acc ++ stagedLlrs s len.toNat }

/-- FAULT_INFO of CB_COUNT_MISMATCH (R125): the buffer's count above the segmenter's. -/
def mismatchInfo (nofCb c : Nat) : Word := (BitVec.ofNat 32 nofCb <<< 16) ||| BitVec.ofNat 32 c

/-- END's rule (R125). -/
def endRule (s : State) : Except Raise State :=
  if s.phase ≠ .accum then .error (.seqError, phaseInfo s.phase)
  else if ¬ s.accCount % s.sess.qm.toNat = 0 then .error (.softbitsNotMultiple, BitVec.ofNat 32 s.accCount)
  else if ¬ s.accCount % (s.sess.nl.toNat * s.sess.qm.toNat) = 0 then
    .error (.layersNotMultiple, BitVec.ofNat 32 s.accCount)
  else if ¬ (endPlan s).seg.c ≤ s.params.maxCb then .error (.segRange, BitVec.ofNat 32 (endPlan s).seg.c)
  else if ¬ (endPlan s).seg.c = (s.harq s.sess.harqId.toNat).nofCb then
    .error (.cbCountMismatch, mismatchInfo (s.harq s.sess.harqId.toNat).nofCb (endPlan s).seg.c)
  else .ok (endEffect s (endPlan s))

/-! ### The meanings -/

/-- NOP (R121). -/
def execNop (s : State) : Host.Outcome State Fault Refusal := .next (commandStep (commandWord .nop) nopRule s)

/-- HARQ_ALLOC (R122). -/
def execHarqAlloc (hid : BitVec 8) (ncb : BitVec 16) (s : State) : Host.Outcome State Fault Refusal :=
  .next (commandStep (commandWord (.harqAlloc hid ncb)) (harqAllocRule hid ncb) s)

/-- BEGIN (R123). -/
def execBegin (s : State) : Host.Outcome State Fault Refusal :=
  .next (commandStep (commandWord .beginSession) beginRule s)

/-- PUSH (R124). -/
def execPush (len : BitVec 13) (s : State) : Host.Outcome State Fault Refusal :=
  .next (commandStep (commandWord (.push len)) (pushRule len) s)

/-- END (R125). -/
def execEnd (s : State) : Host.Outcome State Fault Refusal :=
  .next (commandStep (commandWord .endSession) endRule s)

end Sys2Proof.Machine
end

