-- ==== Sys2Proof/Machine/Transactions.lean ====
section
/-! DEFINITION. The thirteen transaction classes (45_register_access.md R301 to R307; 20_memory.md R63, R69, R70). A meaning is what the slave
port does when it performs the transaction; that a write waits while BUSY = 1 (20_memory.md R71) is in `fetch`. -/

namespace Sys2Proof.Machine

/-- A write: its effect and OK if the access is legal, else a bus error with no other effect (20_memory.md R69). -/
def busWrite (legal : Bool) (effect : State → State) (s : State) : State :=
  if legal then (effect s).respond .writeOk else s.respond .writeErr

/-- A read: answered by `answer` if the access is legal, else a bus error with data 0 (20_memory.md R69). -/
def busRead (legal : Bool) (size : Size) (answer : State → State) (s : State) : State :=
  if legal then answer s else s.respond (.readErr size)

/-! ### Effects of legal accesses -/

/-- A CMD write (R303, 40_commands.md R120): discarded while FAULT = 1 (60_exceptions.md R336), else the word is accepted and BUSY is
1. Its step runs next (log 3). -/
def acceptCommand (w : Word) (s : State) : State := if s.fault then s else { s with pending := some w }

/-- A CTRL write (R304): a soft reset, or the interrupt enables. -/
def writeCtrl (v : Word) (s : State) : State :=
  if v.getLsbD 0 then s.doReset else { s with ieDone := v.getLsbD 1, ieFault := v.getLsbD 2 }

/-- A STATUS write (R305): writing 1 to bit 1 clears DONE. -/
def writeStatus (v : Word) (s : State) : State := if v.getLsbD 1 then { s with done := false } else s

/-- A HARQ_VIEW_ID write (R302): bits [7:0] are kept. -/
def writeView (v : Word) (s : State) : State := { s with harqViewId := v.setWidth 8 }

/-- A write of STAGE bytes (R306). -/
def writeStage (off : Nat) (size : Size) (v : Word) (s : State) : State :=
  { s with mem := memWriteBytes s.mem (Config.stageBase + off) (lanesOf size v) }

/-- A read of STAGE bytes (R306). While BUSY = 1 it is served with the values from before the step (20_memory.md R72). -/
def readStage (off : Nat) (size : Size) (s : State) : State :=
  s.respond (.readOk size (s.readBytes size (Config.stageBase + off)))

/-- A read of TBOUT bytes (R307), unspecified while BUSY = 1 (20_memory.md R72). -/
def readTbout (off : Nat) (size : Size) (s : State) : State :=
  if s.busy then s.drawRead size else s.respond (.readOk size (s.readBytes size (Config.tboutBase + off)))

/-- A read that finds nothing: 0 (20_memory.md R63). -/
def readZero (size : Size) (s : State) : State := s.respond (.readOk size 0)

/-! ### The meanings -/

/-- CMD_WR (R303). -/
def execCmdWr (size : Size) (v : Word) (s : State) : Host.Outcome State Fault Refusal :=
  .next (busWrite (regLegal size 0x034) (acceptCommand v) s)

/-- CTRL_WR (R304). -/
def execCtrlWr (size : Size) (v : Word) (s : State) : Host.Outcome State Fault Refusal :=
  .next (busWrite (regLegal size 0x020) (writeCtrl v) s)

/-- STATUS_WR (R305). -/
def execStatusWr (size : Size) (v : Word) (s : State) : Host.Outcome State Fault Refusal :=
  .next (busWrite (regLegal size 0x024) (writeStatus v) s)

/-- REG_WR (R302): the CFG registers at 0x040 to 0x04C. -/
def execRegWr (off : BitVec 4) (size : Size) (v : Word) (s : State) : Host.Outcome State Fault Refusal :=
  .next (busWrite (regLegal size (0x040 + off.toNat)) (fun t => writeCfg t off v) s)

/-- REG_WR_VIEW (R302): HARQ_VIEW_ID. -/
def execRegWrView (size : Size) (v : Word) (s : State) : Host.Outcome State Fault Refusal :=
  .next (busWrite (regLegal size 0x050) (writeView v) s)

/-- REG_WR_IGNORED (20_memory.md R63, R70): no effect and no error. -/
def execRegWrIgnored (off : BitVec 12) (size : Size) (_ : Word) (s : State) : Host.Outcome State Fault Refusal :=
  .next (busWrite (regLegal size off.toNat) id s)

/-- REG_RD (R301). -/
def execRegRd (off : BitVec 12) (size : Size) (s : State) : Host.Outcome State Fault Refusal :=
  .next (busRead (regLegal size off.toNat) size (fun t => readRegister t off.toNat) s)

/-- STAGE_WR (R306). -/
def execStageWr (off : BitVec 12) (size : Size) (v : Word) (s : State) : Host.Outcome State Fault Refusal :=
  .next (busWrite (windowLegal size (Config.stageBase + off.toNat)) (writeStage off.toNat size v) s)

/-- STAGE_RD (R306). -/
def execStageRd (off : BitVec 12) (size : Size) (s : State) : Host.Outcome State Fault Refusal :=
  .next (busRead (windowLegal size (Config.stageBase + off.toNat)) size (readStage off.toNat size) s)

/-- TBOUT_RD (R307). -/
def execTboutRd (off : BitVec 18) (size : Size) (s : State) : Host.Outcome State Fault Refusal :=
  .next (busRead (windowLegal size (Config.tboutBase + off.toNat)) size (readTbout off.toNat size) s)

/-- TBOUT_WR_IGNORED (20_memory.md R70): TBOUT is read-only. -/
def execTboutWrIgnored (off : BitVec 18) (size : Size) (_ : Word) (s : State) : Host.Outcome State Fault Refusal :=
  .next (busWrite (windowLegal size (Config.tboutBase + off.toNat)) id s)

/-- RSVD_RD (20_memory.md R63): reads 0. -/
def execRsvdRd (addr : BitVec 18) (size : Size) (s : State) : Host.Outcome State Fault Refusal :=
  .next (busRead (windowLegal size addr.toNat) size (readZero size) s)

/-- RSVD_WR (20_memory.md R63): ignored. -/
def execRsvdWr (addr : BitVec 18) (size : Size) (_ : Word) (s : State) : Host.Outcome State Fault Refusal :=
  .next (busWrite (windowLegal size addr.toNat) id s)

end Sys2Proof.Machine
end

