-- ==== Sys2Proof/Machine/Dispatch.lean ====
section
/-! DEFINITION. exec: one arm per instruction, each one call of its meaning. -/

namespace Sys2Proof.Machine

def exec (i : Instr) (s : State) : Host.Outcome State Fault Refusal :=
  match i with
  | .nop => Sys2Proof.Machine.execNop s
  | .harqAlloc hid ncb => Sys2Proof.Machine.execHarqAlloc hid ncb s
  | .beginSession => Sys2Proof.Machine.execBegin s
  | .push len => Sys2Proof.Machine.execPush len s
  | .endSession => Sys2Proof.Machine.execEnd s
  | .cmdWr size v => Sys2Proof.Machine.execCmdWr size v s
  | .ctrlWr size v => Sys2Proof.Machine.execCtrlWr size v s
  | .statusWr size v => Sys2Proof.Machine.execStatusWr size v s
  | .regWr off size v => Sys2Proof.Machine.execRegWr off size v s
  | .regWrView size v => Sys2Proof.Machine.execRegWrView size v s
  | .regWrIgnored off size v => Sys2Proof.Machine.execRegWrIgnored off size v s
  | .regRd off size => Sys2Proof.Machine.execRegRd off size s
  | .stageWr off size v => Sys2Proof.Machine.execStageWr off size v s
  | .stageRd off size => Sys2Proof.Machine.execStageRd off size s
  | .tboutRd off size => Sys2Proof.Machine.execTboutRd off size s
  | .tboutWrIgnored off size v => Sys2Proof.Machine.execTboutWrIgnored off size v s
  | .rsvdRd addr size => Sys2Proof.Machine.execRsvdRd addr size s
  | .rsvdWr addr size v => Sys2Proof.Machine.execRsvdWr addr size v s

end Sys2Proof.Machine
end

