-- ==== Sys2Proof/Machine/Step.lean ====
section
/-! DEFINITION. One step of the engine: take up what is next, decode it, run it. -/

namespace Sys2Proof.Machine

/-- One step: with nothing to do the engine stays as it is (70_reset_and_hazards.md R381); an illegal command word faults with ILLEGAL_CMD
(30_encoding.md R95); everything else runs the decoded instruction. -/
def step (s : State) : Host.Outcome State Fault Refusal :=
  match fetch s with
  | (.nothing, t) => .next t
  | (.reset, t) => .next t.doReset
  | (.command w, t) =>
    match decodeCommand w with
    | .ok i => exec i t
    | .error _ => .next (commandStep w illegalRule t)
  | (.transaction x, t) => exec (decodeTxn x) t

/-- s with a word of the opcode table where `step` takes up what is next (log 1, log 2): a command word as the accepted command whose step
ends now, a transaction as the next one at the port of an engine that is not busy. -/
def State.withFetchWord (s : State) (nbits w : Nat) : State :=
  match encodedOfTableWord nbits w with
  | .ok (.command c) => { s with pending := some c, inputs := .lapse :: s.inputs }
  | .ok (.transaction t) => { s with pending := none, inputs := .txn t :: s.inputs }
  | .error _ => s

end Sys2Proof.Machine
end

