-- ==== Sys2Proof/Safety.lean ====
section
/-! DEFINITION. What holds of every state a run reaches, in the spec's terms, and what a run may change: the terms in which statements
about the machine are written. -/

namespace Sys2Proof.Machine

/-- An instance's parameters are in the ranges of 00_scope.md R13. -/
structure Params.Ok (p : Params) : Prop where
  harq : 1 ≤ p.numHarq ∧ p.numHarq ≤ 256
  cb : 1 ≤ p.maxCb ∧ p.maxCb ≤ 256
  tb : 1 ≤ p.maxTbBytes ∧ p.maxTbBytes ≤ 262144
  soft : 1 ≤ p.maxSoftbits ∧ p.maxSoftbits ≤ 2 ^ 24

/-- An LLR the engine may store (00_scope.md R19). -/
def LlrOk (v : Int) : Prop := -127 ≤ v ∧ v ≤ 127

/-- A session that BEGIN may latch (40_commands.md R123). -/
structure Session.Legal (p : Params) (x : Session) : Prop where
  tb : 1 ≤ x.tbBytes.toNat ∧ x.tbBytes.toNat ≤ p.maxTbBytes
  bg : x.bg = 1 ∨ x.bg = 2
  qm : x.qm.toNat ∈ [1, 2, 4, 6, 8]
  nl : 1 ≤ x.nl.toNat ∧ x.nl.toNat ≤ 4
  iter : 1 ≤ x.maxIter.toNat
  harq : x.harqId.toNat < p.numHarq

/-- A bus address of STAGE or TBOUT (20_memory.md R62). -/
def WindowAddr (a : Nat) : Prop := (0x01000 ≤ a ∧ a ≤ 0x01FFF) ∨ (0x40000 ≤ a ∧ a ≤ 0x7FFFF)

/-- Every stored LLR is in range (10_state.md R43, R47; 42_rate_dematch.md R199). -/
structure State.LlrInv (s : State) : Prop where
  acc : ∀ v ∈ s.acc, LlrOk v
  soft : ∀ h r p, LlrOk (softAt ((s.harq h).cb r).soft p)

/-- The fault record (10_state.md R27, 60_exceptions.md R330, R336): no fault, nothing recorded; a fault, a cause recorded and no
command running. -/
structure State.FaultInv (s : State) : Prop where
  clear : s.fault = false → s.faultCause = .none ∧ s.faultCmd = 0 ∧ s.faultInfo = 0
  raised : s.fault = true → s.faultCause ≠ .none ∧ s.pending = none

/-- Reserved register fields read 0 (10_state.md R32, R37, R40). -/
structure State.ReservedInv (s : State) : Prop where
  coding : s.cfgCoding &&& 0xFF00E000#32 = 0
  summary : s.res.summary.extractLsb' 2 14 = 0
  cb : ∀ w ∈ s.res.cb, w.extractLsb' 19 13 = 0

/-- Memory is in canonical form and lists only bytes of STAGE and TBOUT. -/
structure State.MemInv (s : State) : Prop where
  canonical : Memory.wf s.mem = true
  windows : ∀ a b, memFind s.mem a = some b → WindowAddr a

/-- The session and the counts (10_state.md R29, R42, R43, R46). -/
structure State.SessionInv (s : State) : Prop where
  params : s.params.Ok
  legal : s.phase = .accum → s.sess.Legal s.params
  idle : s.phase = .idle → s.accCount = 0
  count : s.accCount ≤ s.params.maxSoftbits
  sized : ∀ h, (s.harq h).nofCb ≤ s.params.maxCb

/-- The machine's invariant. -/
structure State.Inv (s : State) : Prop where
  session : s.SessionInv
  llr : s.LlrInv
  fault : s.FaultInv
  reserved : s.ReservedInv
  mem : s.MemInv

/-! ### Terms of the statements -/

/-- What a reset leaves (70_reset_and_hazards.md R380; 10_state.md R55), `s` before it and `t` after it. -/
structure AfterReset (s t : State) : Prop where
  params : t.params = s.params
  enables : t.ieDone = false ∧ t.ieFault = false
  status : t.done = false ∧ t.fault = false ∧ t.phase = .idle ∧ t.busy = false
  irq : t.irq = false
  record : t.faultCause = .none ∧ t.faultCmd = 0 ∧ t.faultInfo = 0
  config : t.cfgTbBytes = 0 ∧ t.cfgCoding = 0 ∧ t.cfgNref = 0 ∧ t.cfgHarqId = 0 ∧ t.harqViewId = 0
  session : t.sess = Session.zero ∧ t.accCount = 0
  results : t.res = Results.zero ∧ t.resSeq = 0
  store : ∀ h, (t.harq h).nofCb = 0 ∧ ∀ r, ((t.harq h).cb r).alloc = false ∧ ((t.harq h).cb r).flag = false
  ram : ∀ a, memFind t.mem a = none

/-- Fault entry's record, written out (60_exceptions.md R333): cause, command word, information word. -/
def State.faultedWith (s : State) (cause : FaultCause) (w info : Word) : State :=
  { s with faultCause := cause, faultCmd := w, faultInfo := info, fault := true, pending := none }

/-- The segmentation record of the open session (40_commands.md R125). -/
def State.seg (s : State) : Seg := segmentTb (8 * s.sess.tbBytes.toNat) (baseGraphOf s.sess.bg)

/-- The HARQ buffer that the open session borrows (10_state.md R34). -/
def State.borrowed (s : State) : HarqBuf := s.harq s.sess.harqId.toNat

/-- END's checks all pass (40_commands.md R125). -/
def EndChecks (s : State) : Prop :=
  s.phase = .accum ∧
  s.accCount % s.sess.qm.toNat = 0 ∧
  s.accCount % (s.sess.nl.toNat * s.sess.qm.toNat) = 0 ∧
  s.seg.c ≤ s.params.maxCb ∧
  s.seg.c = s.borrowed.nofCb

/-- E_r of the open session (41_segmentation.md R170). -/
def State.spanLen (s : State) (r : Nat) : Nat :=
  rateMatchedLen s.accCount s.seg.c s.sess.nl.toNat s.sess.qm.toNat r

/-- O_r: where codeblock r's span of ACC starts (41_segmentation.md R171). -/
def State.spanStart (s : State) (r : Nat) : Nat := ((List.range r).map s.spanLen).sum

/-- Ncb of the open session (42_rate_dematch.md R190). -/
def State.ncb (s : State) : Nat := circularLen s.seg.n s.sess.nref.toNat

/-- k0 of the open session (42_rate_dematch.md R191). -/
def State.k0 (s : State) : Nat := startPosition s.sess.rv.toNat s.seg.bg s.ncb s.seg.zc

/-- Codeblock r is skipped by END's decode step: retransmission, and its flag is set (43_ldpc_decoder.md R232). -/
def State.skips (s : State) (r : Nat) : Bool := !s.sess.newData && (s.borrowed.cb r).flag

/-- RES_CB[r] (10_state.md R40). -/
def State.resCb (s : State) (r : Nat) : Word := s.res.cb.getD r 0

/-- ITER, [15:0] (10_state.md R40). -/
def iterOf (w : Word) : Nat := (w.extractLsb' 0 16).toNat
/-- ATTEMPTED, [16] (10_state.md R40). -/
def attemptedOf (w : Word) : Bool := w.getLsbD 16
/-- CB_PASS, [17] (10_state.md R40). -/
def cbPassOf (w : Word) : Bool := w.getLsbD 17
/-- FLAG_END, [18] (10_state.md R40). -/
def flagEndOf (w : Word) : Bool := w.getLsbD 18
/-- TB_CRC_OK, RES_SUMMARY[0] (10_state.md R37). -/
def State.tbCrcOk (s : State) : Bool := s.res.summary.getLsbD 0

/-- An access that breaks 20_memory.md R68, by the effective address. -/
def breaksR68 (size : Size) (ea : Nat) : Prop :=
  if ea < 0x01000 then ¬ (size = .four ∧ ea % 4 = 0) else ea % size.bytes ≠ 0

/-- A command word that 30_encoding.md R95 calls illegal: OPC in 0x05..0xFF, or a reserved bit of its format is 1. -/
def illegalWord (w : Word) : Prop :=
  5 ≤ w.toNat / 2 ^ 24 ∨
  ((w.toNat / 2 ^ 24 = 0 ∨ w.toNat / 2 ^ 24 = 2 ∨ w.toNat / 2 ^ 24 = 4) ∧ w.toNat % 2 ^ 24 ≠ 0) ∨
  (w.toNat / 2 ^ 24 = 3 ∧ w.toNat / 2 ^ 13 % 2 ^ 11 ≠ 0)

/-- The index of the first field that BEGIN finds illegal, 0 if there is none (40_commands.md R123): 1 TB_BYTES, 2 BG_SEL, 3 QM, 4 NL,
5 MAX_ITER, 6 HARQ_ID. -/
def firstIllegalField (p : Params) (tbBytes coding : Word) (harqId : BitVec 8) : Nat :=
  if tbBytes.toNat = 0 ∨ p.maxTbBytes < tbBytes.toNat then 1
  else if coding.toNat % 4 ≠ 1 ∧ coding.toNat % 4 ≠ 2 then 2
  else if coding.toNat / 16 % 16 ∉ [1, 2, 4, 6, 8] then 3
  else if coding.toNat / 256 % 8 = 0 ∨ 4 < coding.toNat / 256 % 8 then 4
  else if coding.toNat / 65536 % 256 = 0 then 5
  else if p.numHarq ≤ harqId.toNat then 6
  else 0

end Sys2Proof.Machine
end

