-- ==== Sys2Proof/Certificates/Slice0/Obligations.lean ====
section
/-! DEFINITION. The statements for the provers, in the order of OBLIGATIONS.json. `exec` of a write says what it does when the engine performs
it; that it waits while BUSY = 1 is in `step` (log 16). -/

open Sys2Proof Sys2Proof.Machine

/-! ### Encoding -/

/-- Decoding the encoding of a well-formed instruction gives it back, with every operand at every value (30_encoding.md R92 to R98). -/
def Obligations.DecodeEncodeRoundTrip : Prop :=
  ∀ i : Instr, i.wf = true → decode (encode i) = .ok i

/-- Words and transactions of 30_encoding.md R102 and 95_test_vectors.md V-30, V-45 decode to the instructions the spec names. -/
def Obligations.SpecExamplesDecode : Prop :=
  decodeCommand 0x00000000#32 = .ok .nop ∧
  decodeCommand 0x01030002#32 = .ok (.harqAlloc 3#8 2#16) ∧
  decodeCommand 0x02000000#32 = .ok .beginSession ∧
  decodeCommand 0x03000018#32 = .ok (.push 24#13) ∧
  decodeCommand 0x04000000#32 = .ok .endSession ∧
  decodeTxn (.write .four 0x80034 0x00000000#32) = .cmdWr .four 0#32 ∧
  decodeTxn (.write .four 0x04C 0x12345678#32) = .regWr 0xC#4 .four 0x12345678#32 ∧
  decodeTxn (.read .one 0x01001) = .stageRd 0x001#12 .one ∧
  decodeTxn (.read .four 0x40000) = .tboutRd 0#18 .four

/-- 30_encoding.md R95: an illegal word raises ILLEGAL_CMD with information 0, and every other word is exactly one command's. -/
def Obligations.IllegalWordsFaultOthersAreCommands : Prop :=
  ∀ w : Word,
    (illegalWord w →
      (∀ i, encode i ≠ .command w) ∧
      ∀ s : State, s.pending = some w → s.inputs = [] → s.fault = false →
        step s = .next (s.faultedWith .illegalCmd w 0)) ∧
    (¬ illegalWord w →
      ∃ i, decodeCommand w = .ok i ∧ encode i = .command w ∧ ∀ j, encode j = .command w → j = i)

/-- Every bus transaction belongs to the row of the table that 30_encoding.md R98 gives it, by direction and by the effective address
ADDR mod 2^19 (20_memory.md R61). Data bits above SIZE bytes are dropped (log 13). -/
def Obligations.TransactionsAreClassedByAddress : Prop :=
  ∀ (size : Size) (addr : Nat) (v : Word),
    let ea := addr % 2 ^ 19
    let d := wdataLanes size v
    let wr := decodeTxn (.write size addr v)
    let rd := decodeTxn (.read size addr)
    (ea = 0x034 → wr = .cmdWr size d) ∧
    (ea = 0x020 → wr = .ctrlWr size d) ∧
    (ea = 0x024 → wr = .statusWr size d) ∧
    (0x040 ≤ ea ∧ ea ≤ 0x04F → wr = .regWr (BitVec.ofNat 4 (ea - 0x040)) size d) ∧
    (ea = 0x050 → wr = .regWrView size d) ∧
    (ea < 0x1000 ∧ ea ≠ 0x034 ∧ ea ≠ 0x020 ∧ ea ≠ 0x024 ∧ ¬ (0x040 ≤ ea ∧ ea ≤ 0x050) →
      wr = .regWrIgnored (BitVec.ofNat 12 ea) size d) ∧
    (0x1000 ≤ ea ∧ ea < 0x2000 → wr = .stageWr (BitVec.ofNat 12 (ea - 0x1000)) size d) ∧
    (0x2000 ≤ ea ∧ ea < 0x40000 → wr = .rsvdWr (BitVec.ofNat 18 ea) size d) ∧
    (0x40000 ≤ ea → wr = .tboutWrIgnored (BitVec.ofNat 18 (ea - 0x40000)) size d) ∧
    (ea < 0x1000 → rd = .regRd (BitVec.ofNat 12 ea) size) ∧
    (0x1000 ≤ ea ∧ ea < 0x2000 → rd = .stageRd (BitVec.ofNat 12 (ea - 0x1000)) size) ∧
    (0x2000 ≤ ea ∧ ea < 0x40000 → rd = .rsvdRd (BitVec.ofNat 18 ea) size) ∧
    (0x40000 ≤ ea → rd = .tboutRd (BitVec.ofNat 18 (ea - 0x40000)) size)

/-- A decoded transaction is well formed, and its encoding is the transaction as the engine sees it: the address modulo 2^19, and the low
SIZE bytes of the write data (log 13). -/
def Obligations.DecodedTransactionsReencode : Prop :=
  ∀ t : Txn, (decodeTxn t).wf = true ∧
    encode (decodeTxn t) = .transaction (match t with
      | .read size addr => .read size (addr % 2 ^ 19)
      | .write size addr v => .write size (addr % 2 ^ 19) (wdataLanes size v))

/-! ### The machine's steps -/

/-- A step runs the decoded instruction: an accepted command when nothing is served before it, the next transaction of an idle port, and a read
served while BUSY = 1; `withFetchWord` places an instruction so that the next step runs it. How inputs reach the machine and how a table
word is laid out are the model's (log 1, 2, 3). -/
def Obligations.StepRunsDecodedInstruction : Prop :=
  (∀ (s : State) (w : Word) (i : Instr), s.pending = some w → decodeCommand w = .ok i →
    (s.inputs = [] → step s = exec i s) ∧
    (∀ rest, s.inputs = .lapse :: rest → step s = exec i (s.withInputs rest)) ∧
    (∀ size a v rest, s.inputs = .txn (.write size a v) :: rest → step s = exec i s)) ∧
  (∀ (s : State) (x : Txn) (rest : List HostInput), s.inputs = .txn x :: rest →
    (s.pending = none ∨ x.isRead = true) → step s = exec (decodeTxn x) (s.withInputs rest)) ∧
  (∀ (s : State) (nbits w : Nat) (i : Instr), decodeTableWord nbits w = some i →
    (nbits = 32 → step (s.withFetchWord nbits w) = exec i { s with pending := some (BitVec.ofNat 32 w) }) ∧
    (nbits ≠ 32 → step (s.withFetchWord nbits w) = exec i { s with pending := none }))

/-- The invariant of Safety.lean: parameter ranges, a legal session in ACCUM, counts, LLR ranges, the fault record, reserved fields, and
memory in canonical form with bytes of STAGE and TBOUT only, is kept by every step. -/
def Obligations.StepKeepsInvariant : Prop :=
  ∀ s t : State, s.Inv → step s = .next t → t.Inv

/-- The invariant holds after reset. The parameters and RAM contents it speaks of are the model's (log 6, 7). -/
def Obligations.ResetHasInvariant : Prop := State.reset.Inv

/-- 20_memory.md R71: while BUSY = 1 a write is held and has no effect; when the running command has ended it completes, as if issued
then. -/
def Obligations.WritesAreHeldWhileBusy : Prop :=
  ∀ (s : State) (w : Word) (size : Size) (a : Nat) (v : Word) (rest : List HostInput),
    s.pending = some w → s.inputs = .txn (.write size a v) :: rest →
    ∃ t, step s = .next t ∧ t.busy = false ∧ t.inputs = s.inputs ∧
      step (s.withInputs []) = .next (t.withInputs []) ∧
      step t = exec (decodeTxn (.write size a v)) (t.withInputs rest)

/-- 20_memory.md R72: reads are served while BUSY = 1, before the pending command's step. The named registers and STAGE read as they are, with
STATUS.BUSY = 1; the others and TBOUT read a value of which nothing is known (a draw, log 4). -/
def Obligations.ReadsAreServedWhileBusy : Prop :=
  ∀ (s : State) (w : Word), s.pending = some w →
    (∀ (size : Size) (a : Nat) (rest : List HostInput), s.inputs = .txn (.read size a) :: rest →
      ∃ t, step s = .next t ∧ t = { s with inputs := rest, resp := t.resp, draws := t.draws } ∧ t.pending = some w) ∧
    (∀ (off : BitVec 12) (g : Reg), off.toNat % 4 = 0 → regAt off.toNat = some g →
      (g ∈ [.id, .version, .param0, .param1, .param2, .ctrl, .status, .faultCause, .faultCmd, .faultInfo, .cmd, .cfgTbBytes,
          .cfgCoding, .cfgNref, .cfgHarqId, .harqViewId] →
        exec (.regRd off .four) s = .next { s with resp := .readOk .four (regRead s g) }) ∧
      (g ∉ [.id, .version, .param0, .param1, .param2, .ctrl, .status, .faultCause, .faultCmd, .faultInfo, .cmd, .cfgTbBytes,
          .cfgCoding, .cfgNref, .cfgHarqId, .harqViewId] →
        exec (.regRd off .four) s = .next { s with resp := .readOk .four (Config.busyRead s.draws), draws := s.draws + 1 })) ∧
    (regRead s .status).getLsbD 0 = true ∧
    (∀ (off : BitVec 12) (size : Size), off.toNat % size.bytes = 0 →
      exec (.stageRd off size) s = .next { s with resp := .readOk size (s.readBytes size (0x01000 + off.toNat)) }) ∧
    (∀ (off : BitVec 18) (size : Size), off.toNat % size.bytes = 0 →
      ∃ d, exec (.tboutRd off size) s = .next { s with resp := .readOk size d, draws := s.draws + 1 })

/-- 70_reset_and_hazards.md R380, R382: the hardware reset input resets the engine at any time, also while a command's step runs, which is then
abandoned; what belongs to the host's side stays (log 15). -/
def Obligations.HardwareResetAtAnyTime : Prop :=
  ∀ (s : State) (rest : List HostInput), s.inputs = .reset :: rest →
    ∃ t, step s = .next t ∧ AfterReset s t ∧ t.inputs = rest ∧ t.resp = s.resp

/-- The registers as read from the state right after reset (10_state.md R23 to R41, R380): the identification constants, the default
parameters of 00_scope.md R13 (log 7), and 0 everywhere else. -/
def Obligations.ResetRegisterValues : Prop :=
  AfterReset State.reset State.reset ∧
  (∀ off : BitVec 12, off.toNat % 4 = 0 →
    exec (.regRd off .four) State.reset = .next { State.reset with
      resp := .readOk .four
        (if off.toNat = 0x000 then 0x4C445043#32
         else if off.toNat = 0x004 then 0x00000001#32
         else if off.toNat = 0x008 then 0x00100098#32
         else if off.toNat = 0x00C then 0x00200000#32
         else if off.toNat = 0x010 then 0x00027005#32
         else 0) })

/-! ### Commands -/

/-- 40_commands.md R121: NOP changes nothing, in both phases, and is discarded while faulted; its only word is 0. -/
def Obligations.NopChangesNothing : Prop :=
  (∀ s : State, exec .nop s = .next { s with pending := none }) ∧
  decodeCommand 0 = .ok .nop ∧
  (∀ (w : Word) (s : State), w.toNat / 2 ^ 24 = 0 → w ≠ 0 → s.pending = some w → s.inputs = [] → s.fault = false →
    step s = .next (s.faultedWith .illegalCmd w 0))

/-- 40_commands.md R122: HARQ_ALLOC sizes the buffer and clears every `alloc` and `flag` of it; the arrays keep their contents (log 21),
other buffers and everything else are unchanged. -/
def Obligations.HarqAllocCompletes : Prop :=
  ∀ (hid : BitVec 8) (ncb : BitVec 16) (s : State),
    s.fault = false → s.phase = .idle → hid.toNat < s.params.numHarq → 1 ≤ ncb.toNat → ncb.toNat ≤ s.params.maxCb →
    ∃ t, exec (.harqAlloc hid ncb) s = .next t ∧
      t = { s with hs := t.hs, pending := none } ∧
      (t.harq hid.toNat).nofCb = ncb.toNat ∧
      (∀ r, r < s.params.maxCb →
        ((t.harq hid.toNat).cb r).alloc = false ∧ ((t.harq hid.toNat).cb r).flag = false) ∧
      (∀ r, ((t.harq hid.toNat).cb r).soft = ((s.harq hid.toNat).cb r).soft ∧
        ((t.harq hid.toNat).cb r).msg = ((s.harq hid.toNat).cb r).msg) ∧
      (∀ h, h ≠ hid.toNat → t.harq h = s.harq h)

/-- 40_commands.md R122: HARQ_ALLOC's HARQ_RANGE faults, HID before NCB, with the offending value as information. -/
def Obligations.HarqAllocRangeFaults : Prop :=
  ∀ (hid : BitVec 8) (ncb : BitVec 16) (s : State), s.fault = false → s.phase = .idle →
    (s.params.numHarq ≤ hid.toNat →
      exec (.harqAlloc hid ncb) s = .next (s.faultedWith .harqRange (0x01#8 ++ hid ++ ncb) (hid.setWidth 32))) ∧
    (hid.toNat < s.params.numHarq → (ncb = 0 ∨ s.params.maxCb < ncb.toNat) →
      exec (.harqAlloc hid ncb) s = .next (s.faultedWith .harqRange (0x01#8 ++ hid ++ ncb) (ncb.setWidth 32)))

/-- 40_commands.md R123, 10_state.md R42: with every field legal BEGIN latches the CFG registers into SESS, sets ACC_COUNT to 0 and opens the
session; DONE and everything else stay. -/
def Obligations.BeginLatchesConfiguration : Prop :=
  ∀ s : State, s.fault = false → s.phase = .idle →
    firstIllegalField s.params s.cfgTbBytes s.cfgCoding s.cfgHarqId = 0 →
    exec .beginSession s = .next { s with
      sess :=
        { tbBytes := s.cfgTbBytes
          bg := s.cfgCoding.extractLsb' 0 2
          rv := s.cfgCoding.extractLsb' 2 2
          qm := s.cfgCoding.extractLsb' 4 4
          nl := s.cfgCoding.extractLsb' 8 3
          newData := s.cfgCoding.getLsbD 11
          earlyStop := s.cfgCoding.getLsbD 12
          maxIter := s.cfgCoding.extractLsb' 16 8
          nref := s.cfgNref
          harqId := s.cfgHarqId }
      acc := []
      phase := .accum
      pending := none }

/-- 40_commands.md R123: BEGIN with an illegal field faults with CFG_INVALID, the information being the index of the first illegal field. -/
def Obligations.BeginRejectsIllegalConfiguration : Prop :=
  ∀ s : State, s.fault = false → s.phase = .idle →
    firstIllegalField s.params s.cfgTbBytes s.cfgCoding s.cfgHarqId ≠ 0 →
    exec .beginSession s = .next (s.faultedWith .cfgInvalid 0x02000000#32
      (BitVec.ofNat 32 (firstIllegalField s.params s.cfgTbBytes s.cfgCoding s.cfgHarqId)))

/-- 40_commands.md R124: PUSH appends STAGE bytes 0..LEN-1 to ACC as two's-complement LLRs saturated to ±127, so ACC_COUNT grows by LEN; STAGE
and everything else stay. -/
def Obligations.PushAppendsStagedLlrs : Prop :=
  ∀ (len : BitVec 13) (s : State),
    s.fault = false → s.phase = .accum → len.toNat ≤ 4096 → s.accCount + len.toNat ≤ s.params.maxSoftbits →
    ∃ t, exec (.push len) s = .next t ∧
      t = { s with acc := t.acc, pending := none } ∧
      t.accCount = s.accCount + len.toNat ∧
      (∀ i, i < s.accCount → t.acc.getD i 0 = s.acc.getD i 0) ∧
      (∀ i, i < len.toNat →
        t.acc.getD (s.accCount + i) 0 = max (-127) (min 127 (s.stageByte i).toInt))

/-- 40_commands.md R124: PUSH's faults, PUSH_RANGE before ACC_OVERFLOW. -/
def Obligations.PushRangeAndOverflowFaults : Prop :=
  ∀ (len : BitVec 13) (s : State), s.fault = false → s.phase = .accum →
    (4096 < len.toNat →
      exec (.push len) s = .next (s.faultedWith .pushRange (0x03#8 ++ 0#11 ++ len) (BitVec.ofNat 32 len.toNat))) ∧
    (len.toNat ≤ 4096 → s.params.maxSoftbits < s.accCount + len.toNat →
      exec (.push len) s = .next (s.faultedWith .accOverflow (0x03#8 ++ 0#11 ++ len)
        (BitVec.ofNat 32 (s.accCount + len.toNat))))

/-- 60_exceptions.md R330, code 2: HARQ_ALLOC and BEGIN in ACCUM, PUSH and END in IDLE, fault with SEQ_ERROR and the phase before. -/
def Obligations.CommandsOutOfPhaseFault : Prop :=
  ∀ s : State, s.fault = false →
    (s.phase = .accum →
      (∀ hid ncb, exec (.harqAlloc hid ncb) s = .next (s.faultedWith .seqError (0x01#8 ++ hid ++ ncb) 1)) ∧
      exec .beginSession s = .next (s.faultedWith .seqError 0x02000000#32 1)) ∧
    (s.phase = .idle →
      (∀ len, exec (.push len) s = .next (s.faultedWith .seqError (0x03#8 ++ 0#11 ++ len) 0)) ∧
      exec .endSession s = .next (s.faultedWith .seqError 0x04000000#32 0))

/-- 40_commands.md R125, 60_exceptions.md R338: END's faults in their order, with the information word of each. -/
def Obligations.EndChecksInOrder : Prop :=
  ∀ s : State, s.fault = false → s.phase = .accum →
    let g := s.accCount
    let qm := s.sess.qm.toNat
    let nl := s.sess.nl.toNat
    (g % qm ≠ 0 →
      exec .endSession s = .next (s.faultedWith .softbitsNotMultiple 0x04000000#32 (BitVec.ofNat 32 g))) ∧
    (g % qm = 0 → g % (nl * qm) ≠ 0 →
      exec .endSession s = .next (s.faultedWith .layersNotMultiple 0x04000000#32 (BitVec.ofNat 32 g))) ∧
    (g % qm = 0 → g % (nl * qm) = 0 → s.params.maxCb < s.seg.c →
      exec .endSession s = .next (s.faultedWith .segRange 0x04000000#32 (BitVec.ofNat 32 s.seg.c))) ∧
    (g % qm = 0 → g % (nl * qm) = 0 → s.seg.c ≤ s.params.maxCb → s.seg.c ≠ s.borrowed.nofCb →
      exec .endSession s = .next (s.faultedWith .cbCountMismatch 0x04000000#32
        ((BitVec.ofNat 32 s.borrowed.nofCb <<< 16) ||| BitVec.ofNat 32 s.seg.c)))

/-- 40_commands.md R125: END completes when its checks pass: it closes the session, sets DONE, counts itself, and changes only the borrowed
buffer's codeblocks 0..C-1, TBA, the result registers and TBOUT bytes 0..TB_BYTES-1. -/
def Obligations.EndCompletes : Prop :=
  ∀ s : State, s.fault = false → EndChecks s →
    ∃ t, exec .endSession s = .next t ∧
      t = { s with hs := t.hs, tba := t.tba, mem := t.mem, res := t.res,
                   done := true, resSeq := s.resSeq + 1, acc := [], phase := .idle, pending := none } ∧
      (t.harq s.sess.harqId.toNat).nofCb = s.borrowed.nofCb ∧
      (∀ r, s.seg.c ≤ r → (t.harq s.sess.harqId.toNat).cb r = s.borrowed.cb r) ∧
      (∀ h, h ≠ s.sess.harqId.toNat → t.harq h = s.harq h) ∧
      (∀ a, a < 0x40000 ∨ 0x40000 + s.sess.tbBytes.toNat ≤ a → t.byteAt a = s.byteAt a)

/-- 44_crc_tb_assembly.md R272: TBOUT[i] is the TB bits 8i..8i+7, most significant first, when TB_CRC_OK = 1; no byte changes when it is 0. -/
def Obligations.TboutWrittenOnlyOnPass : Prop :=
  ∀ s t : State, s.fault = false → EndChecks s → exec .endSession s = .next t →
    (t.tbCrcOk = true → ∀ i, i < s.sess.tbBytes.toNat →
      (t.tboutByte i).toNat = ((List.range 8).map fun k => (bitAt t.tba (8 * i + k)).toNat * 2 ^ (7 - k)).sum) ∧
    (t.tbCrcOk = true → ∀ a, a < 0x40000 ∨ 0x40000 + s.sess.tbBytes.toNat ≤ a → t.byteAt a = s.byteAt a) ∧
    (t.tbCrcOk = false → t.mem = s.mem)

/-- 44_crc_tb_assembly.md R273: the TB decision by the CRC-pass flags after the decode steps (CB_PASS of RES_CB) and the TB CRC over
TBA[0..A+24); a mismatch clears every flag, and TBOUT is written exactly when the outcome is 1. -/
def Obligations.TbDecisionTable : Prop :=
  ∀ s t : State, s.fault = false → s.params.Ok → EndChecks s → exec .endSession s = .next t →
    let c := s.seg.c
    let pass := fun r => cbPassOf (t.resCb r)
    let flag := fun r => ((t.harq s.sess.harqId.toNat).cb r).flag
    let crc := crcOk .crc24A ((List.range (8 * s.sess.tbBytes.toNat + 24)).map fun k => bitAt t.tba k)
    let written := t.mem =
      memWriteBytes s.mem 0x40000 ((List.range s.sess.tbBytes.toNat).map fun i => tbByte t.tba i)
    (∀ r, r < c → flagEndOf (t.resCb r) = flag r) ∧
    (c = 1 → t.tbCrcOk = pass 0 ∧ flag 0 = pass 0) ∧
    (1 < c → (∀ r, r < c → pass r = true) → crc = true → t.tbCrcOk = true ∧ ∀ r, r < c → flag r = true) ∧
    (1 < c → (∀ r, r < c → pass r = true) → crc = false → t.tbCrcOk = false ∧ ∀ r, r < c → flag r = false) ∧
    (1 < c → (∃ r, r < c ∧ pass r = false) → t.tbCrcOk = false ∧ ∀ r, r < c → flag r = pass r) ∧
    (t.tbCrcOk = true → written) ∧ (t.tbCrcOk = false → t.mem = s.mem)

/-- 43_ldpc_decoder.md R225, R231, R232, R234, 44_crc_tb_assembly.md R263: END decodes codeblock r unless this is a retransmission and its flag is
set. A skipped one records 0 iterations and keeps its cached message. An attempted one records what `decodeCb` returns on the kernel's decisions for
the decoder input of its combined soft buffer, and message bits 0..K'-1 are the decision returned; the bits past K' stay. -/
def Obligations.EndDecodesOnlyClearFlags : Prop :=
  ∀ s t : State, s.fault = false → s.params.Ok → 1 ≤ s.sess.maxIter.toNat → EndChecks s →
    exec .endSession s = .next t → ∀ r, r < s.seg.c →
      attemptedOf (t.resCb r) = !s.skips r ∧
      (s.skips r = true → iterOf (t.resCb r) = 0 ∧ cbPassOf (t.resCb r) = true ∧
        ((s.borrowed.cb r).alloc = true →
          ((t.harq s.sess.harqId.toNat).cb r).msg = (s.borrowed.cb r).msg)) ∧
      (s.skips r = false →
        let b := (t.harq s.sess.harqId.toNat).cb r
        let lam := (List.range (ncol s.seg.bg * s.seg.zc)).map fun n =>
          if n < 2 * s.seg.zc then 0
          else if n - 2 * s.seg.zc < s.ncb ∨ (s.seg.kPrime ≤ n ∧ n < s.seg.k) then softAt b.soft (n - 2 * s.seg.zc)
          else 0
        let decisions := runKernel s.params.kernel s.params.shifts
          { lam := lam, bg := s.seg.bg, zc := s.seg.zc, iLS := s.seg.iLS, kPrime := s.seg.kPrime, maxIter := s.sess.maxIter.toNat }
        let poly := if 1 < s.seg.c then Crc.crc24B else if 3824 < s.seg.a then Crc.crc24A else Crc.crc16
        let d := decodeCb s.sess.earlyStop poly s.sess.maxIter.toNat decisions
        cbPassOf (t.resCb r) = d.pass ∧ iterOf (t.resCb r) = d.iter ∧ d.bits.length = s.seg.kPrime ∧
        (∀ k, k < s.seg.kPrime → bitAt b.msg k = d.bits.getD k false) ∧
        (∀ k, s.seg.kPrime ≤ k → bitAt b.msg k = ((s.borrowed.cb r).alloc && bitAt (s.borrowed.cb r).msg k)) ∧
        1 ≤ iterOf (t.resCb r) ∧ iterOf (t.resCb r) ≤ s.sess.maxIter.toNat ∧
        (cbPassOf (t.resCb r) = false ∨ s.sess.earlyStop = false → iterOf (t.resCb r) = s.sess.maxIter.toNat))

/-- 42_rate_dematch.md R197, with R194, R196: every codeblock's soft buffer after END is the dematch of its span of ACC combined into its old
contents (zero on first use), whatever its CRC-pass flag is. -/
def Obligations.CombiningIsUnconditional : Prop :=
  ∀ s t : State, s.fault = false → EndChecks s → exec .endSession s = .next t →
    ∀ r, r < s.seg.c →
      ((t.harq s.sess.harqId.toNat).cb r).alloc = true ∧
      ((t.harq s.sess.harqId.toNat).cb r).soft =
        rateDematch s.sess.newData s.sess.qm.toNat s.seg s.ncb s.k0
          ((s.acc.drop (s.spanStart r)).take (s.spanLen r))
          (if (s.borrowed.cb r).alloc then (s.borrowed.cb r).soft else softZero)

/-- 44_crc_tb_assembly.md R274, R275: the aggregate statistics are those of the attempted codeblocks of RES_CB, and the segmentation results are the
values END used. -/
def Obligations.ReportAggregatesRecords : Prop :=
  ∀ s t : State, s.fault = false → s.params.Ok → EndChecks s → exec .endSession s = .next t →
    let tried := (List.range s.seg.c).filter fun r => attemptedOf (t.resCb r)
    t.res.nofDecoded = BitVec.ofNat 32 tried.length ∧
    t.res.iterSum = BitVec.ofNat 32 (tried.map fun r => iterOf (t.resCb r)).sum ∧
    (∀ r ∈ tried, t.res.iterMin.toNat ≤ iterOf (t.resCb r) ∧ iterOf (t.resCb r) ≤ t.res.iterMax.toNat) ∧
    (tried = [] → t.res.iterMin = 0 ∧ t.res.iterMax = 0) ∧
    (tried ≠ [] → (∃ r ∈ tried, iterOf (t.resCb r) = t.res.iterMin.toNat) ∧
      ∃ r ∈ tried, iterOf (t.resCb r) = t.res.iterMax.toNat) ∧
    t.res.summary.getLsbD 1 = true ∧ t.res.summary.toNat / 2 ^ 16 = s.seg.c ∧
    t.res.g = BitVec.ofNat 32 s.accCount ∧ t.res.zc = BitVec.ofNat 32 s.seg.zc ∧
    t.res.kPrime = BitVec.ofNat 32 s.seg.kPrime ∧ t.res.filler = BitVec.ofNat 32 s.seg.f ∧
    t.res.ncb = BitVec.ofNat 32 s.ncb ∧ t.res.k0 = BitVec.ofNat 32 s.k0 ∧
    (∀ r, r < s.seg.c → t.res.cbE.getD r 0 = BitVec.ofNat 32 (s.spanLen r)) ∧
    (∀ r, s.seg.c ≤ r → t.resCb r = 0 ∧ t.res.cbE.getD r 0 = 0)

/-- 40_commands.md R128: an END with new data gives the same results, TBOUT, flags, soft buffers and message bits whatever the HARQ store held
before, when the borrowed buffer is sized alike. -/
def Obligations.NewDataForgetsHistory : Prop :=
  ∀ (s t t' : State) (store : Sparse HarqBuf),
    s.fault = false → s.sess.newData = true → s.sess.Legal s.params → EndChecks s →
    ({ s with hs := store }.borrowed).nofCb = s.borrowed.nofCb →
    exec .endSession s = .next t → exec .endSession { s with hs := store } = .next t' →
    t'.res = t.res ∧ t'.mem = t.mem ∧
    ∀ r, r < s.seg.c →
      let b := (t.harq s.sess.harqId.toNat).cb r
      let b' := (t'.harq s.sess.harqId.toNat).cb r
      b'.flag = b.flag ∧ b'.soft = b.soft ∧ ∀ k, k < s.seg.kPrime → bitAt b'.msg k = bitAt b.msg k

/-- 10_state.md R42: PUSH and END read only SESS, never the CFG registers: with other CFG contents they do the same. -/
def Obligations.OpenSessionIgnoresCfg : Prop :=
  ∀ (s t : State) (tb coding nref : Word) (hid : BitVec 8) (i : Instr), (i = .endSession ∨ ∃ len, i = .push len) →
    exec i s = .next t →
    exec i { s with cfgTbBytes := tb, cfgCoding := coding, cfgNref := nref, cfgHarqId := hid } =
      .next { t with cfgTbBytes := tb, cfgCoding := coding, cfgNref := nref, cfgHarqId := hid }

/-- 40_commands.md R127: pushing m LLRs and then n from a rewritten STAGE leaves the same ACC as pushing the m + n LLRs at once. -/
def Obligations.ChunkingInvariance : Prop :=
  ∀ (first second whole : State) (m n k : BitVec 13),
    k.toNat = m.toNat + n.toNat → k.toNat ≤ 4096 →
    first.fault = false → second.fault = false → whole.fault = false →
    first.phase = .accum → second.phase = .accum → whole.phase = .accum →
    first.params = second.params → first.params = whole.params →
    first.acc = whole.acc → whole.accCount + k.toNat ≤ whole.params.maxSoftbits →
    (∀ i, i < m.toNat → whole.stageByte i = first.stageByte i) →
    (∀ i, i < n.toNat → whole.stageByte (m.toNat + i) = second.stageByte i) →
    ∃ t u v, exec (.push m) first = .next t ∧ exec (.push k) whole = .next v ∧
      (second.acc = t.acc → exec (.push n) second = .next u ∧ u.acc = v.acc)

/-! ### Faults and reset, over every step -/

/-- 60_exceptions.md R334: a command that faults has no effect but fault entry. -/
def Obligations.FaultsArePrecise : Prop :=
  ∀ s t : State, step s = .next t → s.fault = false → t.fault = true →
    ∃ w cause info, s.pending = some w ∧ cause ≠ FaultCause.none ∧
      t = (s.withInputs t.inputs).faultedWith cause w info

/-- 60_exceptions.md R336: while FAULT = 1 a CMD write is accepted on the bus and discarded, no command runs, and no further fault is recorded
until a reset. -/
def Obligations.CommandsDiscardedWhileFaulted : Prop :=
  ∀ s : State, s.fault = true →
    (∀ w, exec (.cmdWr .four w) s = .next { s with resp := .writeOk }) ∧
    (∀ i w, encode i = .command w → exec i s = .next { s with pending := none }) ∧
    (∀ t, step s = .next t → AfterReset s t ∨
      (t.fault = true ∧ t.faultCause = s.faultCause ∧ t.faultCmd = s.faultCmd ∧ t.faultInfo = s.faultInfo))

/-- 60_exceptions.md R343: only the hardware reset input and a CTRL write with bit 0 = 1 clear FAULT, each does, and either reset is
complete. -/
def Obligations.OnlyResetClearsFault : Prop :=
  (∀ s t : State, step s = .next t → s.fault = true → t.fault = false →
    AfterReset s t ∧
    ((∃ rest, s.inputs = .reset :: rest) ∨
     ∃ addr v rest, s.inputs = .txn (.write .four addr v) :: rest ∧ addr % 2 ^ 19 = 0x020 ∧ v.getLsbD 0 = true)) ∧
  (∀ (s : State) (rest : List HostInput),
    (s.inputs = .reset :: rest ∨
      (s.pending = none ∧
        ∃ addr v, s.inputs = .txn (.write .four addr v) :: rest ∧ addr % 2 ^ 19 = 0x020 ∧ v.getLsbD 0 = true)) →
    ∃ t, step s = .next t ∧ AfterReset s t)

/-- 10_state.md R22: over every step, only BEGIN, END and a reset change PHASE, and a faulting command leaves it; BEGIN and END without a fault
make their transition, a reset gives IDLE, and NOP, HARQ_ALLOC and PUSH leave PHASE as it is. -/
def Obligations.PhaseTransitions : Prop :=
  (∀ s t : State, step s = .next t →
    (t.phase ≠ s.phase →
      (s.phase = .idle ∧ t.phase = .accum ∧ s.pending = some 0x02000000#32) ∨
      (s.phase = .accum ∧ t.phase = .idle ∧ s.pending = some 0x04000000#32) ∨
      AfterReset s t) ∧
    (s.fault = false → t.fault = true → t.phase = s.phase)) ∧
  (∀ s t : State, s.fault = false → t.fault = false →
    (exec .beginSession s = .next t → s.phase = .idle ∧ t.phase = .accum) ∧
    (exec .endSession s = .next t → s.phase = .accum ∧ t.phase = .idle)) ∧
  (∀ s t : State, AfterReset s t → t.phase = .idle) ∧
  (∀ s t : State, (exec .nop s = .next t ∨ (∃ hid ncb, exec (.harqAlloc hid ncb) s = .next t) ∨
    ∃ len, exec (.push len) s = .next t) → t.phase = s.phase)

/-- 10_state.md R30, R54: RES_SEQ and DONE. RES_SEQ changes only when an END completes, by one, or at reset; DONE becomes 1 only then, and
becomes 0 only by a STATUS write with bit 1 = 1 or a reset. -/
def Obligations.EachEndReportsOnce : Prop :=
  ∀ s t : State, step s = .next t →
    (t.resSeq ≠ s.resSeq →
      (t.resSeq = s.resSeq + 1 ∧ t.done = true ∧ s.pending = some 0x04000000#32 ∧ s.phase = .accum ∧ t.phase = .idle) ∨
      AfterReset s t) ∧
    (s.done = false → t.done = true → s.pending = some 0x04000000#32 ∧ t.resSeq = s.resSeq + 1) ∧
    (s.done = true → t.done = false →
      AfterReset s t ∨
      ∃ size addr v rest, s.inputs = .txn (.write size addr v) :: rest ∧ addr % 2 ^ 19 = 0x024 ∧ v.getLsbD 1 = true)

/-- 10_state.md R49: a CRC-pass flag is set only by an END on its buffer, and cleared only by HARQ_ALLOC of that buffer, an END on it, or a
reset. -/
def Obligations.CrcFlagsChangeOnlyAsStated : Prop :=
  ∀ s t : State, step s = .next t → ∀ h r,
    (((s.harq h).cb r).flag = false → ((t.harq h).cb r).flag = true →
      s.pending = some 0x04000000#32 ∧ s.phase = .accum ∧ h = s.sess.harqId.toNat ∧ r < s.seg.c) ∧
    (((s.harq h).cb r).flag = true → ((t.harq h).cb r).flag = false →
      (s.pending = some 0x04000000#32 ∧ s.phase = .accum ∧ h = s.sess.harqId.toNat ∧ r < s.seg.c) ∨
      (∃ w, s.pending = some w ∧ w.toNat / 2 ^ 24 = 1 ∧ w.toNat / 2 ^ 16 % 2 ^ 8 = h) ∨
      AfterReset s t)

/-! ### Segmentation, dematching, decoding, CRCs -/

/-- 41_segmentation.md R161 to R169: the segmentation record of every transport block an engine may take, by the spec's formulas, with Zc the least
lifting size that is large enough, and the invariants of R169; END uses that of the open session (R160). -/
def Obligations.SegmentationInvariants : Prop :=
  (∀ (n : Nat) (bg : BaseGraph), 1 ≤ n → n ≤ 262144 →
    let g := segmentTb (8 * n) bg
    let ltb := if 3824 < 8 * n then 24 else 16
    let kcb := match bg with | .bg1 => 8448 | .bg2 => 3840
    g.a = 8 * n ∧ g.bg = bg ∧ g.b = 8 * n + ltb ∧
    g.l = (if g.b ≤ kcb then 0 else 24) ∧
    g.c = (if g.b ≤ kcb then 1 else (g.b + (kcb - 24) - 1) / (kcb - 24)) ∧
    g.bPrime = (if g.b ≤ kcb then g.b else g.b + g.c * 24) ∧
    g.kPrime = (g.bPrime + g.c - 1) / g.c ∧
    g.kb = (match bg with
      | .bg1 => 22
      | .bg2 => if 640 < g.b then 10 else if 560 < g.b then 9 else if 192 < g.b then 8 else 6) ∧
    g.k = (match bg with | .bg1 => 22 | .bg2 => 10) * g.zc ∧
    g.n = (match bg with | .bg1 => 66 | .bg2 => 50) * g.zc ∧
    g.lcb = (if g.c = 1 then ltb else 24) ∧ g.d = g.kPrime - g.lcb ∧
    1 ≤ g.c ∧ g.b ≤ g.c * (g.kPrime - g.l) ∧
    24 ≤ g.kPrime ∧ g.kPrime ≤ kcbOf bg ∧ g.kPrime ≤ g.kb * g.zc ∧
    g.kPrime + g.f = g.k ∧ g.f < g.k ∧ 2 * g.zc + 1 ≤ g.kPrime ∧ 8 ≤ g.d ∧
    g.zc ∈ liftingSets.flatten ∧ (∀ z ∈ liftingSets.flatten, g.kPrime ≤ g.kb * z → g.zc ≤ z) ∧
    g.zc ∈ liftingSets.getD g.iLS []) ∧
  liftingSets =
    [[2, 4, 8, 16, 32, 64, 128, 256], [3, 6, 12, 24, 48, 96, 192, 384], [5, 10, 20, 40, 80, 160, 320], [7, 14, 28, 56, 112, 224],
     [9, 18, 36, 72, 144, 288], [11, 22, 44, 88, 176, 352], [13, 26, 52, 104, 208], [15, 30, 60, 120, 240]] ∧
  (segmentTb 1277992 .bg1).c = 152 ∧ (segmentTb 1277992 .bg2).c = 335 ∧
  ∀ s : State, s.seg = segmentTb (8 * s.sess.tbBytes.toNat) (if s.sess.bg = 1#2 then .bg1 else .bg2)

/-- 41_segmentation.md R170, R171: with q = G / (NL·QM), the first C - q mod C spans have NL·QM·(q / C) LLRs and the others NL·QM·⌈q / C⌉.
They are disjoint and cover the LLRs exactly, in codeblock order; each length is a multiple of NL·QM, and may be 0 when there are too few LLRs. -/
def Obligations.SpansPartitionTheLlrs : Prop :=
  ∀ (acc : List Int) (c nl qm : Nat), 1 ≤ c → 1 ≤ nl → 1 ≤ qm → acc.length % (nl * qm) = 0 →
    let e := rateMatchedLen acc.length c nl qm
    let o := fun r => ((List.range r).map e).sum
    let q := acc.length / (nl * qm)
    (∀ r, r < c - q % c → e r = nl * qm * (q / c)) ∧
    (∀ r, c - q % c ≤ r → r < c → e r = nl * qm * ((q + c - 1) / c)) ∧
    (List.range c).flatMap (fun r => (acc.drop (o r)).take (e r)) = acc ∧
    o c = acc.length ∧ o 0 = 0 ∧ (∀ r, o (r + 1) = o r + e r) ∧
    (∀ r, r < c → e r % (nl * qm) = 0) ∧
    (acc.length < c * (nl * qm) → ∃ r, r < c ∧ e r = 0)

/-- 42_rate_dematch.md R190, R191: Ncb is N, or N limited by NREF when that is not 0, and at least 1; k0 = (num·Ncb) div (den·Zc)·Zc with the
table's numbers, a multiple of Zc less than Ncb, and 0 for RV 0; and these are the open session's Ncb and k0. -/
def Obligations.StartPositionInBuffer : Prop :=
  (∀ n nref : Nat, 1 ≤ n → 1 ≤ circularLen n nref ∧
    (nref = 0 → circularLen n nref = n) ∧ (nref ≠ 0 → circularLen n nref = min n nref)) ∧
  (∀ (rv : Nat) (bg : BaseGraph) (ncb zc : Nat), rv < 4 → 1 ≤ ncb → 1 ≤ zc →
    let k0 := startPosition rv bg ncb zc
    (bg = .bg1 → k0 = (if rv = 0 then 0 else if rv = 1 then 17 else if rv = 2 then 33 else 56) * ncb / (66 * zc) * zc) ∧
    (bg = .bg2 → k0 = (if rv = 0 then 0 else if rv = 1 then 13 else if rv = 2 then 25 else 43) * ncb / (50 * zc) * zc) ∧
    k0 % zc = 0 ∧ k0 < ncb ∧ startPosition 0 bg ncb zc = 0) ∧
  (∀ s : State, s.ncb = circularLen s.seg.n s.sess.nref.toNat ∧
    s.k0 = startPosition s.sess.rv.toNat (if s.sess.bg = 1#2 then .bg1 else .bg2) s.ncb s.seg.zc)

/-- 42_rate_dematch.md R192: deinterleaving puts f[i + j·QM] at i·R + j, which inverts the interleaver; with QM = 1 it is the identity. -/
def Obligations.DeinterleaveInvertsInterleaver : Prop :=
  ∀ (f : List Int) (qm : Nat), 1 ≤ qm → f.length % qm = 0 →
    (deinterleave f qm).length = f.length ∧
    (∀ i j, i < qm → j < f.length / qm →
      (deinterleave f qm).getD (i * (f.length / qm) + j) 0 = f.getD (i + j * qm) 0) ∧
    (qm = 1 → deinterleave f qm = f)

/-- 42_rate_dematch.md R192, R193, R194: dematching clears the buffer on new data, deinterleaves the span and combines it: each position that is no
filler then holds the left-to-right saturated sum of what it held and the deinterleaved LLRs that fall on it, where the k-th falls on the k-th
position from k0, counted modulo Ncb, that is no filler. The walk never runs short of positions. -/
def Obligations.DematchIsSaturatedSum : Prop :=
  ∀ (seg : Seg) (ncb k0 : Nat), 1 ≤ ncb → isFiller seg 0 = false →
    let places := fun len =>
      ((List.range (walkBound ncb len)).map fun j => (k0 + j) % ncb).filter fun p => !isFiller seg p
    let combine := fun (e : List Int) (p : Nat) (v : Int) =>
      ((places e.length).zip e).foldl (fun v qx => if qx.1 = p then max (-127) (min 127 (v + qx.2)) else v) v
    (∀ p, isFiller seg p = true ↔ seg.kPrime ≤ p + 2 * seg.zc ∧ p + 2 * seg.zc < seg.k) ∧
    (∀ (e : List Int) (buf : Sparse Int),
      e.length ≤ (places e.length).length ∧
      ∀ p, softAt (dematchWalk seg ncb k0 (walkBound ncb e.length) 0 e buf) p = combine e p (softAt buf p)) ∧
    (2 * seg.zc ≤ seg.kPrime → seg.kPrime + seg.f = seg.k →
      ∀ (newData : Bool) (qm : Nat) (f : List Int) (buf : Sparse Int) (p : Nat), isFiller seg p = false →
        softAt (rateDematch newData qm seg ncb k0 f buf) p =
          combine (deinterleave f qm) p (if newData then 0 else softAt buf p))

/-- 42_rate_dematch.md R195, R198: after dematching every filler position holds 127, and a position past Ncb that is no filler keeps its value, or is
0 on new data. -/
def Obligations.FillersAndUnreachedPositions : Prop :=
  ∀ (newData : Bool) (qm : Nat) (seg : Seg) (ncb k0 : Nat) (f : List Int) (buf : Sparse Int),
    1 ≤ ncb → 2 * seg.zc ≤ seg.kPrime → seg.kPrime + seg.f = seg.k →
    (∀ p, isFiller seg p = true → softAt (rateDematch newData qm seg ncb k0 f buf) p = 127) ∧
    (∀ p, isFiller seg p = false → ncb ≤ p →
      softAt (rateDematch newData qm seg ncb k0 f buf) p = if newData then 0 else softAt buf p)

/-- 43_ldpc_decoder.md R230: the control every kernel shares. With early stop the first passing decision ends the attempt and its number is the
count; without it the last decision is checked once; a failure costs the whole budget. -/
def Obligations.DecodeControl : Prop :=
  ∀ (p : Crc) (maxIter : Nat) (ds : List (List Bool)), ds.length = maxIter → 1 ≤ maxIter →
    (∀ n, 1 ≤ n → n ≤ maxIter → crcOk p (ds.getD (n - 1) []) = true →
      (∀ u, 1 ≤ u → u < n → crcOk p (ds.getD (u - 1) []) = false) →
      decodeCb true p maxIter ds = { bits := ds.getD (n - 1) [], iter := n, pass := true }) ∧
    ((∀ u, 1 ≤ u → u ≤ maxIter → crcOk p (ds.getD (u - 1) []) = false) →
      decodeCb true p maxIter ds = { bits := ds.getD (maxIter - 1) [], iter := maxIter, pass := false }) ∧
    decodeCb false p maxIter ds =
      { bits := ds.getD (maxIter - 1) [], iter := maxIter, pass := crcOk p (ds.getD (maxIter - 1) []) }

/-- 43_ldpc_decoder.md R235: with the reference kernel a non-negative input decodes to zeros at iteration 1, whatever BG_SHIFT is; zeros pass every
CRC; so with early stop the attempt passes with count 1. -/
def Obligations.NonNegativeInputDecodesToZeros : Prop :=
  ∀ (src : ShiftSource) (inp : KernelIn) (p : Crc), (∀ v ∈ inp.lam, 0 ≤ v) → 1 ≤ inp.maxIter →
    (∀ v ∈ (iterateRows inp.zc (codeRows src inp) inp.lam (initScratch (codeRows src inp) inp).msgs).post, 0 ≤ v) ∧
    (referenceKernel src inp).head? = some (List.replicate inp.kPrime false) ∧
    (∀ n, crcOk p (List.replicate n false) = true) ∧
    decodeCb true p inp.maxIter (referenceKernel src inp) =
      { bits := List.replicate inp.kPrime false, iter := 1, pass := true }

/-- 43_ldpc_decoder.md R223, R227, R228: the variables of a check, in rising order; the checks of one base row involve pairwise disjoint variables,
whatever BG_SHIFT is; the check-node function; and one check's update of the posteriors and its messages. -/
def Obligations.ChecksOfARowAreDisjoint : Prop :=
  (∀ (src : ShiftSource) (bg : BaseGraph) (zc iLS i z z' : Nat), z < zc → z' < zc → z ≠ z' →
    ∀ n ∈ checkVars (rowBlocks src bg zc iLS i) zc z, n ∉ checkVars (rowBlocks src bg zc iLS i) zc z') ∧
  (∀ (src : ShiftSource) (bg : BaseGraph) (zc iLS i z : Nat), z < zc →
    (checkVars (rowBlocks src bg zc iLS i) zc z).Pairwise (fun m n => m < n) ∧
    ∀ n, n ∈ checkVars (rowBlocks src bg zc iLS i) zc z ↔
      ∃ j vs, j < ncol bg ∧ shiftsAt src bg i j = some vs ∧
        n = j * zc + (z + vs.getD iLS 0 % zc) % zc) ∧
  (∀ q : List Int, (checkNode q).length = q.length ∧ (q.length = 1 → checkNode q = [0]) ∧
    ∀ e, e < q.length →
      let others := ((List.range q.length).filter fun t => decide (t ≠ e)).map fun t => q.getD t 0
      ∀ m ∈ others.map Int.natAbs, (∀ x ∈ others, m ≤ x.natAbs) →
        (checkNode q).getD e 0 =
          (if (others.filter fun x => decide (x < 0)).length % 2 = 1 then -1 else 1) * ((3 * m / 4 : Nat) : Int)) ∧
  (∀ (post : List Int) (vars : List Nat) (msgs : List Int), vars.Nodup → (∀ n ∈ vars, n < post.length) →
    msgs.length = vars.length →
      let q := (List.range vars.length).map fun t => max (-127) (min 127 (post.getD (vars.getD t 0) 0 - msgs.getD t 0))
      let u := checkUpdate post vars msgs
      u.2 = checkNode q ∧ u.1.length = post.length ∧
      (∀ t, t < vars.length →
        u.1.getD (vars.getD t 0) 0 = max (-127) (min 127 (q.getD t 0 + (checkNode q).getD t 0))) ∧
      ∀ n, n ∉ vars → u.1.getD n 0 = post.getD n 0)

/-- 44_crc_tb_assembly.md R262: CrcOk compares the CRC of all but the last Lp bits with those bits read most significant first; it holds
exactly when the CRC of the whole sequence is 0. And every kernel's decisions, to which it is applied, are K'
bits. -/
def Obligations.CrcOkIsZeroRemainder : Prop :=
  (∀ (p : Crc) (x : List Bool), crcLen p ≤ x.length →
    let n := x.length - crcLen p
    (crcOk p x = true ↔ (crcOf p (x.take n)).toNat =
      ((List.range (crcLen p)).map fun k => (x.getD (n + k) false).toNat * 2 ^ (crcLen p - 1 - k)).sum) ∧
    (crcOk p x = true ↔ crcOf p x = 0)) ∧
  (∀ (k : Kernel) (src : ShiftSource) (inp : KernelIn), ∀ d ∈ runKernel k src inp, d.length = inp.kPrime)

/-- 44_crc_tb_assembly.md R260, R261: Crc(a, poly) is the remainder of a(D)·D^Lp divided by g(D) over GF(2), a[0] the highest power, for the three
generators g and their lengths Lp. -/
def Obligations.CrcIsPolynomialRemainder : Prop :=
  ∀ (p : Crc) (a : List Bool),
    let poly : List Bool → Polynomial (ZMod 2) :=
      fun bits => bits.foldl (fun q b => q * Polynomial.X + Polynomial.C (if b then 1 else 0)) 0
    let ofReg : BitVec (crcLen p) → Polynomial (ZMod 2) :=
      fun v => ((List.range (crcLen p)).map fun i =>
        Polynomial.C (if v.getLsbD i then (1 : ZMod 2) else 0) * Polynomial.X ^ i).sum
    let ofPowers : List Nat → Polynomial (ZMod 2) := fun ks => (ks.map fun k => Polynomial.X ^ k).sum
    let g := ofPowers (match p with
      | .crc24A => [24, 23, 18, 17, 14, 11, 10, 7, 6, 5, 4, 3, 1, 0]
      | .crc24B => [24, 23, 6, 5, 1, 0]
      | .crc16 => [16, 12, 5, 0])
    crcLen p = (match p with | .crc24A => 24 | .crc24B => 24 | .crc16 => 16) ∧
    ofReg (crcOf p a) = (poly a * Polynomial.X ^ crcLen p) %ₘ g

/-! ### Bus transactions -/

/-- 20_memory.md R68, R69: an access that breaks the size and alignment rule is answered with a bus error and changes no state; no other access is
(log 22). The answer stands in `resp` (log 14). -/
def Obligations.IllegalAccessesAreRefused : Prop :=
  ∀ (size : Size) (addr : Nat) (v : Word) (s : State),
    (breaksR68 size (addr % 2 ^ 19) →
      exec (decodeTxn (.read size addr)) s = .next { s with resp := .readErr size } ∧
      exec (decodeTxn (.write size addr v)) s = .next { s with resp := .writeErr }) ∧
    (¬ breaksR68 size (addr % 2 ^ 19) →
      (∃ t d, exec (decodeTxn (.read size addr)) s = .next t ∧ t.resp = .readOk size d) ∧
      (∃ t, exec (decodeTxn (.write size addr v)) s = .next t ∧ t.resp = .writeOk))

/-- 45_register_access.md R301, 10_state.md R23 to R41: what a register read returns, by address, while BUSY = 0. CTRL, STATUS and FAULT_CAUSE are
written out (R25, R26, 60_exceptions.md R330). CMD and words with no register read 0. -/
def Obligations.RegisterReadsByAddress : Prop :=
  ∀ (s : State) (off : BitVec 12), s.pending = none → off.toNat % 4 = 0 →
    let a := off.toNat
    let d : Word :=
      if a = 0x000 then 0x4C445043#32
      else if a = 0x004 then 0x00000001#32
      else if a = 0x008 then BitVec.ofNat 16 s.params.numHarq ++ BitVec.ofNat 16 s.params.maxCb
      else if a = 0x00C then BitVec.ofNat 32 s.params.maxSoftbits
      else if a = 0x010 then BitVec.ofNat 32 s.params.maxTbBytes
      else if a = 0x020 then BitVec.ofNat 32 (2 * s.ieDone.toNat + 4 * s.ieFault.toNat)
      else if a = 0x024 then BitVec.ofNat 32 (2 * s.done.toNat + 4 * s.fault.toNat +
        8 * ((s.done && s.ieDone) || (s.fault && s.ieFault)).toNat + 16 * (match s.phase with | .idle => 0 | .accum => 1))
      else if a = 0x028 then (match s.faultCause with
        | .none => 0 | .illegalCmd => 1 | .seqError => 2 | .cfgInvalid => 3 | .harqRange => 4 | .pushRange => 5
        | .accOverflow => 6 | .softbitsNotMultiple => 7 | .layersNotMultiple => 8 | .segRange => 9 | .cbCountMismatch => 10)
      else if a = 0x02C then s.faultCmd
      else if a = 0x030 then s.faultInfo
      else if a = 0x038 then BitVec.ofNat 32 s.acc.length
      else if a = 0x03C then s.resSeq
      else if a = 0x040 then s.cfgTbBytes
      else if a = 0x044 then s.cfgCoding
      else if a = 0x048 then s.cfgNref
      else if a = 0x04C then BitVec.ofNat 32 s.cfgHarqId.toNat
      else if a = 0x050 then BitVec.ofNat 32 s.harqViewId.toNat
      else if a = 0x054 then
        (if s.harqViewId.toNat < s.params.numHarq then BitVec.ofNat 32 (s.harq s.harqViewId.toNat).nofCb else 0)
      else if a = 0x060 then s.res.summary
      else if a = 0x064 then s.res.nofDecoded
      else if a = 0x068 then s.res.iterSum
      else if a = 0x06C then s.res.iterMin
      else if a = 0x070 then s.res.iterMax
      else if a = 0x074 then s.res.g
      else if a = 0x078 then s.res.zc
      else if a = 0x07C then s.res.kPrime
      else if a = 0x080 then s.res.filler
      else if a = 0x084 then s.res.ncb
      else if a = 0x088 then s.res.k0
      else if 0x100 ≤ a ∧ a ≤ 0x4FF then
        (if (a - 0x100) / 4 < s.params.maxCb then s.resCb ((a - 0x100) / 4) else 0)
      else if 0x500 ≤ a ∧ a ≤ 0x8FF then s.res.cbE.getD ((a - 0x500) / 4) 0
      else if 0x900 ≤ a ∧ a ≤ 0x91F then viewFlagsWord s ((a - 0x900) / 4)
      else 0
    exec (.regRd off .four) s = .next { s with resp := .readOk .four d }

/-- 10_state.md R26, 60_exceptions.md R345: the bits of STATUS, the interrupt level among them, at every time. -/
def Obligations.StatusBits : Prop :=
  ∀ s : State, ∃ d, exec (.regRd 0x024#12 .four) s = .next { s with resp := .readOk .four d } ∧
    d.getLsbD 0 = s.busy ∧ d.getLsbD 1 = s.done ∧ d.getLsbD 2 = s.fault ∧
    d.getLsbD 3 = ((s.done && s.ieDone) || (s.fault && s.ieFault)) ∧
    (d.extractLsb' 4 2).toNat = (match s.phase with | .idle => 0 | .accum => 1) ∧
    d.extractLsb' 6 26 = 0

/-- 10_state.md R36: bit b of HARQ_VIEW_FLAGS[w] shows the CRC-pass flag of codeblock 32w + b of the viewed buffer, 0 out of range. -/
def Obligations.HarqViewShowsFlags : Prop :=
  ∀ (s : State) (w b : Nat), s.pending = none → w < 8 → b < 32 →
    ∃ d, exec (.regRd (BitVec.ofNat 12 (0x900 + 4 * w)) .four) s = .next { s with resp := .readOk .four d } ∧
      (d.getLsbD b = true ↔
        s.harqViewId.toNat < s.params.numHarq ∧ 32 * w + b < s.params.maxCb ∧
        ((s.harq s.harqViewId.toNat).cb (32 * w + b)).flag = true)

/-- 45_register_access.md R303, 40_commands.md R120: a CMD write while FAULT = 0 is accepted: BUSY is 1 and the command's step is next (log 3); nothing
else changes. -/
def Obligations.CmdWriteAcceptsCommand : Prop :=
  ∀ (w : Word) (s : State), s.fault = false →
    exec (.cmdWr .four w) s = .next { s with pending := some w, resp := .writeOk }

/-- 45_register_access.md R304: a CTRL write with bit 0 = 0 sets the interrupt enables; with bit 0 = 1 it resets the engine and keeps no enable. -/
def Obligations.CtrlWriteEnablesOrResets : Prop :=
  ∀ (v : Word) (s : State),
    (v.getLsbD 0 = false →
      exec (.ctrlWr .four v) s =
        .next { s with ieDone := v.getLsbD 1, ieFault := v.getLsbD 2, resp := .writeOk }) ∧
    (v.getLsbD 0 = true →
      ∃ t, exec (.ctrlWr .four v) s = .next t ∧ AfterReset s t ∧ t.resp = .writeOk ∧ t.inputs = s.inputs)

/-- 45_register_access.md R305: a STATUS write clears DONE when bit 1 is 1, and changes nothing otherwise; FAULT cannot be cleared this way. -/
def Obligations.StatusWriteClearsDone : Prop :=
  ∀ (v : Word) (s : State),
    exec (.statusWr .four v) s =
      .next { s with done := if v.getLsbD 1 then false else s.done, resp := .writeOk }

/-- 45_register_access.md R302: writes of the plain registers store the value under the register's mask, any value, also during a session, whose latch
stays. -/
def Obligations.PlainRegisterWrites : Prop :=
  ∀ (v : Word) (s : State),
    exec (.regWr 0x0#4 .four v) s = .next { s with cfgTbBytes := v, resp := .writeOk } ∧
    exec (.regWr 0x4#4 .four v) s = .next { s with cfgCoding := v &&& 0x00FF1FFF#32, resp := .writeOk } ∧
    exec (.regWr 0x8#4 .four v) s = .next { s with cfgNref := v, resp := .writeOk } ∧
    exec (.regWr 0xC#4 .four v) s = .next { s with cfgHarqId := v.extractLsb' 0 8, resp := .writeOk } ∧
    exec (.regWrView .four v) s = .next { s with harqViewId := v.extractLsb' 0 8, resp := .writeOk }

/-- 20_memory.md R63, R70: writes to read-only and unmapped register words, to TBOUT and to the reserved region have no effect and no error, and the
reserved region reads 0. -/
def Obligations.IgnoredWritesAndReservedReads : Prop :=
  ∀ (s : State) (size : Size) (v : Word),
    (∀ off : BitVec 12, off.toNat % 4 = 0 →
      exec (.regWrIgnored off .four v) s = .next { s with resp := .writeOk }) ∧
    (∀ off : BitVec 18, off.toNat % size.bytes = 0 →
      exec (.tboutWrIgnored off size v) s = .next { s with resp := .writeOk } ∧
      exec (.rsvdWr off size v) s = .next { s with resp := .writeOk } ∧
      exec (.rsvdRd off size) s = .next { s with resp := .readOk size 0 })

/-- 45_register_access.md R306, 20_memory.md R64: an aligned STAGE write stores byte k of the value at STAGE[off + k] and changes no other byte and
nothing else. -/
def Obligations.StageWriteStoresLanes : Prop :=
  ∀ (off : BitVec 12) (size : Size) (v : Word) (s : State), off.toNat % size.bytes = 0 →
    ∃ t, exec (.stageWr off size v) s = .next t ∧
      t = { s with mem := t.mem, resp := .writeOk } ∧
      (∀ k, k < size.bytes → t.stageByte (off.toNat + k) = v.extractLsb' (8 * k) 8) ∧
      (∀ a, a < 0x01000 + off.toNat ∨ 0x01000 + off.toNat + size.bytes ≤ a → t.byteAt a = s.byteAt a)

/-- 45_register_access.md R306, R307, R309: an aligned read of STAGE, and of TBOUT while BUSY = 0, returns exactly its SIZE bytes, little-endian and
unextended, and changes nothing. -/
def Obligations.WindowReadsReturnBytes : Prop :=
  ∀ (size : Size) (s : State),
    (∀ off : BitVec 12, off.toNat % size.bytes = 0 →
      ∃ d, exec (.stageRd off size) s = .next { s with resp := .readOk size d } ∧
        d.toNat = ((List.range size.bytes).map fun k => (s.stageByte (off.toNat + k)).toNat * 2 ^ (8 * k)).sum) ∧
    (∀ off : BitVec 18, off.toNat % size.bytes = 0 → s.pending = none →
      ∃ d, exec (.tboutRd off size) s = .next { s with resp := .readOk size d } ∧
        d.toNat = ((List.range size.bytes).map fun k => (s.tboutByte (off.toNat + k)).toNat * 2 ^ (8 * k)).sum)

/-! ### Assembly and the reference kernel -/

/-- 44_crc_tb_assembly.md R264, R266, R268: END assembles the TB from the data bits of codeblocks 0..C-1 in order, decoded or skipped, cut at TBC
bits; they fill TBA[0..TBC), and its other bits stay. -/
def Obligations.AssemblyConcatenatesMessages : Prop :=
  ∀ s t : State, s.fault = false → EndChecks s → exec .endSession s = .next t →
    let tbc := if s.seg.c = 1 then 8 * s.sess.tbBytes.toNat else 8 * s.sess.tbBytes.toNat + 24
    (∀ r k, r < s.seg.c → k < s.seg.d → r * s.seg.d + k < tbc →
      bitAt t.tba (r * s.seg.d + k) = bitAt ((t.harq s.sess.harqId.toNat).cb r).msg k) ∧
    tbc ≤ s.seg.c * s.seg.d ∧
    ∀ j, tbc ≤ j → bitAt t.tba j = bitAt s.tba j

/-- 43_ldpc_decoder.md R221, R226 to R229, R236: the sizes of the graphs. The reference kernel starts from the decoder input with every message 0. An
iteration updates the base rows in rising order, and a row all its checks at once: each from the posteriors before the row. Decision t is the signs
after iteration t, 1 for a negative posterior. The test kernel K_HD decides by the signs of its input. -/
def Obligations.ReferenceKernelIterates : Prop :=
  (nrow .bg1 = 46 ∧ ncol .bg1 = 68 ∧ nrow .bg2 = 42 ∧ ncol .bg2 = 52) ∧
  (∀ (src : ShiftSource) (bg : BaseGraph) (zc iLS i : Nat) (post : List Int) (msgs : List (List Int)),
    let blocks := rowBlocks src bg zc iLS i
    post.length = ncol bg * zc → msgs.length = zc →
    (∀ ms ∈ msgs, ms.length = blocks.length) →
      let u := rowUpdate blocks zc 0 post msgs
      u.1.length = post.length ∧ u.2.length = zc ∧
      (∀ z, z < zc →
        let one := checkUpdate post (checkVars blocks zc z) (msgs.getD z [])
        u.2.getD z [] = one.2 ∧ ∀ n ∈ checkVars blocks zc z, u.1.getD n 0 = one.1.getD n 0) ∧
      ∀ n, (∀ z, z < zc → n ∉ checkVars blocks zc z) → u.1.getD n 0 = post.getD n 0) ∧
  (∀ (src : ShiftSource) (inp : KernelIn),
    let blocks := fun i => rowBlocks src inp.bg inp.zc inp.iLS i
    let row := fun (sc : List Int × (Nat → List (List Int))) (i : Nat) =>
      let u := rowUpdate (blocks i) inp.zc 0 sc.1 (sc.2 i)
      (u.1, fun i' => if i' = i then u.2 else sc.2 i')
    let iteration := fun sc => (List.range (nrow inp.bg)).foldl row sc
    let start := (inp.lam, fun i => List.replicate inp.zc (List.replicate (blocks i).length (0 : Int)))
    let decisions := runKernel .reference src inp
    decisions.length = inp.maxIter ∧
    ∀ t, t < inp.maxIter → decisions.getD t [] =
      (List.range inp.kPrime).map fun k => decide ((iteration^[t + 1] start).1.getD k 0 < 0)) ∧
  (∀ (src : ShiftSource) (inp : KernelIn), runKernel .hardDecision src inp =
    List.replicate inp.maxIter ((List.range inp.kPrime).map fun k => decide (inp.lam.getD k 0 < 0)))
end

