-- ==== Sys2Proof/Laws/Sparse.lean ====
section
/-! SUPPORT. What the operations on sparse data and on memory do, said once. -/

namespace Sys2Proof.Machine

variable {α : Type}

@[simp] theorem sparseFind_nil (k : Nat) : sparseFind ([] : Sparse α) k = none := rfl

theorem sparseFind_cons (j : Nat) (v : α) (l : Sparse α) (k : Nat) :
    sparseFind ((j, v) :: l) k = if j = k then some v else sparseFind l k := rfl

@[simp] theorem sparseFind_insert_same (l : Sparse α) (k : Nat) (v : α) :
    sparseFind (sparseInsert l k v) k = some v := by
  induction l with
  | nil => simp [sparseInsert, sparseFind]
  | cons e l ih =>
    obtain ⟨j, w⟩ := e
    simp only [sparseInsert]
    split
    · simp [sparseFind]
    · split
      · simp [sparseFind]
      · rename_i h
        simp [sparseFind, ih, Ne.symm h]

theorem sparseFind_insert_other (l : Sparse α) {k j : Nat} (v : α) (h : j ≠ k) :
    sparseFind (sparseInsert l k v) j = sparseFind l j := by
  induction l with
  | nil => simp [sparseInsert, sparseFind, Ne.symm h]
  | cons e l ih =>
    obtain ⟨i, w⟩ := e
    simp only [sparseInsert]
    split
    · simp [sparseFind, Ne.symm h]
    · split
      · rename_i hk
        subst hk
        simp [sparseFind, Ne.symm h]
      · simp [sparseFind, ih]

@[simp] theorem sparseFind_erase_same (l : Sparse α) (k : Nat) : sparseFind (sparseErase l k) k = none := by
  induction l with
  | nil => rfl
  | cons e l ih =>
    obtain ⟨j, w⟩ := e
    by_cases h : j = k
    · simpa [sparseErase, List.filter_cons, h] using ih
    · simpa [sparseErase, List.filter_cons, h, sparseFind] using ih

theorem sparseFind_erase_other (l : Sparse α) {k j : Nat} (h : j ≠ k) :
    sparseFind (sparseErase l k) j = sparseFind l j := by
  induction l with
  | nil => rfl
  | cons e l ih =>
    obtain ⟨i, w⟩ := e
    by_cases hi : i = k
    · have : i ≠ j := fun hij => h (hij ▸ hi)
      simpa [sparseErase, List.filter_cons, hi, sparseFind, hi ▸ this] using ih
    · simp only [sparseErase, List.filter_cons, ne_eq, hi, not_false_eq_true, decide_true, ite_true,
        sparseFind] at ih ⊢
      split <;> simp_all

@[simp] theorem sparseGet_nil (d : α) (k : Nat) : sparseGet d [] k = d := rfl

@[simp] theorem sparseGet_set_same [DecidableEq α] (d : α) (l : Sparse α) (k : Nat) (v : α) :
    sparseGet d (sparseSet d l k v) k = v := by
  by_cases h : v = d <;> simp [sparseGet, sparseSet, h]

theorem sparseGet_set_other [DecidableEq α] (d : α) (l : Sparse α) {k j : Nat} (v : α) (h : j ≠ k) :
    sparseGet d (sparseSet d l k v) j = sparseGet d l j := by
  by_cases hv : v = d <;>
    simp [sparseGet, sparseSet, hv, sparseFind_insert_other _ _ h, sparseFind_erase_other _ h]

theorem sparseGet_set [DecidableEq α] (d : α) (l : Sparse α) (k j : Nat) (v : α) :
    sparseGet d (sparseSet d l k v) j = if j = k then v else sparseGet d l j := by
  by_cases h : j = k
  · subst h
    simp
  · simp [h, sparseGet_set_other d l v h]

/-! ### The canonical form -/

theorem sparseInsert_keys (l : Sparse α) (k : Nat) (v : α) {e : Nat × α} (h : e ∈ sparseInsert l k v) :
    e = (k, v) ∨ e ∈ l := by
  induction l with
  | nil => simpa [sparseInsert] using h
  | cons f l ih =>
    obtain ⟨j, w⟩ := f
    simp only [sparseInsert] at h
    split at h
    · simpa using h
    · split at h
      · rcases List.mem_cons.1 h with h | h
        · exact .inl h
        · exact .inr (List.mem_cons_of_mem _ h)
      · rcases List.mem_cons.1 h with h | h
        · exact .inr (h ▸ List.mem_cons_self)
        · exact (ih h).imp id (List.mem_cons_of_mem _)

theorem sparseSorted_insert (l : Sparse α) (k : Nat) (v : α) (h : sparseSorted l = true) :
    sparseSorted (sparseInsert l k v) = true := by
  simp only [sparseSorted, decide_eq_true_eq] at h ⊢
  induction l with
  | nil => simp [sparseInsert]
  | cons e l ih =>
    obtain ⟨j, w⟩ := e
    obtain ⟨hj, hl⟩ := List.pairwise_cons.1 h
    simp only [sparseInsert]
    split
    · rename_i hk
      refine List.pairwise_cons.2 ⟨fun e he => ?_, h⟩
      rcases List.mem_cons.1 he with rfl | he
      · exact hk
      · exact lt_trans hk (hj e he)
    · split
      · rename_i hk
        subst hk
        exact List.pairwise_cons.2 ⟨hj, hl⟩
      · refine List.pairwise_cons.2 ⟨fun e he => ?_, ih hl⟩
        rcases sparseInsert_keys l k v he with rfl | he
        · show j < k
          omega
        · exact hj e he

theorem sparseSorted_erase (l : Sparse α) (k : Nat) (h : sparseSorted l = true) :
    sparseSorted (sparseErase l k) = true := by
  exact decide_eq_true ((of_decide_eq_true h).filter _)

theorem sparseSorted_set [DecidableEq α] (d : α) (l : Sparse α) (k : Nat) (v : α) (h : sparseSorted l = true) :
    sparseSorted (sparseSet d l k v) = true := by
  unfold sparseSet
  split
  · exact sparseSorted_erase l k h
  · exact sparseSorted_insert l k v h

/-! ### Memory -/

@[simp] theorem memFind_write_same (m : Memory) (a : Nat) (b : Byte) : memFind (memWrite m a b) a = some b :=
  sparseFind_insert_same m a b

theorem memFind_write_other (m : Memory) {a x : Nat} (b : Byte) (h : x ≠ a) :
    memFind (memWrite m a b) x = memFind m x :=
  sparseFind_insert_other m b h

theorem memWrite_wf (m : Memory) (a : Nat) (b : Byte) (h : Memory.wf m = true) : Memory.wf (memWrite m a b) = true :=
  sparseSorted_insert m a b h

theorem memWriteBytes_wf (bs : List Byte) (m : Memory) (a : Nat) (h : Memory.wf m = true) :
    Memory.wf (memWriteBytes m a bs) = true := by
  induction bs generalizing m a with
  | nil => exact h
  | cons b bs ih => exact ih _ _ (memWrite_wf m a b h)

theorem memFind_writeBytes_outside (bs : List Byte) (m : Memory) (a x : Nat) (h : x < a ∨ a + bs.length ≤ x) :
    memFind (memWriteBytes m a bs) x = memFind m x := by
  induction bs generalizing m a with
  | nil => rfl
  | cons b bs ih =>
    simp only [List.length_cons] at h
    rw [memWriteBytes, ih _ _ (by omega), memFind_write_other _ _ (by omega)]

theorem memFind_writeBytes_inside (bs : List Byte) (m : Memory) (a i : Nat) (h : i < bs.length) :
    memFind (memWriteBytes m a bs) (a + i) = bs[i]? := by
  induction bs generalizing m a i with
  | nil => simp at h
  | cons b bs ih =>
    rw [memWriteBytes]
    cases i with
    | zero => simp [memFind_writeBytes_outside bs (memWrite m a b) (a + 1) a (by omega)]
    | succ i =>
      have := ih (memWrite m a b) (a + 1) i (by simpa using h)
      rw [show a + (i + 1) = a + 1 + i by omega]
      simpa using this

theorem reset_mem_wf : Memory.wf State.reset.mem = true := rfl

end Sys2Proof.Machine
end

