-- ==== Sys2Proof/Laws/State.lean ====
section
/-! SUPPORT. One lemma per field per named update of the state, true by rfl. -/

namespace Sys2Proof.Machine

/-! ### State.respond -/

@[simp] theorem State.respond_params (s : State) (r : Response) : (s.respond r).params = s.params := rfl
@[simp] theorem State.respond_ieDone (s : State) (r : Response) : (s.respond r).ieDone = s.ieDone := rfl
@[simp] theorem State.respond_ieFault (s : State) (r : Response) : (s.respond r).ieFault = s.ieFault := rfl
@[simp] theorem State.respond_done (s : State) (r : Response) : (s.respond r).done = s.done := rfl
@[simp] theorem State.respond_fault (s : State) (r : Response) : (s.respond r).fault = s.fault := rfl
@[simp] theorem State.respond_phase (s : State) (r : Response) : (s.respond r).phase = s.phase := rfl
@[simp] theorem State.respond_pending (s : State) (r : Response) : (s.respond r).pending = s.pending := rfl
@[simp] theorem State.respond_faultCause (s : State) (r : Response) : (s.respond r).faultCause = s.faultCause := rfl
@[simp] theorem State.respond_faultCmd (s : State) (r : Response) : (s.respond r).faultCmd = s.faultCmd := rfl
@[simp] theorem State.respond_faultInfo (s : State) (r : Response) : (s.respond r).faultInfo = s.faultInfo := rfl
@[simp] theorem State.respond_resSeq (s : State) (r : Response) : (s.respond r).resSeq = s.resSeq := rfl
@[simp] theorem State.respond_cfgTbBytes (s : State) (r : Response) : (s.respond r).cfgTbBytes = s.cfgTbBytes := rfl
@[simp] theorem State.respond_cfgCoding (s : State) (r : Response) : (s.respond r).cfgCoding = s.cfgCoding := rfl
@[simp] theorem State.respond_cfgNref (s : State) (r : Response) : (s.respond r).cfgNref = s.cfgNref := rfl
@[simp] theorem State.respond_cfgHarqId (s : State) (r : Response) : (s.respond r).cfgHarqId = s.cfgHarqId := rfl
@[simp] theorem State.respond_harqViewId (s : State) (r : Response) : (s.respond r).harqViewId = s.harqViewId := rfl
@[simp] theorem State.respond_sess (s : State) (r : Response) : (s.respond r).sess = s.sess := rfl
@[simp] theorem State.respond_acc (s : State) (r : Response) : (s.respond r).acc = s.acc := rfl
@[simp] theorem State.respond_hs (s : State) (r : Response) : (s.respond r).hs = s.hs := rfl
@[simp] theorem State.respond_tba (s : State) (r : Response) : (s.respond r).tba = s.tba := rfl
@[simp] theorem State.respond_res (s : State) (r : Response) : (s.respond r).res = s.res := rfl
@[simp] theorem State.respond_mem (s : State) (r : Response) : (s.respond r).mem = s.mem := rfl
@[simp] theorem State.respond_inputs (s : State) (r : Response) : (s.respond r).inputs = s.inputs := rfl
@[simp] theorem State.respond_resp (s : State) (r : Response) : (s.respond r).resp = r := rfl
@[simp] theorem State.respond_draws (s : State) (r : Response) : (s.respond r).draws = s.draws := rfl
@[simp] theorem State.respond_epoch (s : State) (r : Response) : (s.respond r).epoch = s.epoch := rfl

/-! ### State.endStep -/

@[simp] theorem State.endStep_params (s : State) : (s.endStep).params = s.params := rfl
@[simp] theorem State.endStep_ieDone (s : State) : (s.endStep).ieDone = s.ieDone := rfl
@[simp] theorem State.endStep_ieFault (s : State) : (s.endStep).ieFault = s.ieFault := rfl
@[simp] theorem State.endStep_done (s : State) : (s.endStep).done = s.done := rfl
@[simp] theorem State.endStep_fault (s : State) : (s.endStep).fault = s.fault := rfl
@[simp] theorem State.endStep_phase (s : State) : (s.endStep).phase = s.phase := rfl
@[simp] theorem State.endStep_pending (s : State) : (s.endStep).pending = none := rfl
@[simp] theorem State.endStep_faultCause (s : State) : (s.endStep).faultCause = s.faultCause := rfl
@[simp] theorem State.endStep_faultCmd (s : State) : (s.endStep).faultCmd = s.faultCmd := rfl
@[simp] theorem State.endStep_faultInfo (s : State) : (s.endStep).faultInfo = s.faultInfo := rfl
@[simp] theorem State.endStep_resSeq (s : State) : (s.endStep).resSeq = s.resSeq := rfl
@[simp] theorem State.endStep_cfgTbBytes (s : State) : (s.endStep).cfgTbBytes = s.cfgTbBytes := rfl
@[simp] theorem State.endStep_cfgCoding (s : State) : (s.endStep).cfgCoding = s.cfgCoding := rfl
@[simp] theorem State.endStep_cfgNref (s : State) : (s.endStep).cfgNref = s.cfgNref := rfl
@[simp] theorem State.endStep_cfgHarqId (s : State) : (s.endStep).cfgHarqId = s.cfgHarqId := rfl
@[simp] theorem State.endStep_harqViewId (s : State) : (s.endStep).harqViewId = s.harqViewId := rfl
@[simp] theorem State.endStep_sess (s : State) : (s.endStep).sess = s.sess := rfl
@[simp] theorem State.endStep_acc (s : State) : (s.endStep).acc = s.acc := rfl
@[simp] theorem State.endStep_hs (s : State) : (s.endStep).hs = s.hs := rfl
@[simp] theorem State.endStep_tba (s : State) : (s.endStep).tba = s.tba := rfl
@[simp] theorem State.endStep_res (s : State) : (s.endStep).res = s.res := rfl
@[simp] theorem State.endStep_mem (s : State) : (s.endStep).mem = s.mem := rfl
@[simp] theorem State.endStep_inputs (s : State) : (s.endStep).inputs = s.inputs := rfl
@[simp] theorem State.endStep_resp (s : State) : (s.endStep).resp = s.resp := rfl
@[simp] theorem State.endStep_draws (s : State) : (s.endStep).draws = s.draws := rfl
@[simp] theorem State.endStep_epoch (s : State) : (s.endStep).epoch = s.epoch := rfl

/-! ### State.withInputs -/

@[simp] theorem State.withInputs_params (s : State) (l : List HostInput) : (s.withInputs l).params = s.params := rfl
@[simp] theorem State.withInputs_ieDone (s : State) (l : List HostInput) : (s.withInputs l).ieDone = s.ieDone := rfl
@[simp] theorem State.withInputs_ieFault (s : State) (l : List HostInput) : (s.withInputs l).ieFault = s.ieFault := rfl
@[simp] theorem State.withInputs_done (s : State) (l : List HostInput) : (s.withInputs l).done = s.done := rfl
@[simp] theorem State.withInputs_fault (s : State) (l : List HostInput) : (s.withInputs l).fault = s.fault := rfl
@[simp] theorem State.withInputs_phase (s : State) (l : List HostInput) : (s.withInputs l).phase = s.phase := rfl
@[simp] theorem State.withInputs_pending (s : State) (l : List HostInput) : (s.withInputs l).pending = s.pending := rfl
@[simp] theorem State.withInputs_faultCause (s : State) (l : List HostInput) : (s.withInputs l).faultCause = s.faultCause := rfl
@[simp] theorem State.withInputs_faultCmd (s : State) (l : List HostInput) : (s.withInputs l).faultCmd = s.faultCmd := rfl
@[simp] theorem State.withInputs_faultInfo (s : State) (l : List HostInput) : (s.withInputs l).faultInfo = s.faultInfo := rfl
@[simp] theorem State.withInputs_resSeq (s : State) (l : List HostInput) : (s.withInputs l).resSeq = s.resSeq := rfl
@[simp] theorem State.withInputs_cfgTbBytes (s : State) (l : List HostInput) : (s.withInputs l).cfgTbBytes = s.cfgTbBytes := rfl
@[simp] theorem State.withInputs_cfgCoding (s : State) (l : List HostInput) : (s.withInputs l).cfgCoding = s.cfgCoding := rfl
@[simp] theorem State.withInputs_cfgNref (s : State) (l : List HostInput) : (s.withInputs l).cfgNref = s.cfgNref := rfl
@[simp] theorem State.withInputs_cfgHarqId (s : State) (l : List HostInput) : (s.withInputs l).cfgHarqId = s.cfgHarqId := rfl
@[simp] theorem State.withInputs_harqViewId (s : State) (l : List HostInput) : (s.withInputs l).harqViewId = s.harqViewId := rfl
@[simp] theorem State.withInputs_sess (s : State) (l : List HostInput) : (s.withInputs l).sess = s.sess := rfl
@[simp] theorem State.withInputs_acc (s : State) (l : List HostInput) : (s.withInputs l).acc = s.acc := rfl
@[simp] theorem State.withInputs_hs (s : State) (l : List HostInput) : (s.withInputs l).hs = s.hs := rfl
@[simp] theorem State.withInputs_tba (s : State) (l : List HostInput) : (s.withInputs l).tba = s.tba := rfl
@[simp] theorem State.withInputs_res (s : State) (l : List HostInput) : (s.withInputs l).res = s.res := rfl
@[simp] theorem State.withInputs_mem (s : State) (l : List HostInput) : (s.withInputs l).mem = s.mem := rfl
@[simp] theorem State.withInputs_inputs (s : State) (l : List HostInput) : (s.withInputs l).inputs = l := rfl
@[simp] theorem State.withInputs_resp (s : State) (l : List HostInput) : (s.withInputs l).resp = s.resp := rfl
@[simp] theorem State.withInputs_draws (s : State) (l : List HostInput) : (s.withInputs l).draws = s.draws := rfl
@[simp] theorem State.withInputs_epoch (s : State) (l : List HostInput) : (s.withInputs l).epoch = s.epoch := rfl

/-! ### State.setHarq -/

@[simp] theorem State.setHarq_params (s : State) (h : Nat) (b : HarqBuf) : (s.setHarq h b).params = s.params := rfl
@[simp] theorem State.setHarq_ieDone (s : State) (h : Nat) (b : HarqBuf) : (s.setHarq h b).ieDone = s.ieDone := rfl
@[simp] theorem State.setHarq_ieFault (s : State) (h : Nat) (b : HarqBuf) : (s.setHarq h b).ieFault = s.ieFault := rfl
@[simp] theorem State.setHarq_done (s : State) (h : Nat) (b : HarqBuf) : (s.setHarq h b).done = s.done := rfl
@[simp] theorem State.setHarq_fault (s : State) (h : Nat) (b : HarqBuf) : (s.setHarq h b).fault = s.fault := rfl
@[simp] theorem State.setHarq_phase (s : State) (h : Nat) (b : HarqBuf) : (s.setHarq h b).phase = s.phase := rfl
@[simp] theorem State.setHarq_pending (s : State) (h : Nat) (b : HarqBuf) : (s.setHarq h b).pending = s.pending := rfl
@[simp] theorem State.setHarq_faultCause (s : State) (h : Nat) (b : HarqBuf) : (s.setHarq h b).faultCause = s.faultCause := rfl
@[simp] theorem State.setHarq_faultCmd (s : State) (h : Nat) (b : HarqBuf) : (s.setHarq h b).faultCmd = s.faultCmd := rfl
@[simp] theorem State.setHarq_faultInfo (s : State) (h : Nat) (b : HarqBuf) : (s.setHarq h b).faultInfo = s.faultInfo := rfl
@[simp] theorem State.setHarq_resSeq (s : State) (h : Nat) (b : HarqBuf) : (s.setHarq h b).resSeq = s.resSeq := rfl
@[simp] theorem State.setHarq_cfgTbBytes (s : State) (h : Nat) (b : HarqBuf) : (s.setHarq h b).cfgTbBytes = s.cfgTbBytes := rfl
@[simp] theorem State.setHarq_cfgCoding (s : State) (h : Nat) (b : HarqBuf) : (s.setHarq h b).cfgCoding = s.cfgCoding := rfl
@[simp] theorem State.setHarq_cfgNref (s : State) (h : Nat) (b : HarqBuf) : (s.setHarq h b).cfgNref = s.cfgNref := rfl
@[simp] theorem State.setHarq_cfgHarqId (s : State) (h : Nat) (b : HarqBuf) : (s.setHarq h b).cfgHarqId = s.cfgHarqId := rfl
@[simp] theorem State.setHarq_harqViewId (s : State) (h : Nat) (b : HarqBuf) : (s.setHarq h b).harqViewId = s.harqViewId := rfl
@[simp] theorem State.setHarq_sess (s : State) (h : Nat) (b : HarqBuf) : (s.setHarq h b).sess = s.sess := rfl
@[simp] theorem State.setHarq_acc (s : State) (h : Nat) (b : HarqBuf) : (s.setHarq h b).acc = s.acc := rfl
@[simp] theorem State.setHarq_hs (s : State) (h : Nat) (b : HarqBuf) : (s.setHarq h b).hs = sparseSet HarqBuf.unused s.hs h b := rfl
@[simp] theorem State.setHarq_tba (s : State) (h : Nat) (b : HarqBuf) : (s.setHarq h b).tba = s.tba := rfl
@[simp] theorem State.setHarq_res (s : State) (h : Nat) (b : HarqBuf) : (s.setHarq h b).res = s.res := rfl
@[simp] theorem State.setHarq_mem (s : State) (h : Nat) (b : HarqBuf) : (s.setHarq h b).mem = s.mem := rfl
@[simp] theorem State.setHarq_inputs (s : State) (h : Nat) (b : HarqBuf) : (s.setHarq h b).inputs = s.inputs := rfl
@[simp] theorem State.setHarq_resp (s : State) (h : Nat) (b : HarqBuf) : (s.setHarq h b).resp = s.resp := rfl
@[simp] theorem State.setHarq_draws (s : State) (h : Nat) (b : HarqBuf) : (s.setHarq h b).draws = s.draws := rfl
@[simp] theorem State.setHarq_epoch (s : State) (h : Nat) (b : HarqBuf) : (s.setHarq h b).epoch = s.epoch := rfl

/-! ### State.drawRead -/

@[simp] theorem State.drawRead_params (s : State) (z : Size) : (s.drawRead z).params = s.params := rfl
@[simp] theorem State.drawRead_ieDone (s : State) (z : Size) : (s.drawRead z).ieDone = s.ieDone := rfl
@[simp] theorem State.drawRead_ieFault (s : State) (z : Size) : (s.drawRead z).ieFault = s.ieFault := rfl
@[simp] theorem State.drawRead_done (s : State) (z : Size) : (s.drawRead z).done = s.done := rfl
@[simp] theorem State.drawRead_fault (s : State) (z : Size) : (s.drawRead z).fault = s.fault := rfl
@[simp] theorem State.drawRead_phase (s : State) (z : Size) : (s.drawRead z).phase = s.phase := rfl
@[simp] theorem State.drawRead_pending (s : State) (z : Size) : (s.drawRead z).pending = s.pending := rfl
@[simp] theorem State.drawRead_faultCause (s : State) (z : Size) : (s.drawRead z).faultCause = s.faultCause := rfl
@[simp] theorem State.drawRead_faultCmd (s : State) (z : Size) : (s.drawRead z).faultCmd = s.faultCmd := rfl
@[simp] theorem State.drawRead_faultInfo (s : State) (z : Size) : (s.drawRead z).faultInfo = s.faultInfo := rfl
@[simp] theorem State.drawRead_resSeq (s : State) (z : Size) : (s.drawRead z).resSeq = s.resSeq := rfl
@[simp] theorem State.drawRead_cfgTbBytes (s : State) (z : Size) : (s.drawRead z).cfgTbBytes = s.cfgTbBytes := rfl
@[simp] theorem State.drawRead_cfgCoding (s : State) (z : Size) : (s.drawRead z).cfgCoding = s.cfgCoding := rfl
@[simp] theorem State.drawRead_cfgNref (s : State) (z : Size) : (s.drawRead z).cfgNref = s.cfgNref := rfl
@[simp] theorem State.drawRead_cfgHarqId (s : State) (z : Size) : (s.drawRead z).cfgHarqId = s.cfgHarqId := rfl
@[simp] theorem State.drawRead_harqViewId (s : State) (z : Size) : (s.drawRead z).harqViewId = s.harqViewId := rfl
@[simp] theorem State.drawRead_sess (s : State) (z : Size) : (s.drawRead z).sess = s.sess := rfl
@[simp] theorem State.drawRead_acc (s : State) (z : Size) : (s.drawRead z).acc = s.acc := rfl
@[simp] theorem State.drawRead_hs (s : State) (z : Size) : (s.drawRead z).hs = s.hs := rfl
@[simp] theorem State.drawRead_tba (s : State) (z : Size) : (s.drawRead z).tba = s.tba := rfl
@[simp] theorem State.drawRead_res (s : State) (z : Size) : (s.drawRead z).res = s.res := rfl
@[simp] theorem State.drawRead_mem (s : State) (z : Size) : (s.drawRead z).mem = s.mem := rfl
@[simp] theorem State.drawRead_inputs (s : State) (z : Size) : (s.drawRead z).inputs = s.inputs := rfl
@[simp] theorem State.drawRead_resp (s : State) (z : Size) : (s.drawRead z).resp = .readOk z (wdataLanes z (Config.busyRead s.draws)) := rfl
@[simp] theorem State.drawRead_draws (s : State) (z : Size) : (s.drawRead z).draws = s.draws + 1 := rfl
@[simp] theorem State.drawRead_epoch (s : State) (z : Size) : (s.drawRead z).epoch = s.epoch := rfl

/-! ### takeFault -/

@[simp] theorem takeFault_params (w : Word) (e : Raise) (s : State) : (takeFault w e s).params = s.params := rfl
@[simp] theorem takeFault_ieDone (w : Word) (e : Raise) (s : State) : (takeFault w e s).ieDone = s.ieDone := rfl
@[simp] theorem takeFault_ieFault (w : Word) (e : Raise) (s : State) : (takeFault w e s).ieFault = s.ieFault := rfl
@[simp] theorem takeFault_done (w : Word) (e : Raise) (s : State) : (takeFault w e s).done = s.done := rfl
@[simp] theorem takeFault_fault (w : Word) (e : Raise) (s : State) : (takeFault w e s).fault = true := rfl
@[simp] theorem takeFault_phase (w : Word) (e : Raise) (s : State) : (takeFault w e s).phase = s.phase := rfl
@[simp] theorem takeFault_pending (w : Word) (e : Raise) (s : State) : (takeFault w e s).pending = none := rfl
@[simp] theorem takeFault_faultCause (w : Word) (e : Raise) (s : State) : (takeFault w e s).faultCause = e.1 := rfl
@[simp] theorem takeFault_faultCmd (w : Word) (e : Raise) (s : State) : (takeFault w e s).faultCmd = w := rfl
@[simp] theorem takeFault_faultInfo (w : Word) (e : Raise) (s : State) : (takeFault w e s).faultInfo = e.2 := rfl
@[simp] theorem takeFault_resSeq (w : Word) (e : Raise) (s : State) : (takeFault w e s).resSeq = s.resSeq := rfl
@[simp] theorem takeFault_cfgTbBytes (w : Word) (e : Raise) (s : State) : (takeFault w e s).cfgTbBytes = s.cfgTbBytes := rfl
@[simp] theorem takeFault_cfgCoding (w : Word) (e : Raise) (s : State) : (takeFault w e s).cfgCoding = s.cfgCoding := rfl
@[simp] theorem takeFault_cfgNref (w : Word) (e : Raise) (s : State) : (takeFault w e s).cfgNref = s.cfgNref := rfl
@[simp] theorem takeFault_cfgHarqId (w : Word) (e : Raise) (s : State) : (takeFault w e s).cfgHarqId = s.cfgHarqId := rfl
@[simp] theorem takeFault_harqViewId (w : Word) (e : Raise) (s : State) : (takeFault w e s).harqViewId = s.harqViewId := rfl
@[simp] theorem takeFault_sess (w : Word) (e : Raise) (s : State) : (takeFault w e s).sess = s.sess := rfl
@[simp] theorem takeFault_acc (w : Word) (e : Raise) (s : State) : (takeFault w e s).acc = s.acc := rfl
@[simp] theorem takeFault_hs (w : Word) (e : Raise) (s : State) : (takeFault w e s).hs = s.hs := rfl
@[simp] theorem takeFault_tba (w : Word) (e : Raise) (s : State) : (takeFault w e s).tba = s.tba := rfl
@[simp] theorem takeFault_res (w : Word) (e : Raise) (s : State) : (takeFault w e s).res = s.res := rfl
@[simp] theorem takeFault_mem (w : Word) (e : Raise) (s : State) : (takeFault w e s).mem = s.mem := rfl
@[simp] theorem takeFault_inputs (w : Word) (e : Raise) (s : State) : (takeFault w e s).inputs = s.inputs := rfl
@[simp] theorem takeFault_resp (w : Word) (e : Raise) (s : State) : (takeFault w e s).resp = s.resp := rfl
@[simp] theorem takeFault_draws (w : Word) (e : Raise) (s : State) : (takeFault w e s).draws = s.draws := rfl
@[simp] theorem takeFault_epoch (w : Word) (e : Raise) (s : State) : (takeFault w e s).epoch = s.epoch := rfl

/-! ### State.doReset -/

@[simp] theorem State.doReset_params (s : State) : (s.doReset).params = s.params := rfl
@[simp] theorem State.doReset_ieDone (s : State) : (s.doReset).ieDone = false := rfl
@[simp] theorem State.doReset_ieFault (s : State) : (s.doReset).ieFault = false := rfl
@[simp] theorem State.doReset_done (s : State) : (s.doReset).done = false := rfl
@[simp] theorem State.doReset_fault (s : State) : (s.doReset).fault = false := rfl
@[simp] theorem State.doReset_phase (s : State) : (s.doReset).phase = .idle := rfl
@[simp] theorem State.doReset_pending (s : State) : (s.doReset).pending = none := rfl
@[simp] theorem State.doReset_faultCause (s : State) : (s.doReset).faultCause = .none := rfl
@[simp] theorem State.doReset_faultCmd (s : State) : (s.doReset).faultCmd = 0 := rfl
@[simp] theorem State.doReset_faultInfo (s : State) : (s.doReset).faultInfo = 0 := rfl
@[simp] theorem State.doReset_resSeq (s : State) : (s.doReset).resSeq = 0 := rfl
@[simp] theorem State.doReset_cfgTbBytes (s : State) : (s.doReset).cfgTbBytes = 0 := rfl
@[simp] theorem State.doReset_cfgCoding (s : State) : (s.doReset).cfgCoding = 0 := rfl
@[simp] theorem State.doReset_cfgNref (s : State) : (s.doReset).cfgNref = 0 := rfl
@[simp] theorem State.doReset_cfgHarqId (s : State) : (s.doReset).cfgHarqId = 0 := rfl
@[simp] theorem State.doReset_harqViewId (s : State) : (s.doReset).harqViewId = 0 := rfl
@[simp] theorem State.doReset_sess (s : State) : (s.doReset).sess = Session.zero := rfl
@[simp] theorem State.doReset_acc (s : State) : (s.doReset).acc = [] := rfl
@[simp] theorem State.doReset_hs (s : State) : (s.doReset).hs = [] := rfl
@[simp] theorem State.doReset_tba (s : State) : (s.doReset).tba = [] := rfl
@[simp] theorem State.doReset_res (s : State) : (s.doReset).res = Results.zero := rfl
@[simp] theorem State.doReset_mem (s : State) : (s.doReset).mem = [] := rfl
@[simp] theorem State.doReset_inputs (s : State) : (s.doReset).inputs = s.inputs := rfl
@[simp] theorem State.doReset_resp (s : State) : (s.doReset).resp = s.resp := rfl
@[simp] theorem State.doReset_draws (s : State) : (s.doReset).draws = s.draws := rfl
@[simp] theorem State.doReset_epoch (s : State) : (s.doReset).epoch = s.epoch + 1 := rfl

/-! ### writeView -/

@[simp] theorem writeView_params (v : Word) (s : State) : (writeView v s).params = s.params := rfl
@[simp] theorem writeView_ieDone (v : Word) (s : State) : (writeView v s).ieDone = s.ieDone := rfl
@[simp] theorem writeView_ieFault (v : Word) (s : State) : (writeView v s).ieFault = s.ieFault := rfl
@[simp] theorem writeView_done (v : Word) (s : State) : (writeView v s).done = s.done := rfl
@[simp] theorem writeView_fault (v : Word) (s : State) : (writeView v s).fault = s.fault := rfl
@[simp] theorem writeView_phase (v : Word) (s : State) : (writeView v s).phase = s.phase := rfl
@[simp] theorem writeView_pending (v : Word) (s : State) : (writeView v s).pending = s.pending := rfl
@[simp] theorem writeView_faultCause (v : Word) (s : State) : (writeView v s).faultCause = s.faultCause := rfl
@[simp] theorem writeView_faultCmd (v : Word) (s : State) : (writeView v s).faultCmd = s.faultCmd := rfl
@[simp] theorem writeView_faultInfo (v : Word) (s : State) : (writeView v s).faultInfo = s.faultInfo := rfl
@[simp] theorem writeView_resSeq (v : Word) (s : State) : (writeView v s).resSeq = s.resSeq := rfl
@[simp] theorem writeView_cfgTbBytes (v : Word) (s : State) : (writeView v s).cfgTbBytes = s.cfgTbBytes := rfl
@[simp] theorem writeView_cfgCoding (v : Word) (s : State) : (writeView v s).cfgCoding = s.cfgCoding := rfl
@[simp] theorem writeView_cfgNref (v : Word) (s : State) : (writeView v s).cfgNref = s.cfgNref := rfl
@[simp] theorem writeView_cfgHarqId (v : Word) (s : State) : (writeView v s).cfgHarqId = s.cfgHarqId := rfl
@[simp] theorem writeView_harqViewId (v : Word) (s : State) : (writeView v s).harqViewId = v.setWidth 8 := rfl
@[simp] theorem writeView_sess (v : Word) (s : State) : (writeView v s).sess = s.sess := rfl
@[simp] theorem writeView_acc (v : Word) (s : State) : (writeView v s).acc = s.acc := rfl
@[simp] theorem writeView_hs (v : Word) (s : State) : (writeView v s).hs = s.hs := rfl
@[simp] theorem writeView_tba (v : Word) (s : State) : (writeView v s).tba = s.tba := rfl
@[simp] theorem writeView_res (v : Word) (s : State) : (writeView v s).res = s.res := rfl
@[simp] theorem writeView_mem (v : Word) (s : State) : (writeView v s).mem = s.mem := rfl
@[simp] theorem writeView_inputs (v : Word) (s : State) : (writeView v s).inputs = s.inputs := rfl
@[simp] theorem writeView_resp (v : Word) (s : State) : (writeView v s).resp = s.resp := rfl
@[simp] theorem writeView_draws (v : Word) (s : State) : (writeView v s).draws = s.draws := rfl
@[simp] theorem writeView_epoch (v : Word) (s : State) : (writeView v s).epoch = s.epoch := rfl

/-! ### writeStage -/

@[simp] theorem writeStage_params (off : Nat) (z : Size) (v : Word) (s : State) : (writeStage off z v s).params = s.params := rfl
@[simp] theorem writeStage_ieDone (off : Nat) (z : Size) (v : Word) (s : State) : (writeStage off z v s).ieDone = s.ieDone := rfl
@[simp] theorem writeStage_ieFault (off : Nat) (z : Size) (v : Word) (s : State) : (writeStage off z v s).ieFault = s.ieFault := rfl
@[simp] theorem writeStage_done (off : Nat) (z : Size) (v : Word) (s : State) : (writeStage off z v s).done = s.done := rfl
@[simp] theorem writeStage_fault (off : Nat) (z : Size) (v : Word) (s : State) : (writeStage off z v s).fault = s.fault := rfl
@[simp] theorem writeStage_phase (off : Nat) (z : Size) (v : Word) (s : State) : (writeStage off z v s).phase = s.phase := rfl
@[simp] theorem writeStage_pending (off : Nat) (z : Size) (v : Word) (s : State) : (writeStage off z v s).pending = s.pending := rfl
@[simp] theorem writeStage_faultCause (off : Nat) (z : Size) (v : Word) (s : State) : (writeStage off z v s).faultCause = s.faultCause := rfl
@[simp] theorem writeStage_faultCmd (off : Nat) (z : Size) (v : Word) (s : State) : (writeStage off z v s).faultCmd = s.faultCmd := rfl
@[simp] theorem writeStage_faultInfo (off : Nat) (z : Size) (v : Word) (s : State) : (writeStage off z v s).faultInfo = s.faultInfo := rfl
@[simp] theorem writeStage_resSeq (off : Nat) (z : Size) (v : Word) (s : State) : (writeStage off z v s).resSeq = s.resSeq := rfl
@[simp] theorem writeStage_cfgTbBytes (off : Nat) (z : Size) (v : Word) (s : State) : (writeStage off z v s).cfgTbBytes = s.cfgTbBytes := rfl
@[simp] theorem writeStage_cfgCoding (off : Nat) (z : Size) (v : Word) (s : State) : (writeStage off z v s).cfgCoding = s.cfgCoding := rfl
@[simp] theorem writeStage_cfgNref (off : Nat) (z : Size) (v : Word) (s : State) : (writeStage off z v s).cfgNref = s.cfgNref := rfl
@[simp] theorem writeStage_cfgHarqId (off : Nat) (z : Size) (v : Word) (s : State) : (writeStage off z v s).cfgHarqId = s.cfgHarqId := rfl
@[simp] theorem writeStage_harqViewId (off : Nat) (z : Size) (v : Word) (s : State) : (writeStage off z v s).harqViewId = s.harqViewId := rfl
@[simp] theorem writeStage_sess (off : Nat) (z : Size) (v : Word) (s : State) : (writeStage off z v s).sess = s.sess := rfl
@[simp] theorem writeStage_acc (off : Nat) (z : Size) (v : Word) (s : State) : (writeStage off z v s).acc = s.acc := rfl
@[simp] theorem writeStage_hs (off : Nat) (z : Size) (v : Word) (s : State) : (writeStage off z v s).hs = s.hs := rfl
@[simp] theorem writeStage_tba (off : Nat) (z : Size) (v : Word) (s : State) : (writeStage off z v s).tba = s.tba := rfl
@[simp] theorem writeStage_res (off : Nat) (z : Size) (v : Word) (s : State) : (writeStage off z v s).res = s.res := rfl
@[simp] theorem writeStage_mem (off : Nat) (z : Size) (v : Word) (s : State) : (writeStage off z v s).mem = memWriteBytes s.mem (Config.stageBase + off) (lanesOf z v) := rfl
@[simp] theorem writeStage_inputs (off : Nat) (z : Size) (v : Word) (s : State) : (writeStage off z v s).inputs = s.inputs := rfl
@[simp] theorem writeStage_resp (off : Nat) (z : Size) (v : Word) (s : State) : (writeStage off z v s).resp = s.resp := rfl
@[simp] theorem writeStage_draws (off : Nat) (z : Size) (v : Word) (s : State) : (writeStage off z v s).draws = s.draws := rfl
@[simp] theorem writeStage_epoch (off : Nat) (z : Size) (v : Word) (s : State) : (writeStage off z v s).epoch = s.epoch := rfl

end Sys2Proof.Machine
end

