-- ==== Sys2Proof/Laws/Ops.lean ====
section
/-! SUPPORT. What each shared operation can do, said once. -/

namespace Sys2Proof.Machine

/-! ### The command step -/

theorem commandStep_faulted (w : Word) (rule : State → Except Raise State) (s : State) (h : s.fault = true) :
    commandStep w rule s = s.endStep := by
  simp [commandStep, h]

theorem commandStep_ok (w : Word) (rule : State → Except Raise State) {s t : State} (h : s.fault = false)
    (ht : rule s = .ok t) : commandStep w rule s = t.endStep := by
  simp [commandStep, h, ht]

theorem commandStep_raise (w : Word) (rule : State → Except Raise State) {s : State} {e : Raise}
    (h : s.fault = false) (he : rule s = .error e) : commandStep w rule s = takeFault w e s := by
  simp [commandStep, h, he]

/-- All that a command step can do. -/
theorem commandStep_cases (w : Word) (rule : State → Except Raise State) (s : State) :
    (s.fault = true ∧ commandStep w rule s = s.endStep) ∨
    (s.fault = false ∧ ∃ t, rule s = .ok t ∧ commandStep w rule s = t.endStep) ∨
    (s.fault = false ∧ ∃ e, rule s = .error e ∧ commandStep w rule s = takeFault w e s) := by
  cases hf : s.fault with
  | true => exact .inl ⟨rfl, commandStep_faulted w rule s hf⟩
  | false =>
    cases hr : rule s with
    | ok t => exact .inr (.inl ⟨rfl, t, rfl, commandStep_ok w rule hf hr⟩)
    | error e => exact .inr (.inr ⟨rfl, e, rfl, commandStep_raise w rule hf hr⟩)

/-! ### Bus accesses -/

@[simp] theorem busWrite_legal (f : State → State) (s : State) : busWrite true f s = (f s).respond .writeOk := rfl

@[simp] theorem busWrite_illegal (f : State → State) (s : State) : busWrite false f s = s.respond .writeErr := rfl

@[simp] theorem busRead_legal (z : Size) (f : State → State) (s : State) : busRead true z f s = f s := rfl

@[simp] theorem busRead_illegal (z : Size) (f : State → State) (s : State) :
    busRead false z f s = s.respond (.readErr z) := rfl

/-- All that a register read can do. -/
theorem readRegister_cases (s : State) (addr : Nat) :
    (regAt addr = none ∧ readRegister s addr = s.respond (.readOk .four 0)) ∨
    (∃ g, regAt addr = some g ∧ (s.busy && busyUnspecified g) = true ∧ readRegister s addr = s.drawRead .four) ∨
    (∃ g, regAt addr = some g ∧ (s.busy && busyUnspecified g) = false ∧
      readRegister s addr = s.respond (.readOk .four (regRead s g))) := by
  unfold readRegister
  cases regAt addr with
  | none => exact .inl ⟨rfl, rfl⟩
  | some g =>
    cases hb : (s.busy && busyUnspecified g) with
    | true => exact .inr (.inl ⟨g, rfl, hb, by simp [hb]⟩)
    | false => exact .inr (.inr ⟨g, rfl, hb, by simp [hb]⟩)

/-! ### What comes next -/

/-- Taking something up changes nothing but the inputs. -/
theorem fetch_state (s : State) : ∃ l, (fetch s).2 = s.withInputs l := by
  unfold fetch
  split <;> first | exact ⟨_, rfl⟩ | exact ⟨s.inputs, rfl⟩ | (split <;> exact ⟨_, rfl⟩)

/-- A command runs only when it has been accepted. -/
theorem fetch_command {s t : State} {w : Word} (h : fetch s = (.command w, t)) : s.pending = some w := by
  unfold fetch at h
  split at h <;> first | (split at h <;> simp_all) | simp_all

/-- While BUSY = 1 no write is performed (20_memory.md R71). -/
theorem fetch_busy_read {s t : State} {x : Txn} (h : fetch s = (.transaction x, t)) (hb : s.busy = true) :
    x.isRead = true := by
  unfold fetch at h
  split at h <;> first | (split at h <;> simp_all [State.busy]) | simp_all [State.busy]

/-! ### The HARQ store -/

theorem State.setHarq_harq (s : State) (h k : Nat) (b : HarqBuf) :
    (s.setHarq h b).harq k = if k = h then b else s.harq k :=
  sparseGet_set _ _ _ _ _

theorem HarqBuf.setCb_cb (b : HarqBuf) (r k : Nat) (c : CbBuf) :
    (b.setCb r c).cb k = if k = r then c else b.cb k :=
  sparseGet_set _ _ _ _ _

@[simp] theorem HarqBuf.setCb_nofCb (b : HarqBuf) (r : Nat) (c : CbBuf) : (b.setCb r c).nofCb = b.nofCb := rfl

/-- Changing codeblocks 0..n-1, each by its own contents. -/
theorem foldl_setCb (f : CbBuf → CbBuf) (n : Nat) (b : HarqBuf) :
    ((List.range n).foldl (fun b r => b.setCb r (f (b.cb r))) b).nofCb = b.nofCb ∧
    ∀ k, ((List.range n).foldl (fun b r => b.setCb r (f (b.cb r))) b).cb k = if k < n then f (b.cb k) else b.cb k := by
  induction n with
  | zero => simp
  | succ n ih =>
    rw [List.range_succ, List.foldl_append]
    refine ⟨by simp [ih.1], fun k => ?_⟩
    simp only [List.foldl_cons, List.foldl_nil, HarqBuf.setCb_cb, ih.2]
    by_cases hk : k = n
    · subst hk
      simp
    · have : k < n + 1 ↔ k < n := by omega
      simp [hk, this]

@[simp] theorem clearFlags_nofCb (b : HarqBuf) (c : Nat) : (clearFlags b c).nofCb = b.nofCb :=
  (foldl_setCb (fun x => { x with flag := false }) c b).1

theorem clearFlags_cb (b : HarqBuf) (c k : Nat) :
    (clearFlags b c).cb k = if k < c then { b.cb k with flag := false } else b.cb k :=
  (foldl_setCb (fun x => { x with flag := false }) c b).2 k

@[simp] theorem deallocate_nofCb (b : HarqBuf) (n : Nat) : (deallocate b n).nofCb = b.nofCb :=
  (foldl_setCb (fun x => { x with alloc := false, flag := false }) n b).1

theorem deallocate_cb (b : HarqBuf) (n k : Nat) :
    (deallocate b n).cb k = if k < n then { b.cb k with alloc := false, flag := false } else b.cb k :=
  (foldl_setCb (fun x => { x with alloc := false, flag := false }) n b).2 k

/-! ### Saturation -/

theorem sat_range (v : Int) : -127 ≤ sat v ∧ sat v ≤ 127 := by
  unfold sat Config.llrMax
  omega

theorem satD_range (v : Int) : -127 ≤ satD v ∧ satD v ≤ 127 := by
  unfold satD Config.decMax
  omega

theorem sat_of_range {v : Int} (h : -127 ≤ v ∧ v ≤ 127) : sat v = v := by
  unfold sat Config.llrMax
  omega

/-! ### Soft buffers -/

theorem softAt_softSet (b : Sparse Int) (p q : Nat) (v : Int) :
    softAt (softSet b p v) q = if q = p then v else softAt b q :=
  sparseGet_set _ _ _ _ _

@[simp] theorem softAt_softZero (p : Nat) : softAt softZero p = 0 := rfl

theorem foldl_softSet (base n : Nat) (v : Int) (b : Sparse Int) (q : Nat) :
    softAt ((List.range n).foldl (fun b t => softSet b (base + t) v) b) q
      = if base ≤ q ∧ q < base + n then v else softAt b q := by
  induction n with
  | zero =>
    simp
  | succ n ih =>
    rw [List.range_succ, List.foldl_append]
    simp only [List.foldl_cons, List.foldl_nil, softAt_softSet, ih]
    by_cases hq : q = base + n
    · simp [hq]
    · by_cases hr : base ≤ q ∧ q < base + n
      · have : base ≤ q ∧ q < base + (n + 1) := by omega
        simp [hq, hr, this]
      · have : ¬ (base ≤ q ∧ q < base + (n + 1)) := by omega
        simp [hq, hr, this]

/-! ### Bit arrays -/

theorem bitsWrite_zero (old new : List Bool) : bitsWrite old 0 new = new ++ old.drop new.length := by
  simp [bitsWrite]

/-- A bit after a write that starts no later than the list's end: the bit written, or the bit that was there. -/
theorem bitAt_bitsWrite (old new : List Bool) (off k : Nat) (h : off ≤ old.length) :
    bitAt (bitsWrite old off new) k = if off ≤ k ∧ k < off + new.length then bitAt new (k - off) else bitAt old k := by
  have hl : (old.take off).length = off := by simp [h]
  simp only [bitAt, bitsWrite, List.getD_eq_getElem?_getD, List.append_assoc]
  by_cases h1 : k < off
  · rw [if_neg (by omega), List.getElem?_append_left (by omega), List.getElem?_take, if_pos h1]
  · rw [List.getElem?_append_right (by omega), hl]
    by_cases h2 : k - off < new.length
    · rw [if_pos (by omega), List.getElem?_append_left h2]
    · rw [if_neg (by omega), List.getElem?_append_right (by omega), List.getElem?_drop,
        show off + new.length + (k - off - new.length) = k by omega]

theorem length_bitsWrite (old new : List Bool) (off : Nat) (h : off ≤ old.length) :
    off + new.length ≤ (bitsWrite old off new).length := by
  simp [bitsWrite, h]

end Sys2Proof.Machine
end

