-- ==== Sys2Proof/Laws/End.lean ====
section
/-! SUPPORT. What END's parts give: its loop over the codeblocks, the kernels and their control, and the fields of the words it reports. -/

namespace Sys2Proof.Machine

/-! ### One codeblock -/

@[simp] theorem fetchOrAllocate_alloc (c : CbBuf) : (fetchOrAllocate c).alloc = true := by
  unfold fetchOrAllocate
  split <;> simp_all

@[simp] theorem fetchOrAllocate_flag (c : CbBuf) : (fetchOrAllocate c).flag = c.flag := by
  unfold fetchOrAllocate
  split <;> rfl

theorem fetchOrAllocate_soft (c : CbBuf) : (fetchOrAllocate c).soft = if c.alloc then c.soft else softZero := by
  unfold fetchOrAllocate
  split <;> simp_all

theorem fetchOrAllocate_msg (c : CbBuf) : (fetchOrAllocate c).msg = if c.alloc then c.msg else [] := by
  unfold fetchOrAllocate
  split <;> simp_all

section Decode

variable (ps : Params) (early : Bool) (maxIter : Nat) (seg : Seg) (ncb : Nat) (p : Crc) (c : CbBuf)

@[simp] theorem decodeStep_soft : (decodeStep ps early maxIter seg ncb p c).1.soft = c.soft := by
  unfold decodeStep
  split <;> rfl

@[simp] theorem decodeStep_alloc : (decodeStep ps early maxIter seg ncb p c).1.alloc = c.alloc := by
  unfold decodeStep
  split <;> rfl

/-- After the decode step the flag is what the record calls CB_PASS (43_ldpc_decoder.md R232). -/
theorem decodeStep_flag :
    (decodeStep ps early maxIter seg ncb p c).1.flag = (decodeStep ps early maxIter seg ncb p c).2.cbPass := by
  unfold decodeStep
  split <;> simp_all

@[simp] theorem decodeStep_attempted : (decodeStep ps early maxIter seg ncb p c).2.attempted = !c.flag := by
  unfold decodeStep
  split <;> simp_all

theorem decodeStep_skip (h : c.flag = true) :
    decodeStep ps early maxIter seg ncb p c = (c, { attempted := false, iter := 0, cbPass := true }) := by
  simp [decodeStep, h]

theorem decodeStep_attempt (h : c.flag = false) :
    decodeStep ps early maxIter seg ncb p c =
      ({ c with msg := bitsWrite c.msg 0 (attemptDecode ps early maxIter seg ncb p c.soft).bits
                flag := (attemptDecode ps early maxIter seg ncb p c.soft).pass },
       { attempted := true
         iter := (attemptDecode ps early maxIter seg ncb p c.soft).iter
         cbPass := (attemptDecode ps early maxIter seg ncb p c.soft).pass }) := by
  simp [decodeStep, h]

end Decode

/-! ### The control -/

theorem referenceRun_length (rows : List (List Block)) (inp : KernelIn) (n : Nat) (sc : Scratch) :
    (referenceRun rows inp n sc).length = n := by
  induction n generalizing sc with
  | zero => rfl
  | succ n ih => simp [referenceRun, ih]

/-- Every kernel gives MAX_ITER hard decisions (43_ldpc_decoder.md R233). -/
@[simp] theorem runKernel_length (k : Kernel) (src : ShiftSource) (inp : KernelIn) :
    (runKernel k src inp).length = inp.maxIter := by
  cases k <;> simp [runKernel, referenceKernel, hardDecisionKernel, otherKernelRun, referenceRun_length]

/-- The scan counts from `t` and ends at a pass or with the whole budget. -/
theorem earlyStopScan_iter (p : Crc) (maxIter : Nat) (ds : List (List Bool)) (t : Nat) (last : List Bool) :
    ((earlyStopScan p maxIter t last ds).pass = false → (earlyStopScan p maxIter t last ds).iter = maxIter) ∧
    ((earlyStopScan p maxIter t last ds).pass = true →
      t ≤ (earlyStopScan p maxIter t last ds).iter ∧ (earlyStopScan p maxIter t last ds).iter < t + ds.length) := by
  induction ds generalizing t last with
  | nil => simp [earlyStopScan]
  | cons c cs ih =>
    unfold earlyStopScan
    split
    · simp
    · refine ⟨(ih (t + 1) c).1, fun h => ?_⟩
      have := (ih (t + 1) c).2 h
      simp only [List.length_cons]
      omega

/-- The recorded count (43_ldpc_decoder.md R234). -/
theorem decodeCb_iter (early : Bool) (p : Crc) (maxIter : Nat) (ds : List (List Bool)) (hl : ds.length = maxIter) :
    (decodeCb early p maxIter ds).iter ≤ maxIter ∧
    (1 ≤ maxIter → 1 ≤ (decodeCb early p maxIter ds).iter) ∧
    ((decodeCb early p maxIter ds).pass = false ∨ early = false → (decodeCb early p maxIter ds).iter = maxIter) := by
  unfold decodeCb
  cases early with
  | false => simp [fullRun]
  | true =>
    have h := earlyStopScan_iter p maxIter ds 1 []
    simp only [if_true]
    cases hp : (earlyStopScan p maxIter 1 [] ds).pass with
    | false =>
      have := h.1 hp
      exact ⟨by omega, by omega, by simp [this]⟩
    | true =>
      have := h.2 hp
      exact ⟨by omega, by omega, by simp⟩

theorem attemptDecode_iter (ps : Params) (early : Bool) (maxIter : Nat) (seg : Seg) (ncb : Nat) (p : Crc)
    (soft : Sparse Int) :
    (attemptDecode ps early maxIter seg ncb p soft).iter ≤ maxIter ∧
    (1 ≤ maxIter → 1 ≤ (attemptDecode ps early maxIter seg ncb p soft).iter) ∧
    ((attemptDecode ps early maxIter seg ncb p soft).pass = false ∨ early = false →
      (attemptDecode ps early maxIter seg ncb p soft).iter = maxIter) :=
  decodeCb_iter _ _ _ _ (runKernel_length _ _ _)

/-! ### The loop -/

/-- Where codeblock r's span of ACC starts (41_segmentation.md R171). -/
def EndPlan.start (p : EndPlan) (r : Nat) : Nat := ((List.range r).map p.len).sum

theorem EndPlan.start_succ (p : EndPlan) (r : Nat) : p.start (r + 1) = p.start r + p.len r := by
  simp [EndPlan.start, List.range_succ]

/-- What the loop over codeblocks 0..n-1 leaves: each codeblock's buffers are changed by its own contents, its own span and nothing else;
the records are in order. -/
theorem endFold (ps : Params) (ss : Session) (p : EndPlan) (acc : List Int) (b : HarqBuf) (tba : List Bool) (n : Nat) :
    let l := (List.range n).foldl (endCodeblock ps ss p acc) { harq := b, off := 0, otb := 0, tba := tba, recs := [] }
    let one := fun r => endBuffers ps ss p acc (p.start r) r (b.cb r)
    l.off = p.start n ∧ l.harq.nofCb = b.nofCb ∧
    l.recs = (List.range n).map (fun r => (one r).2) ∧
    (∀ k, l.harq.cb k = if k < n then (one k).1 else b.cb k) ∧
    (l.tba, l.otb) = (List.range n).foldl (fun (t : List Bool × Nat) r =>
        (bitsWrite t.1 t.2 (assembleBits (one r).1.msg (assembleLen p.seg p.tbc t.2)), t.2 + assembleLen p.seg p.tbc t.2))
      (tba, 0) := by
  induction n with
  | zero => simp [EndPlan.start]
  | succ n ih =>
    simp only at ih ⊢
    obtain ⟨ho, hn, hr, hc, ht⟩ := ih
    have hcn : ∀ l : EndLoop, l = (List.range n).foldl (endCodeblock ps ss p acc)
        { harq := b, off := 0, otb := 0, tba := tba, recs := [] } → l.harq.cb n = b.cb n := by
      rintro l rfl
      simp [hc]
    simp only [List.range_succ, List.foldl_append, List.foldl_cons, List.foldl_nil, List.map_append, List.map_cons,
      List.map_nil]
    generalize hl : (List.range n).foldl (endCodeblock ps ss p acc)
        { harq := b, off := 0, otb := 0, tba := tba, recs := [] } = l at *
    have hb := hcn l rfl
    refine ⟨?_, ?_, ?_, fun k => ?_, ?_⟩
    · simp [endCodeblock, ho, EndPlan.start_succ]
    · simp [endCodeblock, hn]
    · simp [endCodeblock, hr, ho, hb]
    · simp only [endCodeblock, HarqBuf.setCb_cb, hc, ho]
      by_cases hk : k = n
      · subst hk
        simp
      · have : k < n + 1 ↔ k < n := by omega
        simp [hk, this]
    · rw [← ht]
      simp [endCodeblock, ho, hb]

/-! ### The TB decision -/

/-- What the TB decision does to the buffer: nothing, or the flags of codeblocks 0..C-1 cleared (44_crc_tb_assembly.md R271, R273). -/
theorem decisionFlags_cases (b : HarqBuf) (tba : List Bool) (c a : Nat) :
    decisionFlags b tba c a = b ∨
    (1 < c ∧ allFlags b c = true ∧ tbCrcOk tba a = false ∧ decisionFlags b tba c a = clearFlags b c) := by
  unfold decisionFlags
  split
  · rename_i h
    exact .inr ⟨h.1, h.2.1, h.2.2, rfl⟩
  · exact .inl rfl

@[simp] theorem decisionFlags_nofCb (b : HarqBuf) (tba : List Bool) (c a : Nat) :
    (decisionFlags b tba c a).nofCb = b.nofCb := by
  rcases decisionFlags_cases b tba c a with h | ⟨-, -, -, h⟩ <;> simp [h]

/-- Apart from flags below C, the decision leaves every codeblock as it was. -/
theorem decisionFlags_cb (b : HarqBuf) (tba : List Bool) (c a k : Nat) :
    (decisionFlags b tba c a).cb k =
      { b.cb k with flag := if k < c then ((decisionFlags b tba c a).cb k).flag else (b.cb k).flag } := by
  rcases decisionFlags_cases b tba c a with h | ⟨-, -, -, h⟩
  · rw [h]
    split <;> rfl
  · rw [h, clearFlags_cb]
    split <;> simp_all

/-! ### The fields END writes, and those it leaves -/

@[simp] theorem endEffect_params (s : State) (p : EndPlan) : (endEffect s p).params = s.params := rfl
@[simp] theorem endEffect_ieDone (s : State) (p : EndPlan) : (endEffect s p).ieDone = s.ieDone := rfl
@[simp] theorem endEffect_ieFault (s : State) (p : EndPlan) : (endEffect s p).ieFault = s.ieFault := rfl
@[simp] theorem endEffect_fault (s : State) (p : EndPlan) : (endEffect s p).fault = s.fault := rfl
@[simp] theorem endEffect_pending (s : State) (p : EndPlan) : (endEffect s p).pending = s.pending := rfl
@[simp] theorem endEffect_faultCause (s : State) (p : EndPlan) : (endEffect s p).faultCause = s.faultCause := rfl
@[simp] theorem endEffect_faultCmd (s : State) (p : EndPlan) : (endEffect s p).faultCmd = s.faultCmd := rfl
@[simp] theorem endEffect_faultInfo (s : State) (p : EndPlan) : (endEffect s p).faultInfo = s.faultInfo := rfl
@[simp] theorem endEffect_cfgTbBytes (s : State) (p : EndPlan) : (endEffect s p).cfgTbBytes = s.cfgTbBytes := rfl
@[simp] theorem endEffect_cfgCoding (s : State) (p : EndPlan) : (endEffect s p).cfgCoding = s.cfgCoding := rfl
@[simp] theorem endEffect_cfgNref (s : State) (p : EndPlan) : (endEffect s p).cfgNref = s.cfgNref := rfl
@[simp] theorem endEffect_cfgHarqId (s : State) (p : EndPlan) : (endEffect s p).cfgHarqId = s.cfgHarqId := rfl
@[simp] theorem endEffect_harqViewId (s : State) (p : EndPlan) : (endEffect s p).harqViewId = s.harqViewId := rfl
@[simp] theorem endEffect_sess (s : State) (p : EndPlan) : (endEffect s p).sess = s.sess := rfl
@[simp] theorem endEffect_inputs (s : State) (p : EndPlan) : (endEffect s p).inputs = s.inputs := rfl
@[simp] theorem endEffect_resp (s : State) (p : EndPlan) : (endEffect s p).resp = s.resp := rfl
@[simp] theorem endEffect_draws (s : State) (p : EndPlan) : (endEffect s p).draws = s.draws := rfl
@[simp] theorem endEffect_epoch (s : State) (p : EndPlan) : (endEffect s p).epoch = s.epoch := rfl
@[simp] theorem endEffect_done (s : State) (p : EndPlan) : (endEffect s p).done = true := rfl
@[simp] theorem endEffect_resSeq (s : State) (p : EndPlan) : (endEffect s p).resSeq = s.resSeq + 1 := rfl
@[simp] theorem endEffect_acc (s : State) (p : EndPlan) : (endEffect s p).acc = [] := rfl
@[simp] theorem endEffect_phase (s : State) (p : EndPlan) : (endEffect s p).phase = .idle := rfl
@[simp] theorem endEffect_tba (s : State) (p : EndPlan) : (endEffect s p).tba = (endLoop s p).tba := rfl

/-- Whether END finds the transport block correct (44_crc_tb_assembly.md R273). -/
def endOk (s : State) (p : EndPlan) : Bool := tbDecision (endLoop s p).harq (endLoop s p).tba p.seg.c p.seg.a

theorem endEffect_mem (s : State) (p : EndPlan) :
    (endEffect s p).mem =
      if endOk s p then memWriteBytes s.mem Config.tboutBase (tbBytesOf (endLoop s p).tba s.sess.tbBytes.toNat)
      else s.mem := rfl

theorem endEffect_res (s : State) (p : EndPlan) :
    (endEffect s p).res = report (endOk s p) (endLoop s p).recs p
      (decisionFlags (endLoop s p).harq (endLoop s p).tba p.seg.c p.seg.a) := rfl

/-! ### END as a whole -/

/-- END changes no other HARQ buffer, and of its own only codeblocks below C (40_commands.md R125). -/
theorem endEffect_harq (s : State) (p : EndPlan) :
    (∀ h, h ≠ s.sess.harqId.toNat → (endEffect s p).harq h = s.harq h) ∧
    ((endEffect s p).harq s.sess.harqId.toNat).nofCb = (s.harq s.sess.harqId.toNat).nofCb ∧
    ∀ r, ((endEffect s p).harq s.sess.harqId.toNat).cb r =
      if r < p.seg.c then
        { (endBuffers s.params s.sess p s.acc (p.start r) r ((endStartHarq s p).cb r)).1 with
          flag := (((endEffect s p).harq s.sess.harqId.toNat).cb r).flag }
      else (s.harq s.sess.harqId.toNat).cb r := by
  obtain ⟨-, hn, -, hc, -⟩ := endFold s.params s.sess p s.acc (endStartHarq s p) s.tba p.seg.c
  have hh : ∀ h, (endEffect s p).harq h =
      if h = s.sess.harqId.toNat then
        decisionFlags (endLoop s p).harq (endLoop s p).tba p.seg.c p.seg.a
      else s.harq h := fun h => State.setHarq_harq s _ h _
  have hs : (endStartHarq s p).nofCb = (s.harq s.sess.harqId.toNat).nofCb := by
    unfold endStartHarq
    split <;> simp
  refine ⟨fun h hne => by rw [hh, if_neg hne], ?_, fun r => ?_⟩
  · rw [hh, if_pos rfl, decisionFlags_nofCb]
    exact hn.trans hs
  · rw [hh, if_pos rfl, decisionFlags_cb]
    have hr := hc r
    split
    · rename_i hlt
      rw [if_pos hlt] at hr
      rw [← hr]
      simp [endLoop]
    · rename_i hge
      rw [if_neg hge] at hr
      have he : (endLoop s p).harq.cb r = (endStartHarq s p).cb r := hr
      rw [he]
      unfold endStartHarq
      split <;> simp [clearFlags_cb, hge]

/-- The records of END's loop, in codeblock order (44_crc_tb_assembly.md R274). -/
theorem endLoop_recs (s : State) (p : EndPlan) :
    (endLoop s p).recs = (List.range p.seg.c).map fun r =>
      (endBuffers s.params s.sess p s.acc (p.start r) r ((endStartHarq s p).cb r)).2 :=
  (endFold s.params s.sess p s.acc (endStartHarq s p) s.tba p.seg.c).2.2.1

/-- A codeblock's buffers in END's loop, as dematching leaves them (42_rate_dematch.md R194, R196). -/
theorem endBuffers_soft (ps : Params) (ss : Session) (p : EndPlan) (acc : List Int) (off r : Nat) (c : CbBuf) :
    (endBuffers ps ss p acc off r c).1.alloc = true ∧
    (endBuffers ps ss p acc off r c).1.soft =
      rateDematch ss.newData p.qm p.seg p.ncb p.k0 ((acc.drop off).take (p.len r)) (if c.alloc then c.soft else softZero) := by
  simp [endBuffers, fetchOrAllocate_soft]

/-- A codeblock is attempted exactly if its flag is clear; its record's pass bit is its flag after (43_ldpc_decoder.md R232). -/
theorem endBuffers_record (ps : Params) (ss : Session) (p : EndPlan) (acc : List Int) (off r : Nat) (c : CbBuf) :
    (endBuffers ps ss p acc off r c).2.attempted = !c.flag ∧
    (endBuffers ps ss p acc off r c).1.flag = (endBuffers ps ss p acc off r c).2.cbPass ∧
    (endBuffers ps ss p acc off r c).2.iter ≤ ss.maxIter.toNat := by
  refine ⟨by simp [endBuffers], decodeStep_flag _ _ _ _ _ _ _, ?_⟩
  unfold endBuffers decodeStep
  simp only
  split
  · simp
  · exact (attemptDecode_iter _ _ _ _ _ _ _).1

/-! ### The report's words -/

/-- Bit 0 of RES_SUMMARY is TB_CRC_OK, bit 1 is RES_VALID, the upper half is NOF_CB (10_state.md R37). -/
theorem summaryWord_toNat (n : Nat) (ok : Bool) :
    (summaryWord n ok).toNat = n % 2 ^ 16 * 2 ^ 16 + 2 + ok.toNat := by
  show BitVec.toNat (BitVec.ofNat 16 n ++ 0#14 ++ 1#1 ++ BitVec.ofBool ok) = _
  have hk : (BitVec.ofBool ok).toNat = ok.toNat := by cases ok <;> rfl
  have hb : ok.toNat < 2 ^ 1 := Bool.toNat_lt ok
  rw [BitVec.toNat_append, BitVec.toNat_append, BitVec.toNat_append, hk, ← Nat.shiftLeft_add_eq_or_of_lt hb,
    ← Nat.shiftLeft_add_eq_or_of_lt (1#1).isLt, ← Nat.shiftLeft_add_eq_or_of_lt (0#14).isLt]
  simp only [Nat.shiftLeft_eq, BitVec.toNat_ofNat]
  omega

/-- RES_CB as a number (10_state.md R40). -/
theorem cbWord_toNat (iter : Nat) (attempted cbPass flagEnd : Bool) :
    (cbWord iter attempted cbPass flagEnd).toNat =
      iter % 2 ^ 16 + attempted.toNat * 2 ^ 16 + cbPass.toNat * 2 ^ 17 + flagEnd.toNat * 2 ^ 18 := by
  show BitVec.toNat (0#13 ++ BitVec.ofBool flagEnd ++ BitVec.ofBool cbPass ++ BitVec.ofBool attempted
    ++ BitVec.ofNat 16 iter) = _
  have hk : ∀ b : Bool, (BitVec.ofBool b).toNat = b.toNat := by decide
  rw [BitVec.toNat_append, ← Nat.shiftLeft_add_eq_or_of_lt (BitVec.ofNat 16 iter).isLt,
    BitVec.toNat_append, ← Nat.shiftLeft_add_eq_or_of_lt (BitVec.ofBool attempted).isLt,
    BitVec.toNat_append, ← Nat.shiftLeft_add_eq_or_of_lt (BitVec.ofBool cbPass).isLt,
    BitVec.toNat_append, ← Nat.shiftLeft_add_eq_or_of_lt (BitVec.ofBool flagEnd).isLt]
  simp only [Nat.shiftLeft_eq, BitVec.toNat_ofNat, hk]
  omega

theorem getLsbD_eq_div (w : Word) (i : Nat) : w.getLsbD i = decide (w.toNat / 2 ^ i % 2 = 1) := by
  simp [BitVec.getLsbD, Nat.testBit_eq_decide_div_mod_eq]

/-- The fields of RES_CB (10_state.md R40). -/
theorem cbWord_fields (iter : Nat) (attempted cbPass flagEnd : Bool) (h : iter < 2 ^ 16) :
    ((cbWord iter attempted cbPass flagEnd).extractLsb' 0 16).toNat = iter ∧
    (cbWord iter attempted cbPass flagEnd).getLsbD 16 = attempted ∧
    (cbWord iter attempted cbPass flagEnd).getLsbD 17 = cbPass ∧
    (cbWord iter attempted cbPass flagEnd).getLsbD 18 = flagEnd := by
  simp only [getLsbD_eq_div, BitVec.extractLsb'_toNat, cbWord_toNat, Nat.shiftRight_zero]
  refine ⟨?_, ?_, ?_, ?_⟩
  · omega
  all_goals
    cases attempted <;> cases cbPass <;> cases flagEnd <;> simp <;> omega

end Sys2Proof.Machine
end

