-- ==== Sys2Proof/Laws/PerInstr.lean ====
section
/-! SUPPORT. A fact about every instruction as syntax, one lemma per constructor: what a well-formed instruction is on the wire. -/

namespace Sys2Proof.Laws

/-- On the wire: a command word has one of the five opcodes; a transaction has an address of 19 bits, and a write no data beyond
SIZE bytes (30_encoding.md R94, R98). -/
def OnTheWire.Statement (i : Instr) : Prop :=
  i.wf = true →
    match encode i with
    | .command w => w.toNat < 0x05000000
    | .transaction (.read _ addr) => addr < 2 ^ 19
    | .transaction (.write size addr v) => addr < 2 ^ 19 ∧ v.toNat < 2 ^ (8 * size.bytes)

theorem OnTheWire.nop : OnTheWire.Statement .nop := fun _ => show _ < 0x05000000 by decide

theorem OnTheWire.harqAlloc (hid : BitVec 8) (ncb : BitVec 16) : OnTheWire.Statement (.harqAlloc hid ncb) := fun _ => by
  have h1 := hid.isLt
  have h2 := ncb.isLt
  show (0x01#8 ++ hid ++ ncb).toNat < 0x05000000
  simp only [BitVec.toNat_append]
  rw [← Nat.shiftLeft_add_eq_or_of_lt h2, ← Nat.shiftLeft_add_eq_or_of_lt h1]
  simp only [Nat.shiftLeft_eq, show (0x01#8).toNat = 1 by decide]
  omega

theorem OnTheWire.beginSession : OnTheWire.Statement .beginSession := fun _ => show _ < 0x05000000 by decide

theorem OnTheWire.push (len : BitVec 13) : OnTheWire.Statement (.push len) := fun _ => by
  have h := len.isLt
  show (0x03#8 ++ 0#11 ++ len).toNat < 0x05000000
  rw [BitVec.toNat_append, ← Nat.shiftLeft_add_eq_or_of_lt h]
  simp only [Nat.shiftLeft_eq, show (0x03#8 ++ 0#11).toNat = 6144 by decide]
  omega

theorem OnTheWire.endSession : OnTheWire.Statement .endSession := fun _ => show _ < 0x05000000 by decide

theorem wdataFits_lt {size : Size} {v : Word} (h : wdataFits size v = true) : v.toNat < 2 ^ (8 * size.bytes) := by
  simpa [wdataFits] using h

theorem OnTheWire.cmdWr (size : Size) (v : Word) : OnTheWire.Statement (.cmdWr size v) :=
  fun h => ⟨by norm_num, wdataFits_lt h⟩

theorem OnTheWire.ctrlWr (size : Size) (v : Word) : OnTheWire.Statement (.ctrlWr size v) :=
  fun h => ⟨by norm_num, wdataFits_lt h⟩

theorem OnTheWire.statusWr (size : Size) (v : Word) : OnTheWire.Statement (.statusWr size v) :=
  fun h => ⟨by norm_num, wdataFits_lt h⟩

theorem OnTheWire.regWr (off : BitVec 4) (size : Size) (v : Word) : OnTheWire.Statement (.regWr off size v) :=
  fun h => ⟨by have := off.isLt; omega, wdataFits_lt h⟩

theorem OnTheWire.regWrView (size : Size) (v : Word) : OnTheWire.Statement (.regWrView size v) :=
  fun h => ⟨by norm_num, wdataFits_lt h⟩

theorem OnTheWire.regWrIgnored (off : BitVec 12) (size : Size) (v : Word) :
    OnTheWire.Statement (.regWrIgnored off size v) :=
  fun h => ⟨by have := off.isLt; omega, wdataFits_lt ((Bool.and_eq_true _ _).mp h).1⟩

theorem OnTheWire.regRd (off : BitVec 12) (size : Size) : OnTheWire.Statement (.regRd off size) :=
  fun _ => by have := off.isLt; show off.toNat < 2 ^ 19; omega

theorem OnTheWire.stageWr (off : BitVec 12) (size : Size) (v : Word) : OnTheWire.Statement (.stageWr off size v) :=
  fun h => ⟨by have := off.isLt; omega, wdataFits_lt h⟩

theorem OnTheWire.stageRd (off : BitVec 12) (size : Size) : OnTheWire.Statement (.stageRd off size) :=
  fun _ => by have := off.isLt; show 0x01000 + off.toNat < 2 ^ 19; omega

theorem OnTheWire.tboutRd (off : BitVec 18) (size : Size) : OnTheWire.Statement (.tboutRd off size) :=
  fun _ => by have := off.isLt; show 0x40000 + off.toNat < 2 ^ 19; omega

theorem OnTheWire.tboutWrIgnored (off : BitVec 18) (size : Size) (v : Word) :
    OnTheWire.Statement (.tboutWrIgnored off size v) :=
  fun h => ⟨by have := off.isLt; omega, wdataFits_lt h⟩

theorem OnTheWire.rsvdRd (addr : BitVec 18) (size : Size) : OnTheWire.Statement (.rsvdRd addr size) :=
  fun _ => by have := addr.isLt; show addr.toNat < 2 ^ 19; omega

theorem OnTheWire.rsvdWr (addr : BitVec 18) (size : Size) (v : Word) : OnTheWire.Statement (.rsvdWr addr size v) :=
  fun h => ⟨by have := addr.isLt; omega, wdataFits_lt ((Bool.and_eq_true _ _).mp h).1⟩

end Sys2Proof.Laws
end

