-- ==== Sys2Proof/Laws/Steps.lean ====
section
/-! SUPPORT. What one step can do, said once: the rules of the commands, the effects of the transactions, the step itself. -/

namespace Sys2Proof.Machine

/-! ### Decoding -/

theorem eq_of_opc {w : Word} {opc : BitVec 8} {low : BitVec 24} (h1 : opcOf w = opc) (h2 : w.extractLsb' 0 24 = low) :
    w = opc ++ low := by
  subst h1 h2
  apply BitVec.eq_of_toNat_eq
  rw [BitVec.toNat_append, ← Nat.shiftLeft_add_eq_or_of_lt (w.extractLsb' 0 24).isLt]
  simp only [opcOf, BitVec.extractLsb'_toNat, Nat.shiftLeft_eq, Nat.shiftRight_eq_div_pow]
  have := w.isLt
  omega

/-- The words the decoder takes, each with its instruction. -/
theorem decodeCommand_ok {w : Word} {i : Instr} (h : decodeCommand w = .ok i) :
    (w = 0x00000000#32 ∧ i = .nop) ∨
    (opcOf w = 0x01#8 ∧ i = .harqAlloc (hidOf w) (ncbOf w)) ∨
    (w = 0x02000000#32 ∧ i = .beginSession) ∨
    (opcOf w = 0x03#8 ∧ reservedP w = 0 ∧ i = .push (lenOf w)) ∨
    (w = 0x04000000#32 ∧ i = .endSession) := by
  unfold decodeCommand formatZ at h
  split at h
  · rename_i ho
    split at h
    · rename_i hz
      exact .inl ⟨eq_of_opc ho hz, by simpa using h.symm⟩
    · cases h
  · split at h
    · rename_i ho
      exact .inr (.inl ⟨ho, by simpa using h.symm⟩)
    · split at h
      · rename_i ho
        split at h
        · rename_i hz
          exact .inr (.inr (.inl ⟨eq_of_opc ho hz, by simpa using h.symm⟩))
        · cases h
      · split at h
        · rename_i ho
          split at h
          · rename_i hz
            exact .inr (.inr (.inr (.inl ⟨ho, hz, by simpa using h.symm⟩)))
          · cases h
        · split at h
          · rename_i ho
            split at h
            · rename_i hz
              exact .inr (.inr (.inr (.inr ⟨eq_of_opc ho hz, by simpa using h.symm⟩)))
            · cases h
          · cases h

theorem encodeH_fields (w : Word) (h : opcOf w = 0x01#8) : encodeH 0x01#8 (hidOf w) (ncbOf w) = w := by
  apply BitVec.eq_of_toNat_eq
  rw [← h]
  show BitVec.toNat (opcOf w ++ hidOf w ++ ncbOf w) = _
  rw [BitVec.toNat_append, ← Nat.shiftLeft_add_eq_or_of_lt (ncbOf w).isLt,
    BitVec.toNat_append, ← Nat.shiftLeft_add_eq_or_of_lt (hidOf w).isLt]
  simp only [opcOf, hidOf, ncbOf, BitVec.extractLsb'_toNat, Nat.shiftLeft_eq, Nat.shiftRight_eq_div_pow]
  have := w.isLt
  omega

theorem encodeP_fields (w : Word) (h : opcOf w = 0x03#8) (hr : reservedP w = 0) : encodeP 0x03#8 (lenOf w) = w := by
  apply BitVec.eq_of_toNat_eq
  rw [← h]
  show BitVec.toNat (opcOf w ++ 0#11 ++ lenOf w) = _
  rw [show (0#11) = reservedP w from hr.symm, BitVec.toNat_append, ← Nat.shiftLeft_add_eq_or_of_lt (lenOf w).isLt,
    BitVec.toNat_append, ← Nat.shiftLeft_add_eq_or_of_lt (reservedP w).isLt]
  simp only [opcOf, reservedP, lenOf, BitVec.extractLsb'_toNat, Nat.shiftLeft_eq, Nat.shiftRight_eq_div_pow]
  have := w.isLt
  omega

/-- A decoded command's word is the one decoded, so FAULT_CMD records it. -/
theorem commandWord_decode {w : Word} {i : Instr} (h : decodeCommand w = .ok i) : commandWord i = w := by
  rcases decodeCommand_ok h with ⟨rfl, rfl⟩ | ⟨ho, rfl⟩ | ⟨rfl, rfl⟩ | ⟨ho, hr, rfl⟩ | ⟨rfl, rfl⟩
  · rfl
  · exact encodeH_fields w ho
  · rfl
  · exact encodeP_fields w ho hr
  · rfl

/-! ### The rules of the commands -/

/-- HARQ_ALLOC goes through only with its checks passed, and then it does this (40_commands.md R122). -/
theorem harqAllocRule_ok {hid : BitVec 8} {ncb : BitVec 16} {s t : State} (h : harqAllocRule hid ncb s = .ok t) :
    s.phase = .idle ∧ hid.toNat < s.params.numHarq ∧ 1 ≤ ncb.toNat ∧ ncb.toNat ≤ s.params.maxCb ∧
    t = s.setHarq hid.toNat { deallocate (s.harq hid.toNat) s.params.maxCb with nofCb := ncb.toNat } := by
  unfold harqAllocRule at h
  split at h
  · cases h
  · split at h
    · cases h
    · split at h
      · cases h
      · rename_i h1 h2 h3
        simp only [Except.ok.injEq] at h
        exact ⟨by simpa using h1, by omega, by omega, by omega, h.symm⟩

theorem harqAllocRule_error {hid : BitVec 8} {ncb : BitVec 16} {s : State} {e : Raise}
    (h : harqAllocRule hid ncb s = .error e) : e.1 ≠ .none := by
  unfold harqAllocRule at h
  repeat' split at h
  all_goals first | (cases h; exact fun hn => nomatch hn) | cases h

/-- BEGIN goes through only with its checks passed, and then it does this (40_commands.md R123). -/
theorem beginRule_ok {s t : State} (h : beginRule s = .ok t) :
    s.phase = .idle ∧ (latchSession s).Legal s.params ∧
    t = { s with sess := latchSession s, acc := [], phase := .accum } := by
  unfold beginRule at h
  repeat' split at h
  all_goals cases h
  rename_i h1 h2 h3 h4 h5 h6 h7
  simp only [Classical.not_not] at h1 h2 h3 h4 h5 h6 h7
  exact ⟨h1, ⟨h2, h3, by simpa [legalQm, latchSession] using h4, h5, h6, h7⟩, rfl⟩

theorem beginRule_error {s : State} {e : Raise} (h : beginRule s = .error e) : e.1 ≠ .none := by
  unfold beginRule at h
  repeat' split at h
  all_goals first | (cases h; exact fun hn => nomatch hn) | cases h

/-- PUSH goes through only with its checks passed, and then it does this (40_commands.md R124). -/
theorem pushRule_ok {len : BitVec 13} {s t : State} (h : pushRule len s = .ok t) :
    s.phase = .accum ∧ len.toNat ≤ 4096 ∧ s.accCount + len.toNat ≤ s.params.maxSoftbits ∧
    t = { s with acc := s.acc ++ stagedLlrs s len.toNat } := by
  unfold pushRule at h
  repeat' split at h
  all_goals cases h
  rename_i h1 h2 h3
  simp only [Classical.not_not] at h1 h2 h3
  exact ⟨h1, h2, h3, rfl⟩

theorem pushRule_error {len : BitVec 13} {s : State} {e : Raise} (h : pushRule len s = .error e) : e.1 ≠ .none := by
  unfold pushRule at h
  repeat' split at h
  all_goals first | (cases h; exact fun hn => nomatch hn) | cases h

/-- END goes through only with its checks passed, and then it does this (40_commands.md R125). -/
theorem endRule_ok {s t : State} (h : endRule s = .ok t) : EndChecks s ∧ t = endEffect s (endPlan s) := by
  unfold endRule at h
  repeat' split at h
  all_goals cases h
  rename_i h1 h2 h3 h4 h5
  simp only [Classical.not_not] at h1 h2 h3 h4 h5
  exact ⟨⟨h1, h2, h3, h4, h5⟩, rfl⟩

theorem endRule_of_checks {s : State} (h : EndChecks s) : endRule s = .ok (endEffect s (endPlan s)) := by
  obtain ⟨h1, h2, h3, h4, h5⟩ := h
  have h4' : (endPlan s).seg.c ≤ s.params.maxCb := h4
  have h5' : (endPlan s).seg.c = (s.harq s.sess.harqId.toNat).nofCb := h5
  unfold endRule
  simp [h1, h2, h3, h4', ← h5']

theorem endRule_error {s : State} {e : Raise} (h : endRule s = .error e) : e.1 ≠ .none := by
  unfold endRule at h
  repeat' split at h
  all_goals first | (cases h; exact fun hn => nomatch hn) | cases h

/-- All that a decoded command can do: nothing but end while faulted, fault entry, or its effect. -/
theorem execCommand_cases {w : Word} {i : Instr} {s t : State} (hd : decodeCommand w = .ok i) (h : exec i s = .next t) :
    (s.fault = true ∧ t = s.endStep) ∨
    (s.fault = false ∧ ∃ e : Raise, e.1 ≠ .none ∧ t = takeFault w e s) ∨
    (s.fault = false ∧
      ((w = 0x00000000#32 ∧ t = s.endStep) ∨
       (opcOf w = 0x01#8 ∧ s.phase = .idle ∧ (hidOf w).toNat < s.params.numHarq ∧ 1 ≤ (ncbOf w).toNat ∧
        (ncbOf w).toNat ≤ s.params.maxCb ∧
        t = (s.setHarq (hidOf w).toNat
          { deallocate (s.harq (hidOf w).toNat) s.params.maxCb with nofCb := (ncbOf w).toNat }).endStep) ∨
       (w = 0x02000000#32 ∧ s.phase = .idle ∧ (latchSession s).Legal s.params ∧
        t = { s with sess := latchSession s, acc := [], phase := .accum, pending := none }) ∨
       (opcOf w = 0x03#8 ∧ s.phase = .accum ∧ (lenOf w).toNat ≤ 4096 ∧
        s.accCount + (lenOf w).toNat ≤ s.params.maxSoftbits ∧
        t = { s with acc := s.acc ++ stagedLlrs s (lenOf w).toNat, pending := none }) ∨
       (w = 0x04000000#32 ∧ EndChecks s ∧ t = (endEffect s (endPlan s)).endStep))) := by
  have key : ∀ rule : State → Except Raise State, (∀ e, rule s = .error e → e.1 ≠ .none) → t = commandStep w rule s →
      (s.fault = true ∧ t = s.endStep) ∨ (s.fault = false ∧ ∃ e : Raise, e.1 ≠ .none ∧ t = takeFault w e s) ∨
      (s.fault = false ∧ ∃ u, rule s = .ok u ∧ t = u.endStep) := by
    rintro rule he rfl
    rcases commandStep_cases w rule s with ⟨hf, hc⟩ | ⟨hf, u, hu, hc⟩ | ⟨hf, e, hr, hc⟩
    · exact .inl ⟨hf, hc⟩
    · exact .inr (.inr ⟨hf, u, hu, hc⟩)
    · exact .inr (.inl ⟨hf, e, he e hr, hc⟩)
  have hw := commandWord_decode hd
  rcases decodeCommand_ok hd with ⟨h0, rfl⟩ | ⟨h0, rfl⟩ | ⟨h0, rfl⟩ | ⟨h0, -, rfl⟩ | ⟨h0, rfl⟩ <;>
    (simp only [exec, execNop, execHarqAlloc, execBegin, execPush, execEnd, hw] at h;
     have ht := (Host.Outcome.next.inj h).symm)
  · rcases key _ (fun e he => by cases he) ht with c | c | ⟨hf, u, hu, rfl⟩
    · exact .inl c
    · exact .inr (.inl c)
    · cases hu
      exact .inr (.inr ⟨hf, .inl ⟨h0, rfl⟩⟩)
  · rcases key _ (fun e he => harqAllocRule_error he) ht with c | c | ⟨hf, u, hu, rfl⟩
    · exact .inl c
    · exact .inr (.inl c)
    · obtain ⟨h1, h2, h3, h4, rfl⟩ := harqAllocRule_ok hu
      exact .inr (.inr ⟨hf, .inr (.inl ⟨h0, h1, h2, h3, h4, rfl⟩)⟩)
  · rcases key _ (fun e he => beginRule_error he) ht with c | c | ⟨hf, u, hu, rfl⟩
    · exact .inl c
    · exact .inr (.inl c)
    · obtain ⟨h1, h2, rfl⟩ := beginRule_ok hu
      exact .inr (.inr ⟨hf, .inr (.inr (.inl ⟨h0, h1, h2, rfl⟩))⟩)
  · rcases key _ (fun e he => pushRule_error he) ht with c | c | ⟨hf, u, hu, rfl⟩
    · exact .inl c
    · exact .inr (.inl c)
    · obtain ⟨h1, h2, h3, rfl⟩ := pushRule_ok hu
      exact .inr (.inr ⟨hf, .inr (.inr (.inr (.inl ⟨h0, h1, h2, h3, rfl⟩)))⟩)
  · rcases key _ (fun e he => endRule_error he) ht with c | c | ⟨hf, u, hu, rfl⟩
    · exact .inl c
    · exact .inr (.inl c)
    · obtain ⟨h1, rfl⟩ := endRule_ok hu
      exact .inr (.inr ⟨hf, .inr (.inr (.inr (.inr ⟨h0, h1, rfl⟩)))⟩)

/-! ### Transactions -/

/-- All that a transaction can do, beside its answer: nothing, or one of the effects of a legal write at that write's address. -/
theorem execTxn_cases {x : Txn} {s t : State} (h : exec (decodeTxn x) s = .next t) :
    ∃ u, t = { u with resp := t.resp, draws := t.draws } ∧
      (u = s ∨ ∃ size a v, x = .write size a v ∧
        ((a % 2 ^ 19 = 0x034 ∧ size = .four ∧ u = acceptCommand v s) ∨
         (a % 2 ^ 19 = 0x020 ∧ size = .four ∧ u = writeCtrl v s) ∨
         (a % 2 ^ 19 = 0x024 ∧ size = .four ∧ u = writeStatus v s) ∨
         (∃ off, u = writeCfg s off v) ∨
         (u = writeView v s) ∨
         ∃ off w, off + size.bytes ≤ 4096 ∧ u = writeStage off size w s)) := by
  cases x with
  | read size a =>
    have key : ∀ legal answer, (∀ u, answer u = { u with resp := (answer u).resp, draws := (answer u).draws }) →
        (Host.Outcome.next (busRead legal size answer s) : Host.Outcome State Fault Refusal) = .next t →
        t = { s with resp := t.resp, draws := t.draws } := by
      rintro legal answer ha ⟨⟩
      cases legal with
      | true => exact ha s
      | false => rfl
    refine ⟨s, ?_, .inl rfl⟩
    simp only [decodeTxn, decodeRead] at h
    split at h
    · refine key _ _ (fun u => ?_) h
      rcases readRegister_cases u (((effectiveAddr a).extractLsb' 0 12).toNat) with ⟨-, e⟩ | ⟨g, -, -, e⟩ | ⟨g, -, -, e⟩ <;>
        (rw [e]; rfl)
    split at h
    · exact key _ _ (fun u => rfl) h
    split at h
    · refine key _ _ (fun u => ?_) h
      unfold readTbout
      split <;> rfl
    · exact key _ _ (fun u => rfl) h
  | write size a v =>
    have key : ∀ legal effect, (legal = true → size = .four) →
        (Host.Outcome.next (busWrite legal effect s) : Host.Outcome State Fault Refusal) = .next t →
        t = { s with resp := t.resp, draws := t.draws } ∨
        (size = .four ∧ wdataLanes size v = v ∧ t = { effect s with resp := t.resp, draws := t.draws }) := by
      rintro legal effect hl ⟨⟩
      cases legal with
      | true => exact .inr ⟨hl rfl, by rw [hl rfl]; rfl, rfl⟩
      | false => exact .inl rfl
    have four : ∀ addr, regLegal size addr = true → size = .four := by
      intro addr hr
      simp only [regLegal, Bool.and_eq_true, beq_iff_eq] at hr
      exact hr.1
    have at_ : ∀ p : BitVec 19, rowMatches (effectiveAddr a) p 0x7FFFF#19 = true → a % 2 ^ 19 = p.toNat := by
      intro p hp
      have hm : effectiveAddr a &&& 0x7FFFF#19 = effectiveAddr a := by
        rw [show (0x7FFFF#19) = BitVec.allOnes 19 by decide]
        exact BitVec.and_allOnes
      simp only [rowMatches, beq_iff_eq, hm] at hp
      rw [← hp]
      simp [effectiveAddr]
    simp only [decodeTxn, decodeWrite] at h
    split at h
    · rename_i hm
      rcases key _ _ (four _) h with ht | ⟨h4, hv, ht⟩
      · exact ⟨s, ht, .inl rfl⟩
      · rw [hv] at ht
        exact ⟨_, ht, .inr ⟨size, a, v, rfl, .inl ⟨at_ _ hm, h4, rfl⟩⟩⟩
    split at h
    · rename_i hm
      rcases key _ _ (four _) h with ht | ⟨h4, hv, ht⟩
      · exact ⟨s, ht, .inl rfl⟩
      · rw [hv] at ht
        exact ⟨_, ht, .inr ⟨size, a, v, rfl, .inr (.inl ⟨at_ _ hm, h4, rfl⟩)⟩⟩
    split at h
    · rename_i hm
      rcases key _ _ (four _) h with ht | ⟨h4, hv, ht⟩
      · exact ⟨s, ht, .inl rfl⟩
      · rw [hv] at ht
        exact ⟨_, ht, .inr ⟨size, a, v, rfl, .inr (.inr (.inl ⟨at_ _ hm, h4, rfl⟩))⟩⟩
    split at h
    · rcases key _ _ (four _) h with ht | ⟨h4, hv, ht⟩
      · exact ⟨s, ht, .inl rfl⟩
      · rw [hv] at ht
        exact ⟨_, ht, .inr ⟨size, a, v, rfl, .inr (.inr (.inr (.inl ⟨_, rfl⟩)))⟩⟩
    split at h
    · rcases key _ _ (four _) h with ht | ⟨h4, hv, ht⟩
      · exact ⟨s, ht, .inl rfl⟩
      · rw [hv] at ht
        exact ⟨_, ht, .inr ⟨size, a, v, rfl, .inr (.inr (.inr (.inr (.inl rfl))))⟩⟩
    split at h
    · rcases key _ _ (four _) h with ht | ⟨h4, hv, ht⟩
      · exact ⟨s, ht, .inl rfl⟩
      · exact ⟨s, ht, .inl rfl⟩
    split at h
    · generalize hw : wdataLanes size v = w at h
      generalize ho : (effectiveAddr a).extractLsb' 0 12 = off at h
      cases hl : windowLegal size (Config.stageBase + off.toNat) with
      | false =>
        simp only [exec, execStageWr, hl, busWrite_illegal] at h
        cases h
        exact ⟨s, rfl, .inl rfl⟩
      | true =>
        simp only [exec, execStageWr, hl, busWrite_legal] at h
        cases h
        refine ⟨_, rfl, .inr ⟨size, a, v, rfl, .inr (.inr (.inr (.inr (.inr ⟨off.toNat, w, ?_, rfl⟩))))⟩⟩
        have := off.isLt
        simp only [windowLegal, aligned, Config.stageBase, beq_iff_eq] at hl
        cases size <;> simp only [Size.bytes] at hl ⊢ <;> omega
    split at h <;>
    · simp only [exec, execTboutWrIgnored, execRsvdWr, busWrite] at h
      split at h <;>
      · cases h
        exact ⟨s, rfl, .inl rfl⟩

/-! ### The step -/

/-- All that one step can do. -/
theorem step_cases {s t : State} (h : step s = .next t) :
    (∃ l, t = s.withInputs l) ∨
    (∃ rest, s.inputs = .reset :: rest ∧ t = (s.withInputs rest).doReset) ∨
    (∃ w l i, s.pending = some w ∧ decodeCommand w = .ok i ∧ exec i (s.withInputs l) = .next t) ∨
    (∃ w l e, s.pending = some w ∧ decodeCommand w = .error e ∧ t = commandStep w illegalRule (s.withInputs l)) ∨
    (∃ x rest, s.inputs = .txn x :: rest ∧ (s.pending = none ∨ x.isRead = true) ∧
      exec (decodeTxn x) (s.withInputs rest) = .next t) := by
  have command : ∀ w l, s.pending = some w →
      (match decodeCommand w with
        | .ok i => exec i (s.withInputs l)
        | .error _ => .next (commandStep w illegalRule (s.withInputs l))) = .next t →
      (∃ w l i, s.pending = some w ∧ decodeCommand w = .ok i ∧ exec i (s.withInputs l) = .next t) ∨
      (∃ w l e, s.pending = some w ∧ decodeCommand w = .error e ∧ t = commandStep w illegalRule (s.withInputs l)) := by
    intro w l hp hm
    cases hd : decodeCommand w with
    | ok i => rw [hd] at hm; exact .inl ⟨w, l, i, hp, hd, hm⟩
    | error e => rw [hd] at hm; exact .inr ⟨w, l, e, hp, hd, by simpa using hm.symm⟩
  unfold step fetch at h
  cases hi : s.inputs with
  | nil =>
    cases hp : s.pending with
    | none =>
      simp only [hi, hp] at h
      exact .inl ⟨s.inputs, by cases h; rfl⟩
    | some w =>
      simp only [hi, hp] at h
      have c := command w s.inputs hp h
      rw [hp] at c
      rcases c with c | c
      · exact .inr (.inr (.inl c))
      · exact .inr (.inr (.inr (.inl c)))
  | cons a rest =>
    cases a with
    | reset =>
      simp only [hi] at h
      exact .inr (.inl ⟨rest, rfl, by simpa using h.symm⟩)
    | lapse =>
      cases hp : s.pending with
      | none =>
        simp only [hi, hp] at h
        exact .inl ⟨rest, by simpa using h.symm⟩
      | some w =>
        simp only [hi, hp] at h
        have c := command w rest hp h
        rw [hp] at c
        rcases c with c | c
        · exact .inr (.inr (.inl c))
        · exact .inr (.inr (.inr (.inl c)))
    | txn x =>
      cases hp : s.pending with
      | none =>
        simp only [hi, hp] at h
        exact .inr (.inr (.inr (.inr ⟨x, rest, rfl, .inl rfl, h⟩)))
      | some w =>
        simp only [hi, hp] at h
        cases hx : x.isRead with
        | true =>
          simp only [hx, if_true] at h
          exact .inr (.inr (.inr (.inr ⟨x, rest, rfl, .inr hx, h⟩)))
        | false =>
          simp only [hx, Bool.false_eq_true, if_false] at h
          have c := command w s.inputs hp h
          rw [hp] at c
          rcases c with c | c
          · exact .inr (.inr (.inl c))
          · exact .inr (.inr (.inr (.inl c)))

/-! ### Everything a step can change -/

/-- The reset leaves what 70_reset_and_hazards.md R380 says. -/
theorem doReset_afterReset (s : State) : AfterReset s s.doReset where
  params := rfl
  enables := ⟨rfl, rfl⟩
  status := ⟨rfl, rfl, rfl, rfl⟩
  irq := rfl
  record := ⟨rfl, rfl, rfl⟩
  config := ⟨rfl, rfl, rfl, rfl, rfl⟩
  session := ⟨rfl, rfl⟩
  results := ⟨rfl, rfl⟩
  store := fun _ => ⟨rfl, fun _ => ⟨rfl, rfl⟩⟩
  ram := fun _ => rfl

/-- `AfterReset` looks at nothing of the state before but its parameters, and at nothing that belongs to the host's side. -/
theorem AfterReset.transfer {s s' t t' : State} (h : AfterReset s t) (hs : s'.params = s.params)
    (ht : t' = { t with inputs := t'.inputs, resp := t'.resp, draws := t'.draws }) : AfterReset s' t' := by
  obtain ⟨h1, h2, h3, h4, h5, h6, h7, h8, h9, h10⟩ := h
  rw [ht]
  exact ⟨h1.trans hs.symm, h2, h3, h4, h5, h6, h7, h8, h9, h10⟩

/-- What an accepted write of a legal transaction does to the state, its answer aside; nothing otherwise. A reset is not among these. -/
def TxnEffect (x : Txn) (s u : State) : Prop :=
  u = s ∨ ∃ size a v, x = .write size a v ∧
    ((a % 2 ^ 19 = 0x034 ∧ size = .four ∧ u = acceptCommand v s) ∨
     (a % 2 ^ 19 = 0x020 ∧ size = .four ∧ u = { s with ieDone := v.getLsbD 1, ieFault := v.getLsbD 2 }) ∨
     (a % 2 ^ 19 = 0x024 ∧ size = .four ∧ u = writeStatus v s) ∨
     (∃ off, u = writeCfg s off v) ∨
     (u = writeView v s) ∨
     ∃ off w, off + size.bytes ≤ 4096 ∧ u = writeStage off size w s)

/-- What a transaction that resets nothing leaves alone. -/
theorem TxnEffect.frame {x : Txn} {s u : State} (h : TxnEffect x s u) :
    u.resSeq = s.resSeq ∧ u.fault = s.fault ∧ u.faultCause = s.faultCause ∧ u.faultCmd = s.faultCmd ∧
    u.faultInfo = s.faultInfo ∧ u.hs = s.hs ∧ u.acc = s.acc ∧ u.params = s.params ∧ u.sess = s.sess ∧
    u.phase = s.phase ∧ u.res = s.res ∧ u.tba = s.tba ∧
    (u.done = s.done ∨
      u.done = false ∧ ∃ size a v, x = .write size a v ∧ a % 2 ^ 19 = 0x024 ∧ v.getLsbD 1 = true) ∧
    (s.fault = true → u.pending = s.pending) := by
  rcases h with rfl | ⟨_, _, v, hx, ⟨-, -, rfl⟩ | ⟨-, -, rfl⟩ | ⟨ha, -, rfl⟩ | ⟨off, rfl⟩ | rfl | ⟨off, w, hw, rfl⟩⟩
  · simp
  · unfold acceptCommand
    split <;> simp_all
  · simp
  · cases hv : v.getLsbD 1 with
    | true =>
      simp only [writeStatus, hv, if_true]
      simp only [true_and, implies_true, and_true]
      exact .inr ⟨_, _, v, hx, ha, hv⟩
    | false =>
      simp only [writeStatus, hv]
      simp
  · unfold writeCfg
    repeat' split
    all_goals simp
  · simp
  · simp

/-- All that one step can do, with every effect written out: nothing, a complete reset, the end of a command, a transaction. -/
theorem step_effects {s t : State} (h : step s = .next t) :
    (∃ l, t = s.withInputs l) ∨
    (AfterReset s t ∧
      ((∃ rest, s.inputs = .reset :: rest) ∨
       ∃ a v rest, s.inputs = .txn (.write .four a v) :: rest ∧ a % 2 ^ 19 = 0x020 ∧ v.getLsbD 0 = true)) ∨
    (∃ w l, s.pending = some w ∧
      ((s.fault = true ∧ t = (s.withInputs l).endStep) ∨
       (s.fault = false ∧ ∃ e : Raise, e.1 ≠ .none ∧ t = takeFault w e (s.withInputs l)) ∨
       (s.fault = false ∧
        ((w = 0x00000000#32 ∧ t = (s.withInputs l).endStep) ∨
         (opcOf w = 0x01#8 ∧ s.phase = .idle ∧ (hidOf w).toNat < s.params.numHarq ∧ 1 ≤ (ncbOf w).toNat ∧
          (ncbOf w).toNat ≤ s.params.maxCb ∧
          t = ((s.withInputs l).setHarq (hidOf w).toNat
            { deallocate (s.harq (hidOf w).toNat) s.params.maxCb with nofCb := (ncbOf w).toNat }).endStep) ∨
         (w = 0x02000000#32 ∧ s.phase = .idle ∧ (latchSession s).Legal s.params ∧
          t = { s.withInputs l with sess := latchSession s, acc := [], phase := .accum, pending := none }) ∨
         (opcOf w = 0x03#8 ∧ s.phase = .accum ∧ (lenOf w).toNat ≤ 4096 ∧
          s.accCount + (lenOf w).toNat ≤ s.params.maxSoftbits ∧
          t = { s.withInputs l with acc := s.acc ++ stagedLlrs s (lenOf w).toNat, pending := none }) ∨
         (w = 0x04000000#32 ∧ EndChecks s ∧ t = (endEffect (s.withInputs l) (endPlan s)).endStep))))) ∨
    (∃ x rest u, s.inputs = .txn x :: rest ∧ (s.pending = none ∨ x.isRead = true) ∧
      t = { u with resp := t.resp, draws := t.draws, inputs := rest } ∧ TxnEffect x s u) := by
  rcases step_cases h with c | ⟨rest, h1, rfl⟩ | ⟨w, l, i, hp, hd, he⟩ | ⟨w, l, e, hp, hd, rfl⟩ | ⟨x, rest, hi, hr, he⟩
  · exact .inl c
  · exact .inr (.inl ⟨(doReset_afterReset (s.withInputs rest)).transfer rfl rfl, .inl ⟨rest, h1⟩⟩)
  · exact .inr (.inr (.inl ⟨w, l, hp, execCommand_cases hd he⟩))
  · refine .inr (.inr (.inl ⟨w, l, hp, ?_⟩))
    rcases commandStep_cases w illegalRule (s.withInputs l) with ⟨hf, hc⟩ | ⟨hf, u, hu, hc⟩ | ⟨hf, e, hr, hc⟩
    · exact .inl ⟨hf, hc⟩
    · cases hu
    · refine .inr (.inl ⟨hf, e, ?_, hc⟩)
      cases hr
      exact fun hn => nomatch hn
  · obtain ⟨u, ht, hu⟩ := execTxn_cases he
    have go : ∀ u', u = u'.withInputs rest → TxnEffect x s u' →
        ∃ x rest u, s.inputs = .txn x :: rest ∧ (s.pending = none ∨ x.isRead = true) ∧
          t = { u with resp := t.resp, draws := t.draws, inputs := rest } ∧ TxnEffect x s u :=
      fun u' hu' hx => ⟨x, rest, u', hi, hr, by rw [ht, hu']; rfl, hx⟩
    rcases hu with rfl | ⟨size, a, v, rfl, hu⟩
    · exact .inr (.inr (.inr (go s rfl (.inl rfl))))
    · rcases hu with ⟨h1, rfl, rfl⟩ | ⟨h1, rfl, rfl⟩ | ⟨h1, rfl, rfl⟩ | ⟨off, rfl⟩ | rfl | ⟨off, w, hw, rfl⟩
      · refine .inr (.inr (.inr (go (acceptCommand v s) ?_ (.inr ⟨_, a, v, rfl, .inl ⟨h1, rfl, rfl⟩⟩))))
        cases hf : s.fault <;> simp [acceptCommand, State.withInputs, hf]
      · by_cases hv : v.getLsbD 0 = true
        · refine .inr (.inl ⟨?_, .inr ⟨a, v, rest, hi, h1, hv⟩⟩)
          rw [show writeCtrl v (s.withInputs rest) = (s.withInputs rest).doReset from if_pos hv] at ht
          exact (doReset_afterReset (s.withInputs rest)).transfer rfl (by rw [ht])
        · refine .inr (.inr (.inr (go _ ?_ (.inr ⟨_, a, v, rfl, .inr (.inl ⟨h1, rfl, rfl⟩)⟩))))
          rw [show writeCtrl v (s.withInputs rest) =
            { s.withInputs rest with ieDone := v.getLsbD 1, ieFault := v.getLsbD 2 } from if_neg hv]
          rfl
      · refine .inr (.inr (.inr (go (writeStatus v s) ?_ (.inr ⟨_, a, v, rfl, .inr (.inr (.inl ⟨h1, rfl, rfl⟩))⟩))))
        cases hv : v.getLsbD 1 <;> simp only [writeStatus, State.withInputs, hv] <;> simp
      · refine .inr (.inr (.inr (go (writeCfg s off v) ?_ (.inr ⟨_, a, v, rfl, .inr (.inr (.inr (.inl ⟨off, rfl⟩)))⟩))))
        unfold writeCfg
        repeat' split
        all_goals simp [State.withInputs]
      · exact .inr (.inr (.inr (go (writeView v s) rfl (.inr ⟨_, a, v, rfl, .inr (.inr (.inr (.inr (.inl rfl))))⟩))))
      · exact .inr (.inr (.inr (go (writeStage off size w s) rfl
          (.inr ⟨_, a, v, rfl, .inr (.inr (.inr (.inr (.inr ⟨off, w, hw, rfl⟩))))⟩))))

end Sys2Proof.Machine
end

