-- ==== Sys2Proof/Laws/Report.lean ====
section
/-! SUPPORT. What an END that raises nothing leaves where the host reads it: RES_CB by codeblock, and the assembled bits. -/

namespace Sys2Proof.Machine

/-- END's next state when its checks pass (40_commands.md R125). -/
theorem execEnd_next {s : State} (hf : s.fault = false) (hc : EndChecks s) :
    exec .endSession s = .next (endEffect s (endPlan s)).endStep := by
  show Host.Outcome.next (commandStep _ endRule s) = _
  rw [commandStep_ok _ endRule hf (endRule_of_checks hc)]

/-- What END's loop makes of codeblock r's buffers and record (40_commands.md R125). -/
def endPart (s : State) (r : Nat) : CbBuf × CbRec :=
  endBuffers s.params s.sess (endPlan s) s.acc ((endPlan s).start r) r ((endStartHarq s (endPlan s)).cb r)

/-- RES_CB[r] is codeblock r's record and its flag after the TB decision (44_crc_tb_assembly.md R275). -/
theorem endEffect_resCb {s : State} (hp : s.params.Ok) (hc : EndChecks s) {r : Nat} (hr : r < s.seg.c) :
    (endEffect s (endPlan s)).endStep.resCb r =
      cbWord (endPart s r).2.iter (endPart s r).2.attempted (endPart s r).2.cbPass
        (((endEffect s (endPlan s)).harq s.sess.harqId.toNat).cb r).flag := by
  have hcc : (endPlan s).seg.c ≤ 256 := hc.2.2.2.1.trans hp.cb.2
  have hrr : r < (endPlan s).seg.c := hr
  have hh : (endEffect s (endPlan s)).harq s.sess.harqId.toNat =
      decisionFlags (endLoop s (endPlan s)).harq (endLoop s (endPlan s)).tba (endPlan s).seg.c (endPlan s).seg.a := by
    have h := State.setHarq_harq s s.sess.harqId.toNat s.sess.harqId.toNat
      (decisionFlags (endLoop s (endPlan s)).harq (endLoop s (endPlan s)).tba (endPlan s).seg.c (endPlan s).seg.a)
    rw [if_pos rfl] at h
    exact h
  show (reportCb _ _ _).getD r 0 = _
  rw [hh]
  simp only [reportCb, Nat.min_eq_left hcc, endLoop_recs]
  simp [List.getD, hrr, endPart]

/-- The fields of RES_CB[r] (10_state.md R40). -/
theorem endEffect_resCb_fields {s : State} (hp : s.params.Ok) (hc : EndChecks s) {r : Nat} (hr : r < s.seg.c) :
    iterOf ((endEffect s (endPlan s)).endStep.resCb r) = (endPart s r).2.iter ∧
    attemptedOf ((endEffect s (endPlan s)).endStep.resCb r) = (endPart s r).2.attempted ∧
    cbPassOf ((endEffect s (endPlan s)).endStep.resCb r) = (endPart s r).2.cbPass ∧
    flagEndOf ((endEffect s (endPlan s)).endStep.resCb r) = (((endEffect s (endPlan s)).harq s.sess.harqId.toNat).cb r).flag := by
  rw [endEffect_resCb hp hc hr]
  refine cbWord_fields _ _ _ _ (lt_of_le_of_lt (endBuffers_record _ _ _ _ _ _ _).2.2 ?_)
  have := s.sess.maxIter.isLt
  omega

/-- A codeblock whose flag is set when the loop reaches it is skipped, and its record says so (43_ldpc_decoder.md R232). -/
theorem endPart_skip {s : State} {r : Nat} (h : ((endStartHarq s (endPlan s)).cb r).flag = true) :
    (endPart s r).2 = { attempted := false, iter := 0, cbPass := true } ∧
    (endPart s r).1.msg =
      if ((endStartHarq s (endPlan s)).cb r).alloc then ((endStartHarq s (endPlan s)).cb r).msg else [] := by
  simp only [endPart, endBuffers]
  rw [decodeStep_skip _ _ _ _ _ _ _ (by simpa using h)]
  exact ⟨rfl, fetchOrAllocate_msg _⟩

/-- A codeblock whose flag is clear when the loop reaches it is decoded from its combined soft bits (43_ldpc_decoder.md R232). -/
theorem endPart_attempt {s : State} {r : Nat} (h : ((endStartHarq s (endPlan s)).cb r).flag = false) :
    (endPart s r).2.cbPass =
      (attemptDecode s.params s.sess.earlyStop s.sess.maxIter.toNat (endPlan s).seg (endPlan s).ncb (endPlan s).poly
        (rateDematch s.sess.newData (endPlan s).qm (endPlan s).seg (endPlan s).ncb (endPlan s).k0
          ((s.acc.drop ((endPlan s).start r)).take ((endPlan s).len r))
          (if ((endStartHarq s (endPlan s)).cb r).alloc then ((endStartHarq s (endPlan s)).cb r).soft else softZero))).pass := by
  simp only [endPart, endBuffers]
  rw [decodeStep_attempt _ _ _ _ _ _ _ (by simpa using h)]
  simp only [fetchOrAllocate_soft]

/-- One iteration of the test kernel with early stop passes when the decision on its input does (43_ldpc_decoder.md R230, R236). -/
theorem attemptDecode_hard_once {ps : Params} (hk : ps.kernel = .hardDecision) (seg : Seg) (ncb : Nat) (p : Crc)
    (soft : Sparse Int) :
    (attemptDecode ps true 1 seg ncb p soft).pass = crcOk p (hardBits seg.kPrime (decoderInput soft seg ncb)) := by
  simp only [attemptDecode, decodeCb, hk, runKernel, hardDecisionKernel, kernelInput, if_true, List.replicate_one, earlyStopScan]
  cases crcOk p (hardBits seg.kPrime (decoderInput soft seg ncb)) <;> rfl

/-! ### Bits -/

/-- Writing at the end of what is there appends. -/
theorem bitsWrite_end (old new : List Bool) : bitsWrite old old.length new = old ++ new := by
  rw [bitsWrite, List.take_length, List.drop_of_length_le (Nat.le_add_right _ _), List.append_nil]

/-- Reading every bit of a list gives the list. -/
theorem map_bitAt (l : List Bool) : ((List.range l.length).map fun k => bitAt l k) = l := by
  refine List.ext_getElem (by simp) fun i h _ => ?_
  have h' : i < l.length := by simpa using h
  simp [bitAt, h']

end Sys2Proof.Machine
end

