-- ==== Sys2Proof/Tests/Slice0.lean ====
section
/-! SUPPORT. The model's own tests: ill-formed terms the checks refuse, words written out from 30_encoding.md, single steps with results from
95_test_vectors.md, and for every statement with hypotheses a case that meets them all. -/

namespace Sys2Proof.Tests

open Sys2Proof.Machine

set_option maxRecDepth 20000

/-! ### Well-formedness (30_encoding.md R98) -/

theorem test_wf_refuses_wide_data :
    (Instr.cmdWr .one 0x00000100#32).wf = false ∧ (Instr.stageWr 0#12 .two 0x00010000#32).wf = false ∧
    (Instr.tboutWrIgnored 0#18 .one 0x80000000#32).wf = false := by decide

theorem test_wf_refuses_earlier_rows :
    (Instr.regWrIgnored 0x034#12 .four 0#32).wf = false ∧ (Instr.regWrIgnored 0x020#12 .four 0#32).wf = false ∧
    (Instr.regWrIgnored 0x024#12 .four 0#32).wf = false ∧ (Instr.regWrIgnored 0x040#12 .four 0#32).wf = false ∧
    (Instr.regWrIgnored 0x04F#12 .one 0#32).wf = false ∧ (Instr.regWrIgnored 0x050#12 .four 0#32).wf = false ∧
    (Instr.regWrIgnored 0x051#12 .one 0#32).wf = true := by decide

theorem test_wf_refuses_unreserved :
    (Instr.rsvdRd 0x01FFF#18 .one).wf = false ∧ (Instr.rsvdWr 0x00034#18 .four 0#32).wf = false ∧
    (Instr.rsvdRd 0x02000#18 .one).wf = true := by decide

/-! ### Decoding, from the encodings of 30_encoding.md R92, R94, R98 -/

/-- OPC, HID, NCB and LEN in the places R92 gives them. -/
theorem test_decode_commands :
    decodeCommand (0x00#8 ++ 0#24) = .ok .nop ∧
    decodeCommand (0x01#8 ++ 0xA5#8 ++ 0x8001#16) = .ok (.harqAlloc 0xA5#8 0x8001#16) ∧
    decodeCommand (0x02#8 ++ 0#24) = .ok .beginSession ∧
    decodeCommand (0x03#8 ++ 0#11 ++ 0x1001#13) = .ok (.push 0x1001#13) ∧
    decodeCommand (0x04#8 ++ 0#24) = .ok .endSession := by decide

/-- 95_test_vectors.md V-30. -/
theorem test_decode_vectors :
    decodeCommand 0x01030002#32 = .ok (.harqAlloc 3#8 2#16) ∧ decodeCommand 0x01FFFFFF#32 = .ok (.harqAlloc 255#8 65535#16) ∧
    decodeCommand 0x03000C00#32 = .ok (.push 3072#13) ∧ decodeCommand 0x03001FFF#32 = .ok (.push 8191#13) ∧
    decodeCommand 0x00000001#32 = .error .reservedBits ∧ decodeCommand 0x02000001#32 = .error .reservedBits ∧
    decodeCommand 0x03002000#32 = .error .reservedBits ∧ decodeCommand 0x04800000#32 = .error .reservedBits ∧
    decodeCommand 0x05000000#32 = .error .illegalOpcode ∧ decodeCommand 0xFF000000#32 = .error .illegalOpcode := by
  decide

/-- Every write row, at the ends of its addresses (R98, 20_memory.md R62). -/
theorem test_decode_writes :
    decodeTxn (.write .four 0x00034 0x02000000#32) = .cmdWr .four 0x02000000#32 ∧
    decodeTxn (.write .four 0x00020 6#32) = .ctrlWr .four 6#32 ∧
    decodeTxn (.write .four 0x00024 2#32) = .statusWr .four 2#32 ∧
    decodeTxn (.write .four 0x00040 1#32) = .regWr 0x0#4 .four 1#32 ∧
    decodeTxn (.write .one 0x0004F 0x1FF#32) = .regWr 0xF#4 .one 0xFF#32 ∧
    decodeTxn (.write .four 0x00050 3#32) = .regWrView .four 3#32 ∧
    decodeTxn (.write .two 0x00051 3#32) = .regWrIgnored 0x051#12 .two 3#32 ∧
    decodeTxn (.write .four 0x00FFF 3#32) = .regWrIgnored 0xFFF#12 .four 3#32 ∧
    decodeTxn (.write .four 0x01000 3#32) = .stageWr 0x000#12 .four 3#32 ∧
    decodeTxn (.write .one 0x01FFF 3#32) = .stageWr 0xFFF#12 .one 3#32 ∧
    decodeTxn (.write .one 0x02000 3#32) = .rsvdWr 0x02000#18 .one 3#32 ∧
    decodeTxn (.write .one 0x3FFFF 3#32) = .rsvdWr 0x3FFFF#18 .one 3#32 ∧
    decodeTxn (.write .one 0x40000 0x55#32) = .tboutWrIgnored 0#18 .one 0x55#32 ∧
    decodeTxn (.write .one 0xFFFFF 0x55#32) = .tboutWrIgnored 0x3FFFF#18 .one 0x55#32 := by decide

/-- Every read row, at the ends of its addresses (R98, 20_memory.md R61, R62). -/
theorem test_decode_reads :
    decodeTxn (.read .four 0x00000) = .regRd 0#12 .four ∧ decodeTxn (.read .four 0x00FFF) = .regRd 0xFFF#12 .four ∧
    decodeTxn (.read .one 0x01000) = .stageRd 0#12 .one ∧ decodeTxn (.read .two 0x01FFE) = .stageRd 0xFFE#12 .two ∧
    decodeTxn (.read .four 0x02000) = .rsvdRd 0x02000#18 .four ∧ decodeTxn (.read .four 0x3FFFC) = .rsvdRd 0x3FFFC#18 .four ∧
    decodeTxn (.read .four 0x40000) = .tboutRd 0#18 .four ∧ decodeTxn (.read .one 0x80001) = .regRd 1#12 .one := by decide

/-- The opcode table's own words, and the frame bits above them (log 2). -/
theorem test_decode_table_words :
    decodeTableWord 32 0x01030002 = some (.harqAlloc 3#8 2#16) ∧ decodeTableWord 32 0x05000000 = none ∧
    decodeTableWord 24 0x00034 = some (.cmdWr .four 0#32) ∧ decodeTableWord 24 0x00050 = some (.regWrView .four 0#32) ∧
    decodeTableWord 24 0x80000 = some (.regRd 0#12 .four) ∧ decodeTableWord 24 0x181001 = some (.stageRd 1#12 .one) ∧
    decodeTableWord 64 0xDDCCBBAA00001000 = some (.stageWr 0#12 .four 0xDDCCBBAA#32) ∧
    decodeTableWord 24 0x300000 = none := by decide

/-! ### Small states -/

/-- After reset, with the test kernel K_HD (43_ldpc_decoder.md R236). -/
def lab : State := { State.reset with params := { Params.default with kernel := .hardDecision } }

/-- CFG as 95_test_vectors.md V-40a row 3 writes it. -/
def configured : State := { lab with cfgTbBytes := 1, cfgCoding := 0x00081922#32 }

/-- The session that row opens. -/
def shortSession : Session where
  tbBytes := 1
  bg := 2
  rv := 0
  qm := 2
  nl := 1
  newData := true
  earlyStop := true
  maxIter := 8
  nref := 0
  harqId := 0

/-- An open session with some LLRs and HARQ buffer `ss.harqId` sized for n codeblocks. -/
def opened (ss : Session) (acc : List Int) (n : Nat) (cbs : Sparse CbBuf) : State :=
  { lab with phase := .accum, sess := ss, acc := acc, hs := [(ss.harqId.toNat, { nofCb := n, cbs := cbs })] }

/-- Program P6's session: three bytes, BG 2, QM 1, no early stop, MAX_ITER 10, buffer 1. -/
def p6Session : Session :=
  { shortSession with tbBytes := 3, qm := 1, earlyStop := false, maxIter := 10, harqId := 1 }

/-- Program P6's LLRs after the first. -/
def p6Tail : List Int :=
  [-60, -60, 60, -60, 60, 60, -60, 60, -60, -60, -60, 60, -60, 60, -60, -60, 60, 60, -60, -60, -60, -60, -60, -60, 60]

/-- P6 and P6b before END. -/
def p6 (first : Int) : State := opened p6Session (first :: p6Tail) 1 []

/-- A TB of two codeblocks (A = 3832, BG 2), a retransmission of no LLRs, both flags set and the message bits given. -/
def pairSession : Session := { shortSession with tbBytes := 479, newData := false }
/-- Both codeblocks have passed. -/
def pair (msg : List Bool) : State :=
  opened pairSession [] 2
    [(0, { alloc := true, flag := true, soft := [], msg := msg }), (1, { alloc := true, flag := true, soft := [], msg := [] })]
/-- Codeblock 1 has not passed, and its data bits were received wrong. -/
def pairFailing : State :=
  opened { pairSession with maxIter := 1 } [] 2
    [(0, { alloc := true, flag := true, soft := [], msg := [] }), (1, { alloc := true, flag := false, soft := [(0, -9)], msg := [] })]

/-- An accepted command word. -/
def busyWith (w : Word) (s : State) (l : List HostInput) : State := { s with pending := some w, inputs := l }

/-- The state a `next` outcome holds. -/
def after (o : Host.Outcome State Fault Refusal) : State :=
  match o with
  | .next t => t
  | .fault _ => State.reset
  | .refused _ => State.reset

/-! ### Single steps, with the spec's results -/

/-- V-40a row 3. -/
theorem test_begin : (after (exec .beginSession configured)).phase = .accum ∧
    (after (exec .beginSession configured)).sess = shortSession := by decide

/-- V-40a row 4: 0x80 is stored as -127. -/
theorem test_push :
    (after (exec (.push 4#13) { opened shortSession [] 1 [] with
      mem := [(0x1000, 0x32#8), (0x1001, 0xCE#8), (0x1002, 0x80#8), (0x1003, 0x7F#8)] })).acc = [50, -50, -127, 127] := by
  decide

/-- V-40a row 2. -/
theorem test_harq_alloc : ((after (exec (.harqAlloc 0#8 1#16) lab)).harq 0).nofCb = 1 := by decide

/-- V-40b rows 1, 4, 24: cause, command word, information. -/
theorem test_faults :
    (let t := after (step (busyWith 0x05000000#32 lab [])); (t.faultCause, t.faultCmd, t.faultInfo)) =
      (.illegalCmd, 0x05000000#32, 0#32) ∧
    (let t := after (exec .endSession lab); (t.faultCause, t.faultCmd, t.faultInfo)) = (.seqError, 0x04000000#32, 0#32) ∧
    (let t := after (exec .endSession (opened shortSession [] 2 [])); (t.faultCause, t.faultCmd, t.faultInfo)) =
      (.cbCountMismatch, 0x04000000#32, 0x00020001#32) := by decide +kernel

/-- V-40b rows 7 to 14. -/
theorem test_begin_faults :
    ((after (exec .beginSession { configured with cfgTbBytes := 159750 })).faultInfo,
     (after (exec .beginSession { configured with cfgCoding := 0x00081923#32 })).faultInfo,
     (after (exec .beginSession { configured with cfgCoding := 0x00081932#32 })).faultInfo,
     (after (exec .beginSession { configured with cfgCoding := 0x00081822#32 })).faultInfo,
     (after (exec .beginSession { configured with cfgCoding := 0x00001922#32 })).faultInfo,
     (after (exec .beginSession { configured with cfgHarqId := 16 })).faultInfo,
     (after (exec .beginSession lab)).faultInfo) = (1, 2, 3, 4, 5, 6, 1) := by decide

/-- Program P6: RES_SUMMARY, RES_CB[0], RES_ITER_SUM, the TB's bytes. -/
theorem test_end_p6 :
    (let t := after (exec .endSession (p6 60))
     (t.res.summary, t.resCb 0, t.res.iterSum, t.tboutByte 0, t.tboutByte 1, t.tboutByte 2)) =
      (0x00010003#32, 0x0007000A#32, 10#32, 0x00#8, 0x01#8, 0xA5#8) := by decide +kernel

/-- Program P6b: the CRC fails and TBOUT keeps its contents. -/
theorem test_end_p6b :
    (let t := after (exec .endSession (p6 (-60))); (t.res.summary, t.resCb 0, t.mem)) =
      (0x00010002#32, 0x0001000A#32, []) := by decide +kernel

/-- V-45 rows 1, 3, 9, 12, 13. -/
theorem test_reg_rd :
    (after (exec (.regRd 0x000#12 .four) lab)).resp = .readOk .four 0x4C445043#32 ∧
    (after (exec (.regRd 0x008#12 .four) lab)).resp = .readOk .four 0x00100098#32 ∧
    (after (exec (.regRd 0x034#12 .four) lab)).resp = .readOk .four 0#32 ∧
    (after (exec (.regRd 0x002#12 .four) lab)).resp = .readErr .four ∧
    (after (exec (.regRd 0x024#12 .one) lab)).resp = .readErr .one := by decide

/-- V-45 rows 6, 7. -/
theorem test_reg_wr :
    (after (exec (.regWr 0x4#4 .four 0xFFFFFFFF#32) lab)).cfgCoding = 0x00FF1FFF#32 ∧
    (after (exec (.regWr 0xC#4 .four 0x12345678#32) lab)).cfgHarqId = 0x78#8 := by decide

/-- V-45 rows 15, 16: the bytes of one write, read back narrower. -/
theorem test_stage :
    (let t := after (exec (.stageWr 0#12 .four 0xDDCCBBAA#32) lab)
     (after (exec (.stageRd 1#12 .one) t)).resp = .readOk .one 0xBB#32 ∧
     (after (exec (.stageRd 2#12 .two) t)).resp = .readOk .two 0xDDCC#32) := by decide

/-- V-45 row 14, and 60_exceptions.md R336. -/
theorem test_cmd_wr :
    (after (exec (.cmdWr .two 0#32) lab)).resp = .writeErr ∧
    (after (exec (.cmdWr .four 0x02000000#32) lab)).pending = some 0x02000000#32 ∧
    (after (exec (.cmdWr .four 0x02000000#32) { lab with fault := true })).pending = none := by decide

/-- V-45 rows 19, 20, 22. -/
theorem test_ctrl_status_wr :
    ctrlWord (after (exec (.ctrlWr .four 6#32) lab)) = 6#32 ∧
    ctrlWord (after (exec (.ctrlWr .four 7#32) { lab with ieDone := true })) = 0#32 ∧
    statusWord (after (exec (.statusWr .four 0xFFFFFFFF#32) { lab with done := true, fault := true })) = 4#32 := by decide

/-- V-45 rows 18, 11, 23. -/
theorem test_windows :
    (after (exec (.tboutWrIgnored 0#18 .one 0x55#32) lab)) = { lab with resp := .writeOk } ∧
    (after (exec (.rsvdRd 0x20000#18 .four) lab)).resp = .readOk .four 0#32 ∧
    (after (exec (.regWrView .four 3#32) lab)).harqViewId = 3#8 := by decide

/-- 20_memory.md R65. -/
theorem test_staged_llrs :
    stagedLlrs (after (exec (.stageWr 0#12 .four 0xDDCCBBAA#32) lab)) 4 = [-86, -69, -52, -35] := by decide

/-- 41_segmentation.md R174. -/
theorem test_segmentation :
    (let g := segmentTb 8 .bg2; [g.b, g.c, g.kPrime, g.kb, g.zc, g.iLS, g.k, g.n, g.f, g.lcb, g.d]) =
      [24, 1, 24, 6, 4, 0, 40, 200, 16, 16, 8] ∧
    (let g := segmentTb 20000 .bg1; [g.b, g.c, g.bPrime, g.kPrime, g.zc, g.iLS, g.k, g.n, g.f, g.d]) =
      [20024, 3, 20096, 6699, 320, 2, 7040, 21120, 341, 6675] := by decide +kernel

/-- 42_rate_dematch.md R201. -/
theorem test_dematch :
    (let b := rateDematch true 2 (segmentTb 8 .bg2) 200 0 ((List.range 24).map fun i => (i : Int) + 1) []
     ((List.range 41).map fun p => softAt b p)) =
      [1, 3, 5, 7, 9, 11, 13, 15, 17, 19, 21, 23, 2, 4, 6, 8] ++ List.replicate 16 127 ++
        [10, 12, 14, 16, 18, 20, 22, 24, 0] := by decide +kernel

/-- 43_ldpc_decoder.md R237. -/
theorem test_check_node :
    checkUpdate [10, -20, 30, -5] [0, 1, 2, 3] [0, 0, 0, 0] = ([13, -23, 33, -12], [3, -3, 3, -7]) ∧
    checkNode [0, 50, -50] = [-37, 0, 0] ∧ checkUpdate [127, 127] [0, 1] [0, 0] = ([127, 127], [95, 95]) ∧
    checkNode [-1, -1, -1] = [0, 0, 0] := by decide

/-- 44_crc_tb_assembly.md R279: the byte 0x01. -/
theorem test_crc :
    (crcOf .crc24A (List.replicate 7 false ++ [true])).toNat = 0x864CFB ∧
    (crcOf .crc24B (List.replicate 7 false ++ [true])).toNat = 0x800063 ∧
    (crcOf .crc16 (List.replicate 7 false ++ [true])).toNat = 0x1021 := by decide +kernel

/-! ### Witnesses: for each statement with hypotheses, a case that meets them all (clause by clause where it has clauses) -/

theorem test_witness_DecodeEncodeRoundTrip :
    (Instr.regWrIgnored 0xFFF#12 .one 0xFF#32).wf = true ∧ (Instr.rsvdWr 0x2000#18 .two 0xFFFF#32).wf = true := by decide

theorem test_witness_IllegalWords :
    (illegalWord 0x05000000#32 ∧ illegalWord 0xFFFFFFFF#32 ∧ illegalWord 0x00000001#32 ∧ illegalWord 0x04FFFFFF#32 ∧
      illegalWord 0x03002000#32) ∧
    (¬ illegalWord 0x03001FFF#32 ∧ ¬ illegalWord 0x01FFFFFF#32 ∧ ¬ illegalWord 0x04000000#32) ∧
    (busyWith 0x05000000#32 lab []).pending = some 0x05000000#32 ∧ (busyWith 0x05000000#32 lab []).inputs = [] ∧
    (busyWith 0x05000000#32 lab []).fault = false := by
  refine ⟨⟨?_, ?_, ?_, ?_, ?_⟩, ⟨?_, ?_, ?_⟩, rfl, rfl, rfl⟩ <;> (unfold illegalWord; decide)

/-- The ends of each address range of the statement. -/
theorem test_witness_TransactionsAreClassed :
    (0x034 + 2 ^ 19) % 2 ^ 19 = 0x034 ∧ 0x020 % 2 ^ 19 = 0x020 ∧ 0x024 % 2 ^ 19 = 0x024 ∧
    (0x040 ≤ 0x040 % 2 ^ 19 ∧ 0x04F % 2 ^ 19 ≤ 0x04F) ∧ 0x050 % 2 ^ 19 = 0x050 ∧
    (0x051 % 2 ^ 19 < 0x1000 ∧ ¬ (0x040 ≤ 0x051 % 2 ^ 19 ∧ 0x051 % 2 ^ 19 ≤ 0x050)) ∧
    (0x1000 ≤ 0x1FFF % 2 ^ 19 ∧ 0x1FFF % 2 ^ 19 < 0x2000) ∧ (0x2000 ≤ 0x2000 % 2 ^ 19 ∧ 0x3FFFF % 2 ^ 19 < 0x40000) ∧
    0x40000 ≤ 0xFFFFF % 2 ^ 19 := by decide

theorem test_witness_StepRuns :
    (let s := busyWith 0x03000018#32 lab []
     s.pending = some 0x03000018#32 ∧ decodeCommand 0x03000018#32 = .ok (.push 24#13) ∧ s.inputs = []) ∧
    (busyWith 0#32 lab [.lapse]).inputs = [.lapse] ∧
    (busyWith 0#32 lab [.txn (.write .one 0x1000 7#32)]).inputs = [.txn (.write .one 0x1000 7#32)] ∧
    ((lab.withInputs [.txn (.write .one 0x1000 7#32)]).pending = none) ∧
    (Txn.read .four 0x024).isRead = true ∧
    decodeTableWord 32 0x04000000 = some .endSession ∧ decodeTableWord 24 0x40000 = some (.tboutWrIgnored 0#18 .four 0#32) := by
  decide

/-- A session open with LLRs pushed, results of an earlier END, bytes in both windows, and a PUSH accepted. -/
def midSession : State :=
  { opened shortSession [50, -127] 1 [] with
    pending := some 0x03000001#32
    mem := [(0x01000, 0x80#8), (0x7FFFF, 0x01#8)]
    res := { Results.zero with summary := 0x00010003#32, cb := [0x00070001#32] } }

theorem defaults_ok : lab.params.Ok := ⟨by decide, by decide, by decide, by decide⟩

theorem midSession_harq (h : Nat) :
    (midSession.harq h).cbs = [] ∧ ((midSession.harq h).nofCb = 1 ∨ (midSession.harq h).nofCb = 0) := by
  show (sparseGet HarqBuf.unused [(0, _)] h).cbs = [] ∧ _
  rcases h with _ | h
  · exact ⟨rfl, .inl rfl⟩
  · exact ⟨rfl, .inr rfl⟩

theorem midSession_session : midSession.SessionInv where
  params := defaults_ok
  legal := fun _ =>
    { tb := by decide
      bg := .inr rfl
      qm := by decide
      nl := by decide
      iter := by decide
      harq := by decide }
  idle := fun h => nomatch h
  count := by decide
  sized := fun h => by
    show (midSession.harq h).nofCb ≤ 152
    rcases (midSession_harq h).2 with e | e <;> omega

theorem midSession_llr : midSession.LlrInv where
  acc := by
    show ∀ v ∈ ([50, -127] : List Int), -127 ≤ v ∧ v ≤ 127
    decide
  soft := fun h r p => by
    rw [show ((midSession.harq h).cb r).soft = [] by simp [HarqBuf.cb, (midSession_harq h).1, sparseGet, CbBuf.unused]]
    show -127 ≤ (0 : Int) ∧ (0 : Int) ≤ 127
    decide

theorem midSession_mem : midSession.MemInv where
  canonical := by decide
  windows := fun a b h => by
    have h' : sparseFind [(0x01000, 0x80#8), (0x7FFFF, 0x01#8)] a = some b := h
    unfold WindowAddr
    simp only [sparseFind] at h'
    split at h'
    · omega
    · split at h'
      · omega
      · cases h'

theorem midSession_reserved : midSession.ReservedInv where
  coding := by
    rw [show midSession.cfgCoding = 0 from rfl]
    decide +kernel
  summary := by
    rw [show midSession.res.summary = 0x00010003#32 from rfl]
    decide +kernel
  cb := fun w h => by
    rw [show midSession.res.cb = [0x00070001#32] from rfl] at h
    rw [List.mem_singleton.mp h]
    decide +kernel

theorem midSession_inv : midSession.Inv where
  session := midSession_session
  llr := midSession_llr
  fault := ⟨fun _ => ⟨rfl, rfl, rfl⟩, fun h => nomatch h⟩
  reserved := midSession_reserved
  mem := midSession_mem

theorem test_witness_Invariant : midSession.Inv ∧ ∃ t, step midSession = .next t := ⟨midSession_inv, _, rfl⟩

theorem test_witness_WritesAreHeld :
    (let s := busyWith 0x02000000#32 configured [.txn (.write .four 0x034 0#32)]
     s.pending = some 0x02000000#32 ∧ s.inputs = .txn (.write .four 0x034 0#32) :: []) := by decide

theorem test_witness_ReadsAreServed :
    (let s := busyWith 0#32 lab [.txn (.read .one 0x7FFFF)]
     s.pending = some 0#32 ∧ s.inputs = .txn (.read .one 0x7FFFF) :: []) ∧
    (0x000#12).toNat % 4 = 0 ∧ regAt (0x000#12).toNat = some .id ∧
    (0x91C#12).toNat % 4 = 0 ∧ regAt (0x91C#12).toNat = some (.harqViewFlags 7) ∧
    (0xFFC#12).toNat % Size.four.bytes = 0 ∧ (0x3FFFF#18).toNat % Size.one.bytes = 0 := by decide

theorem test_witness_HardwareReset : (busyWith 0#32 lab [.reset, .lapse]).inputs = .reset :: [.lapse] := by decide

theorem test_witness_word_offsets : (0x000#12).toNat % 4 = 0 ∧ (0xFFC#12).toNat % 4 = 0 := by decide

theorem test_witness_NopReserved :
    (let s := busyWith 0x00FFFFFF#32 lab []
     (0x00FFFFFF#32).toNat / 2 ^ 24 = 0 ∧ 0x00FFFFFF#32 ≠ 0 ∧ s.pending = some 0x00FFFFFF#32 ∧ s.inputs = [] ∧ s.fault = false) := by
  decide

theorem test_witness_HarqAlloc :
    lab.fault = false ∧ lab.phase = .idle ∧ (15#8).toNat < lab.params.numHarq ∧ 1 ≤ (152#16).toNat ∧
    (152#16).toNat ≤ lab.params.maxCb ∧
    lab.params.numHarq ≤ (16#8).toNat ∧ (0#16 = 0 ∨ lab.params.maxCb < (0#16).toNat) ∧ lab.params.maxCb < (153#16).toNat := by
  decide

theorem test_witness_Begin :
    configured.fault = false ∧ configured.phase = .idle ∧
    firstIllegalField configured.params configured.cfgTbBytes configured.cfgCoding configured.cfgHarqId = 0 ∧
    firstIllegalField lab.params 159749#32 0x00081C82#32 15#8 = 0 ∧
    firstIllegalField lab.params 159750#32 0#32 16#8 = 1 ∧ firstIllegalField lab.params 1#32 0#32 16#8 = 2 ∧
    firstIllegalField lab.params 1#32 0x00000032#32 16#8 = 3 ∧ firstIllegalField lab.params 1#32 0x00000522#32 16#8 = 4 ∧
    firstIllegalField lab.params 1#32 0x00000422#32 16#8 = 5 ∧ firstIllegalField lab.params 1#32 0x00010422#32 16#8 = 6 := by
  decide

/-- MAX_SOFTBITS = 10, as in the ACC_OVERFLOW case of V-40b. -/
theorem test_witness_Push :
    (let s := { opened shortSession [1, 2, 3, 4, 5, 6, 7, 8] 1 [] with params := { Params.default with maxSoftbits := 10 } }
     s.fault = false ∧ s.phase = .accum ∧
     ((2#13).toNat ≤ 4096 ∧ s.accCount + (2#13).toNat ≤ s.params.maxSoftbits) ∧
     4096 < (4097#13).toNat ∧ ((3#13).toNat ≤ 4096 ∧ s.params.maxSoftbits < s.accCount + (3#13).toNat)) := by decide

theorem test_witness_OutOfPhase :
    lab.fault = false ∧ lab.phase = .idle ∧ (p6 60).fault = false ∧ (p6 60).phase = .accum := by decide

/-- V-40b rows 19, 20, 22 and 23. -/
theorem test_witness_EndFaults :
    (let s := opened shortSession [1, 2, 3] 1 []
     s.fault = false ∧ s.phase = .accum ∧ s.accCount % s.sess.qm.toNat ≠ 0) ∧
    (let s := opened { shortSession with nl := 2 } [1, 1, 1, 1, 1, 1] 1 []
     s.accCount % s.sess.qm.toNat = 0 ∧ s.accCount % (s.sess.nl.toNat * s.sess.qm.toNat) ≠ 0) ∧
    (let s := opened { shortSession with tbBytes := 72502 } [] 1 []
     s.accCount % s.sess.qm.toNat = 0 ∧ s.accCount % (s.sess.nl.toNat * s.sess.qm.toNat) = 0 ∧ s.params.maxCb < s.seg.c) ∧
    (let s := opened shortSession [] 0 []
     s.accCount % s.sess.qm.toNat = 0 ∧ s.accCount % (s.sess.nl.toNat * s.sess.qm.toNat) = 0 ∧
     s.seg.c ≤ s.params.maxCb ∧ s.seg.c ≠ s.borrowed.nofCb) := by decide +kernel

theorem test_witness_EndChecks (first : Int) : EndChecks (p6 first) :=
  ⟨rfl, by simp [p6, opened, p6Session, p6Tail, shortSession, State.accCount], by
    simp [p6, opened, p6Session, p6Tail, shortSession, State.accCount], by
    simp only [p6, opened, State.seg, p6Session, shortSession]; decide, by
    simp only [p6, opened, State.seg, State.borrowed, State.harq, p6Session, shortSession]; decide⟩

theorem test_witness_EndPair (msg : List Bool) : EndChecks (pair msg) :=
  ⟨rfl, rfl, rfl, by show (segmentTb 3832 .bg2).c ≤ 152; decide, by show (segmentTb 3832 .bg2).c = 2; decide⟩

/-- EndCompletes, CombiningIsUnconditional, TboutWrittenOnlyOnPass (both outcomes). -/
theorem test_witness_End :
    (p6 60).fault = false ∧ EndChecks (p6 60) ∧
    (∃ t, exec .endSession (p6 60) = .next t ∧ t.tbCrcOk = true) ∧
    ∃ t, exec .endSession (p6 (-60)) = .next t ∧ t.tbCrcOk = false :=
  ⟨rfl, test_witness_EndChecks 60, ⟨_, rfl, by decide +kernel⟩, _, rfl, by decide +kernel⟩

/-- The state END leaves. -/
def ended (s : State) : State := (endEffect s (endPlan s)).endStep

theorem pair_seg (m : List Bool) : (pair m).seg.c = 2 := by
  show (segmentTb 3832 .bg2).c = 2
  decide

/-- Both codeblocks of `pair` count as passed without an attempt. -/
theorem pair_parts (m : List Bool) (r : Nat) (h : r < 2) :
    (endPart (pair m) r).2 = { attempted := false, iter := 0, cbPass := true } ∧
    (endPart (pair m) r).1.msg = if r = 0 then m else [] := by
  have hf : ((endStartHarq (pair m) (endPlan (pair m))).cb r).flag = true ∧
      ((endStartHarq (pair m) (endPlan (pair m))).cb r).alloc = true ∧
      ((endStartHarq (pair m) (endPlan (pair m))).cb r).msg = if r = 0 then m else [] := by
    rcases r with _ | _ | r
    · exact ⟨rfl, rfl, rfl⟩
    · exact ⟨rfl, rfl, rfl⟩
    · omega
  obtain ⟨h1, h2⟩ := endPart_skip hf.1
  exact ⟨h1, by rw [h2, if_pos hf.2.1, hf.2.2]⟩

/-- The transport block's bits and CRC are the codeblocks' data bits, one after the other. -/
theorem pair_tba (m : List Bool) : (ended (pair m)).tba = assembleBits m 1928 ++ assembleBits [] 1928 := by
  have h := (endFold (pair m).params (pair m).sess (endPlan (pair m)) (pair m).acc (endStartHarq (pair m) (endPlan (pair m)))
    (pair m).tba 2).2.2.2.2
  have h0 := (pair_parts m 0 (by decide)).2
  have h1 := (pair_parts m 1 (by decide)).2
  simp only [endPart, if_true, Nat.one_ne_zero, if_false] at h0 h1
  simp only [show List.range 2 = [0, 1] from rfl, List.foldl_cons, List.foldl_nil] at h
  rw [h0, h1] at h
  have hd : (endPlan (pair m)).seg = segmentTb 3832 .bg2 := rfl
  have ht : (endPlan (pair m)).tbc = 3856 := by
    show tbAndCrcLen (endPlan (pair m)).seg.a (endPlan (pair m)).seg.c = 3856
    rw [hd]
    decide
  have hs : ∀ o, o ≤ 1928 → assembleLen (segmentTb 3832 .bg2) 3856 o = 1928 := by
    intro o ho
    rw [assembleLen, show (segmentTb 3832 .bg2).d = 1928 by decide]
    omega
  rw [hd, ht, hs 0 (by omega)] at h
  simp only [Nat.zero_add] at h
  rw [hs 1928 (by omega)] at h
  have h2 := congrArg Prod.fst h
  have hl : (endLoop (pair m) (endPlan (pair m))).tba =
    ((List.range 2).foldl (endCodeblock (pair m).params (pair m).sess (endPlan (pair m)) (pair m).acc)
    { harq := (endStartHarq (pair m) (endPlan (pair m))), off := 0, otb := 0, tba := (pair m).tba, recs := [] }).tba := by
    rw [endLoop, show (endPlan (pair m)).seg.c = 2 from pair_seg m]
  show (endLoop (pair m) (endPlan (pair m))).tba = _
  rw [hl]
  refine h2.trans ?_
  have ha : (assembleBits m 1928).length = 1928 := by simp [assembleBits]
  have hz : bitsWrite (pair m).tba 0 (assembleBits m 1928) = assembleBits m 1928 := by
    rw [bitsWrite_zero]
    show _ ++ List.drop _ [] = _
    simp
  show bitsWrite (bitsWrite (pair m).tba 0 (assembleBits m 1928)) 1928 (assembleBits [] 1928) = _
  rw [hz]
  have he := bitsWrite_end (assembleBits m 1928) (assembleBits [] 1928)
  rwa [ha] at he

theorem pair_crc (m : List Bool) :
    crcOk .crc24A ((List.range (8 * (pair m).sess.tbBytes.toNat + 24)).map fun k => bitAt (ended (pair m)).tba k) =
      crcOk .crc24A (assembleBits m 1928 ++ assembleBits [] 1928) := by
  have hn : 8 * (pair m).sess.tbBytes.toNat + 24 = (assembleBits m 1928 ++ assembleBits [] 1928).length := by
    simp [assembleBits, pair, opened, pairSession]
  rw [pair_tba, hn, map_bitAt]
  
theorem pair_good : crcOk .crc24A (assembleBits [] 1928 ++ assembleBits [] 1928) = true := by decide +kernel
theorem pair_bad : crcOk .crc24A (assembleBits [true] 1928 ++ assembleBits [] 1928) = false := by decide +kernel

/-- The message bits K_HD decides from a soft buffer, read directly. -/
theorem hardBits_decoderInput (soft : Sparse Int) (seg : Seg) (ncb : Nat) (h : seg.kPrime ≤ ncol seg.bg * seg.zc) :
    hardBits seg.kPrime (decoderInput soft seg ncb) = (List.range seg.kPrime).map fun n =>
      if n < 2 * seg.zc then false
      else if n - 2 * seg.zc < ncb ∨ isFiller seg (n - 2 * seg.zc) = true then decide (softAt soft (n - 2 * seg.zc) < 0)
      else false := by
  refine List.map_congr_left fun n hn => ?_
  have hlt : n < ncol seg.bg * seg.zc := lt_of_lt_of_le (List.mem_range.mp hn) h
  simp only [decoderInput, List.getD_eq_getElem?_getD, List.getElem?_map, List.getElem?_range hlt, Option.map_some,
    Option.getD_some]
  split
  · rfl
  · split <;> rfl

theorem softAt_nonneg (l : Sparse Int) (h : ∀ e ∈ l, 0 ≤ e.2) (p : Nat) : 0 ≤ softAt l p := by
  induction l with
  | nil => exact le_refl 0
  | cons e l ih =>
    have ih := ih fun x hx => h x (List.mem_cons_of_mem _ hx)
    obtain ⟨j, v⟩ := e
    simp only [softAt, sparseGet, sparseFind_cons] at ih ⊢
    split
    · exact h (j, v) List.mem_cons_self
    · exact ih

theorem failing_soft :
    (rateDematch false 2 (segmentTb 3832 .bg2) 10400 0 [] [(0, -9)]) = (0, -9) :: (List.range 128).map fun t => (1536 + t, 127) := by
  decide +kernel

theorem failing_crc : crcOk .crc24B ((List.range 1952).map fun n => decide (n = 416)) = false := by decide +kernel

theorem failing_bits :
    hardBits 1952 (decoderInput ((0, -9) :: (List.range 128).map fun t => (1536 + t, 127)) (segmentTb 3832 .bg2) 10400) =
      (List.range 1952).map fun n => decide (n = 416) := by
  have hk : (segmentTb 3832 .bg2).kPrime = 1952 ∧ (segmentTb 3832 .bg2).zc = 208 ∧ (segmentTb 3832 .bg2).bg = .bg2 := by decide
  have h := hardBits_decoderInput ((0, -9) :: (List.range 128).map fun t => (1536 + t, 127)) (segmentTb 3832 .bg2) 10400
    (by rw [hk.1, hk.2.1, hk.2.2]; decide)
  rw [hk.1, hk.2.1] at h
  refine h.trans (List.map_congr_left fun n hn => ?_)
  have hn := List.mem_range.mp hn
  have hs := softAt_nonneg ((List.range 128).map fun t => (1536 + t, 127)) (by simp) (n - 416)
  simp only [softAt, sparseGet] at hs
  by_cases h0 : n < 416
  · simp [h0]
    omega
  · rw [if_neg (by omega), if_pos (.inl (by omega))]
    by_cases h1 : n = 416
    · subst h1
      rfl
    · simp only [softAt, sparseGet, sparseFind_cons, show 2 * 208 = 416 from rfl]
      rw [if_neg (by omega)]
      simp [h1]
      simpa using hs

theorem pairFailing_checks : EndChecks pairFailing :=
  ⟨rfl, rfl, rfl, by show (segmentTb 3832 .bg2).c ≤ 152; decide, by show (segmentTb 3832 .bg2).c = 2; decide⟩

theorem pair_params (m : List Bool) : (pair m).params.Ok := defaults_ok

theorem pairFailing_params : pairFailing.params.Ok := defaults_ok

theorem failing_part : (endPart pairFailing 1).2.cbPass = false := by
  have hp : (segmentTb 3832 .bg2).c = 2 ∧ (segmentTb 3832 .bg2).n = 10400 ∧ (segmentTb 3832 .bg2).a = 3832 ∧
    (segmentTb 3832 .bg2).kPrime = 1952 := by decide
  have hs : (endPlan pairFailing).seg = segmentTb 3832 .bg2 := rfl
  have h1 : (endPlan pairFailing).ncb = 10400 := by
    show circularLen (endPlan pairFailing).seg.n 0 = 10400
    rw [hs, hp.2.1]
    rfl
  have h2 : (endPlan pairFailing).poly = .crc24B := by
    show cbCrc (endPlan pairFailing).seg.a (endPlan pairFailing).seg.c = _
    rw [hs, hp.1, hp.2.2.1]
    rfl
  have h3 : (endPlan pairFailing).k0 = 0 := by
    show 0 * _ / _ * _ = 0
    rw [Nat.zero_mul, Nat.zero_div, Nat.zero_mul]
  have hf : (pairFailing.acc.drop ((endPlan pairFailing).start 1)).take ((endPlan pairFailing).len 1) = [] := by
    rw [show pairFailing.acc = [] from rfl]
    simp
  have hb : ((endStartHarq pairFailing (endPlan pairFailing)).cb 1).alloc = true ∧
      ((endStartHarq pairFailing (endPlan pairFailing)).cb 1).soft = [(0, -9)] := ⟨rfl, rfl⟩
  rw [endPart_attempt rfl, hf, h1, h2, h3, hs, hb.1, hb.2, if_pos rfl, show pairFailing.sess.earlyStop = true from rfl,
    show pairFailing.sess.maxIter.toNat = 1 from rfl, attemptDecode_hard_once rfl, show pairFailing.sess.newData = false from rfl,
    show (endPlan pairFailing).qm = 2 from rfl, failing_soft, hp.2.2.2, failing_bits, failing_crc]

theorem pair_pass (m : List Bool) (r : Nat) (h : r < 2) : cbPassOf ((ended (pair m)).resCb r) = true := by
  have hc : r < (pair m).seg.c := by rw [pair_seg]; exact h
  rw [ended, (endEffect_resCb_fields (pair_params m) (test_witness_EndPair m) hc).2.2.1, (pair_parts m r h).1]

/-- Every clause: one codeblock; two that pass, with the TB CRC right and wrong; two of which one fails. -/
theorem test_witness_TbDecisionTable :
    ((p6 60).fault = false ∧ (p6 60).params.Ok ∧ EndChecks (p6 60) ∧ exec .endSession (p6 60) = .next (ended (p6 60)) ∧
      (p6 60).seg.c = 1) ∧
    (∀ m, (pair m).fault = false ∧ (pair m).params.Ok ∧ EndChecks (pair m) ∧
      exec .endSession (pair m) = .next (ended (pair m)) ∧ 1 < (pair m).seg.c ∧
      ∀ r, r < (pair m).seg.c → cbPassOf ((ended (pair m)).resCb r) = true) ∧
    (let crc := fun m => crcOk .crc24A
        ((List.range (8 * (pair m).sess.tbBytes.toNat + 24)).map fun k => bitAt (ended (pair m)).tba k)
     crc [] = true ∧ crc [true] = false) ∧
    (pairFailing.fault = false ∧ pairFailing.params.Ok ∧ EndChecks pairFailing ∧
      exec .endSession pairFailing = .next (ended pairFailing) ∧ 1 < pairFailing.seg.c ∧
      ∃ r, r < pairFailing.seg.c ∧ cbPassOf ((ended pairFailing).resCb r) = false) := by
  have hc2 : pairFailing.seg.c = 2 := pair_seg []
  refine ⟨⟨rfl, defaults_ok, test_witness_EndChecks 60, execEnd_next rfl (test_witness_EndChecks 60), ?_⟩, fun m => ?_,
    ⟨(pair_crc []).trans pair_good, (pair_crc [true]).trans pair_bad⟩, rfl, defaults_ok, pairFailing_checks,
    execEnd_next rfl pairFailing_checks, by omega, 1, by omega, ?_⟩
  · show (segmentTb 24 .bg2).c = 1
    decide
  · exact ⟨rfl, defaults_ok, test_witness_EndPair m, execEnd_next rfl (test_witness_EndPair m), by rw [pair_seg]; decide,
      fun r h => pair_pass m r (by rwa [pair_seg] at h)⟩
  · rw [ended, (endEffect_resCb_fields pairFailing_params pairFailing_checks (by omega)).2.2.1, failing_part]

/-- One codeblock, attempted; and the second of two, skipped, up to the last bit of the transport block's CRC, and past it. -/
theorem test_witness_AssemblyConcatenatesMessages :
    ((p6 60).fault = false ∧ EndChecks (p6 60) ∧ exec .endSession (p6 60) = .next (ended (p6 60)) ∧
      0 < (p6 60).seg.c ∧ 23 < (p6 60).seg.d ∧ 0 * (p6 60).seg.d + 23 < 8 * (p6 60).sess.tbBytes.toNat ∧
      8 * (p6 60).sess.tbBytes.toNat ≤ 24) ∧
    ((pair []).fault = false ∧ EndChecks (pair []) ∧ exec .endSession (pair []) = .next (ended (pair [])) ∧
      1 < (pair []).seg.c ∧ 1927 < (pair []).seg.d ∧
      1 * (pair []).seg.d + 1927 < 8 * (pair []).sess.tbBytes.toNat + 24) := by
  have h1 : (p6 60).seg = segmentTb 24 .bg2 := rfl
  have h2 : (pair []).seg = segmentTb 3832 .bg2 := rfl
  have h3 : 8 * (pair []).sess.tbBytes.toNat + 24 = 3856 := rfl
  rw [h1, h2, h3]
  exact ⟨⟨rfl, test_witness_EndChecks 60, execEnd_next rfl (test_witness_EndChecks 60), by decide⟩,
    rfl, test_witness_EndPair [], execEnd_next rfl (test_witness_EndPair []), by decide⟩

/-- A skipped codeblock with a cached message, and an attempted one. -/
theorem test_witness_EndDecodesOnlyClearFlags :
    ((pair []).fault = false ∧ (pair []).params.Ok ∧ 1 ≤ (pair []).sess.maxIter.toNat ∧ EndChecks (pair []) ∧
      exec .endSession (pair []) = .next (ended (pair [])) ∧ (pair []).skips 0 = true ∧ ((pair []).borrowed.cb 0).alloc = true) ∧
    ((p6 60).fault = false ∧ (p6 60).params.Ok ∧ 1 ≤ (p6 60).sess.maxIter.toNat ∧ EndChecks (p6 60) ∧
      exec .endSession (p6 60) = .next (ended (p6 60)) ∧ 0 < (p6 60).seg.c ∧ (p6 60).skips 0 = false ∧
      (p6 60).sess.earlyStop = false ∧ 39 < (p6 60).seg.kPrime ∧ (p6 60).seg.kPrime ≤ 40) ∧
    (cbPassOf ((ended pairFailing).resCb 1) = false ∧ pairFailing.skips 1 = false) :=
  have hc2 : pairFailing.seg.c = 2 := pair_seg []
  ⟨⟨rfl, defaults_ok, by decide, test_witness_EndPair [], execEnd_next rfl (test_witness_EndPair []), rfl, rfl⟩,
    ⟨rfl, defaults_ok, by decide, test_witness_EndChecks 60, execEnd_next rfl (test_witness_EndChecks 60), by
      show 0 < (segmentTb 24 .bg2).c; decide, rfl, rfl, by
      show 39 < (segmentTb 24 .bg2).kPrime ∧ (segmentTb 24 .bg2).kPrime ≤ 40; decide⟩,
    by rw [ended, (endEffect_resCb_fields pairFailing_params pairFailing_checks (by omega)).2.2.1, failing_part], rfl⟩

/-- No codeblock attempted, and one. -/
theorem test_witness_ReportAggregatesRecords :
    ((List.range (pair []).seg.c).filter fun r => attemptedOf ((ended (pair [])).resCb r)) = [] ∧
    ((List.range (p6 60).seg.c).filter fun r => attemptedOf ((ended (p6 60)).resCb r)) = [0] := by
  refine ⟨List.filter_eq_nil_iff.mpr fun r h => ?_, by decide +kernel⟩
  have h := List.mem_range.mp h
  rw [ended, (endEffect_resCb_fields (pair_params []) (test_witness_EndPair []) h).2.1, (pair_parts [] r (by rwa [pair_seg] at h)).1]
  decide

/-- Another history of the borrowed buffer: every flag set and other soft bits. -/
theorem test_witness_NewDataForgetsHistory :
    (p6 60).fault = false ∧ (p6 60).sess.newData = true ∧ (p6 60).sess.Legal (p6 60).params ∧ EndChecks (p6 60) ∧
    ({ p6 60 with hs := [(1, { nofCb := 1, cbs := [(0, { alloc := true, flag := true, soft := [(3, 5)], msg := [true] })] })] }.borrowed).nofCb =
      (p6 60).borrowed.nofCb :=
  ⟨rfl, rfl,
    { tb := by decide
      bg := .inr rfl
      qm := by decide
      nl := by decide
      iter := by decide
      harq := by decide },
    test_witness_EndChecks 60, rfl⟩

theorem test_witness_OpenSessionIgnoresCfg :
    (∃ t, exec .endSession (p6 60) = .next t) ∧ ∃ t, exec (.push 2#13) (p6 60) = .next t := ⟨⟨_, rfl⟩, _, rfl⟩

/-- One LLR, then two, against the three at once. -/
theorem test_witness_ChunkingInvariance :
    (let whole := { opened shortSession [] 1 [] with mem := [(0x1000, 1#8), (0x1001, 2#8), (0x1002, 0x80#8)] }
     let second := { opened shortSession [1] 1 [] with mem := [(0x1000, 2#8), (0x1001, 0x80#8)] }
     (3#13).toNat = (1#13).toNat + (2#13).toNat ∧ (3#13).toNat ≤ 4096 ∧
     whole.fault = false ∧ second.fault = false ∧ whole.phase = .accum ∧ second.phase = .accum ∧
     whole.params = second.params ∧ whole.accCount + (3#13).toNat ≤ whole.params.maxSoftbits ∧
     (∀ i, i < (2#13).toNat → whole.stageByte ((1#13).toNat + i) = second.stageByte i) ∧
     second.acc = (after (exec (.push 1#13) whole)).acc) := by decide

/-- FaultsArePrecise, CommandsDiscardedWhileFaulted, and a step that sets FAULT. -/
theorem test_witness_FaultsArePrecise :
    (let s := busyWith 0x05000000#32 lab []
     ∃ t, step s = .next t ∧ s.fault = false ∧ t.fault = true) ∧
    (let s := { busyWith 0x02000000#32 configured [] with fault := true, faultCause := .illegalCmd, faultCmd := 0x05000000#32 }
     s.fault = true ∧ encode .beginSession = .command 0x02000000#32 ∧ ∃ t, step s = .next t ∧ t.fault = true) :=
  ⟨⟨_, rfl, rfl, rfl⟩, rfl, rfl, _, rfl, rfl⟩

/-- Both resets, the second through an address above 2^19. -/
theorem test_witness_OnlyResetClearsFault :
    (let s := { lab with fault := true, faultCause := .pushRange, inputs := [.reset] }
     ∃ t, step s = .next t ∧ s.fault = true ∧ t.fault = false) ∧
    (let s := { lab with fault := true, faultCause := .pushRange, inputs := [.txn (.write .four 0x80020 1#32)] }
     s.pending = none ∧ 0x80020 % 2 ^ 19 = 0x020 ∧ (1#32).getLsbD 0 = true ∧
     ∃ t, step s = .next t ∧ s.fault = true ∧ t.fault = false) :=
  ⟨⟨_, rfl, rfl, rfl⟩, rfl, by decide, by decide, _, rfl, rfl, rfl⟩

/-- BEGIN opens, END closes, a reset closes, a fault leaves the phase; the other commands run. -/
theorem test_witness_PhaseTransitions :
    (∃ t, step (busyWith 0x02000000#32 configured []) = .next t ∧ t.phase ≠ configured.phase) ∧
    (∃ t, step (busyWith 0x04000000#32 (p6 60) []) = .next t ∧ t.phase ≠ (p6 60).phase) ∧
    (∃ t, step { p6 60 with inputs := [.reset] } = .next t ∧ t.phase ≠ (p6 60).phase) ∧
    (∃ t, step (busyWith 0x02000000#32 (p6 60) []) = .next t ∧ (p6 60).fault = false ∧ t.fault = true) ∧
    (∃ t, exec .beginSession configured = .next t ∧ t.fault = false) ∧
    (∃ t, exec .endSession (p6 60) = .next t ∧ t.fault = false) ∧
    AfterReset (p6 60) (p6 60).doReset ∧
    ((∃ t, exec .nop (p6 60) = .next t) ∧ (∃ t, exec (.harqAlloc 0#8 1#16) lab = .next t) ∧
      ∃ t, exec (.push 2#13) (p6 60) = .next t) :=
  ⟨⟨_, rfl, by decide⟩, ⟨_, rfl, by decide +kernel⟩, ⟨_, rfl, by decide⟩, ⟨_, rfl, rfl, rfl⟩, ⟨_, rfl, rfl⟩,
    ⟨_, rfl, by decide +kernel⟩, doReset_afterReset _, ⟨_, rfl⟩, ⟨_, rfl⟩, _, rfl⟩

/-- An END, a reset after one, a STATUS write. -/
theorem test_witness_EachEndReportsOnce :
    (∃ t, step (busyWith 0x04000000#32 (p6 60) []) = .next t ∧ t.resSeq ≠ (p6 60).resSeq ∧ (p6 60).done = false ∧ t.done = true) ∧
    (let s := { lab with resSeq := 7, done := true, inputs := [.reset] }
     ∃ t, step s = .next t ∧ t.resSeq ≠ s.resSeq ∧ s.done = true ∧ t.done = false) ∧
    (let s := { lab with done := true, inputs := [.txn (.write .four 0x024 2#32)] }
     ∃ t, step s = .next t ∧ s.done = true ∧ t.done = false) :=
  ⟨⟨_, rfl, by decide +kernel, rfl, by decide +kernel⟩, ⟨_, rfl, by decide, rfl, rfl⟩, _, rfl, rfl, rfl⟩

/-- A flag that END sets; flags that HARQ_ALLOC, a new-data END and a reset clear. -/
theorem test_witness_CrcFlagsChange :
    (∃ t, step (busyWith 0x04000000#32 (p6 60) []) = .next t ∧ (((p6 60).harq 1).cb 0).flag = false ∧
      ((t.harq 1).cb 0).flag = true) ∧
    (let s := { busyWith 0x01000001#32 (pair []) [] with phase := .idle }
     ∃ t, step s = .next t ∧ ((s.harq 0).cb 0).flag = true ∧ ((t.harq 0).cb 0).flag = false) ∧
    (let s := busyWith 0x04000000#32 (opened p6Session (-60 :: p6Tail) 1 []) []
     let u := { s with hs := [(1, { nofCb := 1, cbs := [(0, { alloc := true, flag := true, soft := [], msg := [] })] })] }
     ∃ t, step u = .next t ∧ ((u.harq 1).cb 0).flag = true ∧ ((t.harq 1).cb 0).flag = false) ∧
    (let s := { pair [] with inputs := [.reset] }
     ∃ t, step s = .next t ∧ ((s.harq 0).cb 0).flag = true ∧ ((t.harq 0).cb 0).flag = false) :=
  ⟨⟨_, rfl, by decide, by decide +kernel⟩, ⟨_, rfl, by decide, by decide +kernel⟩, ⟨_, rfl, by decide, by decide +kernel⟩,
    _, rfl, by decide, by decide⟩

/-- The least and the greatest transport block, at both graphs, and a lifting size that fits. -/
theorem test_witness_SegmentationInvariants :
    (1 ≤ 1 ∧ 262144 ≤ 262144) ∧
    (4 ∈ liftingSets.flatten ∧ (segmentTb (8 * 1) .bg2).kPrime ≤ (segmentTb (8 * 1) .bg2).kb * 4) ∧
    (384 ∈ liftingSets.flatten ∧ (segmentTb (8 * 262144) .bg1).kPrime ≤ (segmentTb (8 * 262144) .bg1).kb * 384) := by
  decide +kernel

/-- Enough LLRs for both codeblocks, with a short span and then a long one, and too few. -/
theorem test_witness_SpansPartitionTheLlrs :
    (0 < 2 - 6 / (2 * 1) % 2 ∧ 2 - 6 / (2 * 1) % 2 ≤ 1 ∧ 1 < 2) ∧
    (1 ≤ 2 ∧ 1 ≤ 2 ∧ 1 ≤ 1 ∧ ([1, 2, 3, 4, 5, 6] : List Int).length % (2 * 1) = 0) ∧
    (([1, 2] : List Int).length % (2 * 1) = 0 ∧ ([1, 2] : List Int).length < 2 * (2 * 1)) := by decide

theorem test_witness_StartPosition :
    (0 < 4 ∧ 3 < 4 ∧ 1 ≤ 1 ∧ 1 ≤ 25344 ∧ 1 ≤ 384) ∧ (1 ≤ 25344 ∧ (0 = 0) ∧ 1 ≠ 0) ∧
    startPosition 3 .bg1 25344 384 = 21504 := by decide

theorem test_witness_Deinterleave :
    1 ≤ 2 ∧ ([1, 2, 3, 4, 5, 6] : List Int).length % 2 = 0 ∧ 1 < 2 ∧ 2 < ([1, 2, 3, 4, 5, 6] : List Int).length / 2 ∧
    deinterleave [1, 2, 3, 4, 5, 6] 2 = [1, 3, 5, 2, 4, 6] ∧ ([7] : List Int).length % 1 = 0 := by decide

/-- The segmentation of one byte with BG 2: position 0 is no filler, 16 is one, 40 is none again. -/
theorem test_witness_Dematch :
    (let g := segmentTb 8 .bg2
     1 ≤ 1 ∧ 1 ≤ 200 ∧ isFiller g 0 = false ∧ 2 * g.zc ≤ g.kPrime ∧ g.kPrime + g.f = g.k ∧
     isFiller g 16 = true ∧ isFiller g 31 = true ∧ isFiller g 15 = false ∧ isFiller g 32 = false ∧
     (isFiller g 200 = false ∧ 200 ≤ 200)) := by decide +kernel

/-- The first decision fails, the second passes; two that fail. -/
theorem test_witness_DecodeControl :
    (let p := Crc.crc16
     let bad := List.replicate 16 false ++ [true]
     let good := List.replicate 17 false
     ([bad, good].length = 2 ∧ 1 ≤ 2) ∧
     (crcOk p ([bad, good].getD (2 - 1) []) = true ∧ ∀ u, u < 2 → 1 ≤ u → crcOk p ([bad, good].getD (u - 1) []) = false) ∧
     ([bad, bad].length = 2 ∧ ∀ u, u < 3 → 1 ≤ u → crcOk p ([bad, bad].getD (u - 1) []) = false)) := by decide +kernel

theorem test_witness_NonNegativeInput :
    (let inp : KernelIn := { lam := [0, 127, 3], bg := .bg2, zc := 4, iLS := 0, kPrime := 24, maxIter := 1 }
     (∀ v ∈ inp.lam, 0 ≤ v) ∧ 1 ≤ inp.maxIter) := by decide

/-- A table with two entries in row 0. -/
theorem test_witness_ChecksOfARow :
    (let src := ShiftSource.given { bg1 := [], bg2 := [(0, 0, [1]), (0, 3, [7])] }
     0 < 4 ∧ 3 < 4 ∧ 0 ≠ 3 ∧ 1 ∈ checkVars (rowBlocks src .bg2 4 0 0) 4 0 ∧
     checkVars (rowBlocks src .bg2 4 0 0) 4 3 = [0, 14]) ∧
    ([-3] : List Int).length = 1 ∧
    (let q : List Int := [10, -20, 30, -5]
     let others := ((List.range q.length).filter fun t => decide (t ≠ 3)).map fun t => q.getD t 0
     3 < q.length ∧ 10 ∈ others.map Int.natAbs ∧ ∀ x ∈ others, 10 ≤ x.natAbs) ∧
    (let post : List Int := [10, -20, 30, -5]
     let vars := [1, 3]
     vars.Nodup ∧ (∀ n ∈ vars, n < post.length) ∧ ([4, -2] : List Int).length = vars.length ∧ 1 < vars.length ∧ 2 ∉ vars) := by
  decide +kernel

/-- A row of two blocks at Zc = 2, with variables in and out of its checks; and a first and last decision. -/
theorem test_witness_ReferenceKernelIterates :
    (let blocks := rowBlocks (.given { bg1 := [], bg2 := [(0, 0, [1]), (0, 3, [7])] }) .bg2 2 0 0
     let msgs : List (List Int) := [[0, 0], [0, 0]]
     (List.replicate 104 (1 : Int)).length = ncol .bg2 * 2 ∧ msgs.length = 2 ∧ (∀ ms ∈ msgs, ms.length = blocks.length) ∧
     1 < 2 ∧ 0 ∈ checkVars blocks 2 1 ∧ ∀ z, z < 2 → 2 ∉ checkVars blocks 2 z) ∧
    (let inp : KernelIn := { lam := [-1, 2], bg := .bg2, zc := 2, iLS := 0, kPrime := 2, maxIter := 2 }
     0 < inp.maxIter ∧ 1 < inp.maxIter) := by decide +kernel

/-- A sequence of the CRC alone passes if it is zero and fails if not. -/
theorem test_witness_CrcOk :
    crcLen .crc16 ≤ (List.replicate 16 false).length ∧ crcOk .crc16 (List.replicate 16 false) = true ∧
    crcOk .crc16 (List.replicate 15 false ++ [true]) = false ∧
    (let inp : KernelIn := { lam := [-1, 2], bg := .bg2, zc := 4, iLS := 0, kPrime := 2, maxIter := 1 }
     [true, false] ∈ runKernel .hardDecision .standard inp) := by decide

/-- On both sides of the size rule, at the edges of the regions. -/
theorem test_witness_IllegalAccesses :
    (breaksR68 .two (0x00FFC % 2 ^ 19) ∧ breaksR68 .four (0x00002 % 2 ^ 19) ∧ breaksR68 .four (0x01001 % 2 ^ 19) ∧
      breaksR68 .two (0x7FFFF % 2 ^ 19)) ∧
    (¬ breaksR68 .four (0x00FFC % 2 ^ 19) ∧ ¬ breaksR68 .one (0x01000 % 2 ^ 19) ∧ ¬ breaksR68 .one (0xFFFFF % 2 ^ 19) ∧
      ¬ breaksR68 .two (0x02000 % 2 ^ 19)) := by
  simp only [breaksR68]
  decide

theorem test_witness_RegisterReads :
    lab.pending = none ∧ (0x000#12).toNat % 4 = 0 ∧ (0x4FC#12).toNat % 4 = 0 ∧ (0xFFC#12).toNat % 4 = 0 ∧
    (7 < 8 ∧ 31 < 32) ∧ (0xFFF#12).toNat % Size.one.bytes = 0 ∧ (0xFFC#12).toNat % Size.four.bytes = 0 ∧
    (0x3FFFF#18).toNat % Size.one.bytes = 0 ∧ (0x3FFFE#18).toNat % Size.two.bytes = 0 := by decide

theorem test_witness_CmdCtrlWrites :
    lab.fault = false ∧ (6#32).getLsbD 0 = false ∧ (7#32).getLsbD 0 = true := by decide

end Sys2Proof.Tests
end

section
/-! SUPPORT. The invariant of Safety.lean: what it does not read, and that each operation a step is made of keeps it. -/

namespace Sys2Proof.Machine

/-! ### Soft buffers stay in range (42_rate_dematch.md R199) -/

/-- Every position of a soft buffer holds an LLR in range. -/
def SoftOk (soft : Sparse Int) : Prop := ∀ p, LlrOk (softAt soft p)

theorem softOk_softZero : SoftOk softZero := fun p => by simp [LlrOk]

theorem SoftOk.softSet {soft : Sparse Int} {v : Int} (h : SoftOk soft) (hv : LlrOk v) (p : Nat) :
    SoftOk (softSet soft p v) := fun q => by
  rw [softAt_softSet]
  split
  · exact hv
  · exact h q

/-- The walk writes saturated sums only. -/
theorem SoftOk.dematchWalk (seg : Seg) (ncb k0 fuel j : Nat) (xs : List Int) (buf : Sparse Int) (h : SoftOk buf) :
    SoftOk (dematchWalk seg ncb k0 fuel j xs buf) := by
  induction fuel, j, xs, buf using dematchWalk.induct seg ncb k0 with
  | case1 _ _ _ => simpa [Machine.dematchWalk] using h
  | case2 _ _ _ _ => simpa [Machine.dematchWalk] using h
  | case3 fuel j x xs buf hfill ih =>
    rw [Machine.dematchWalk, if_pos hfill]
    exact ih h
  | case4 fuel j x xs buf hfill ih =>
    rw [Machine.dematchWalk, if_neg hfill]
    exact ih (h.softSet (sat_range _) _)

theorem SoftOk.writeFillers (seg : Seg) {buf : Sparse Int} (h : SoftOk buf) : SoftOk (writeFillers seg buf) := fun p => by
  rw [Machine.writeFillers, foldl_softSet]
  split
  · simp [LlrOk, Config.llrMax]
  · exact h p

theorem SoftOk.rateDematch (newData : Bool) (qm : Nat) (seg : Seg) (ncb k0 : Nat) (f : List Int) {buf : Sparse Int}
    (h : SoftOk buf) : SoftOk (rateDematch newData qm seg ncb k0 f buf) := by
  have hstart : SoftOk (if newData then softZero else buf) := by
    split
    · exact softOk_softZero
    · exact h
  exact (SoftOk.dematchWalk _ _ _ _ _ _ _ hstart).writeFillers seg

theorem SoftOk.endBuffers (ps : Params) (ss : Session) (p : EndPlan) (acc : List Int) (off r : Nat) {c : CbBuf}
    (h : SoftOk c.soft) : SoftOk (endBuffers ps ss p acc off r c).1.soft := by
  rw [(endBuffers_soft ps ss p acc off r c).2]
  refine SoftOk.rateDematch _ _ _ _ _ _ ?_
  split
  · exact h
  · exact softOk_softZero

/-- Clearing the flags for new data leaves the soft buffers. -/
theorem endStartHarq_soft (s : State) (p : EndPlan) (r : Nat) :
    ((endStartHarq s p).cb r).soft = ((s.harq s.sess.harqId.toNat).cb r).soft := by
  unfold endStartHarq
  split
  · rw [clearFlags_cb]
    split <;> rfl
  · rfl

theorem deallocate_soft (b : HarqBuf) (n r : Nat) : ((deallocate b n).cb r).soft = (b.cb r).soft := by
  rw [deallocate_cb]
  split <;> rfl

/-! ### Reserved fields of the words END reports (10_state.md R37, R40) -/

theorem summaryWord_reserved (n : Nat) (ok : Bool) : (summaryWord n ok).extractLsb' 2 14 = 0 := by
  apply BitVec.eq_of_toNat_eq
  rw [BitVec.extractLsb'_toNat, summaryWord_toNat, Nat.shiftRight_eq_div_pow]
  have := Bool.toNat_lt ok
  show _ = 0
  omega

theorem cbWord_reserved (iter : Nat) (attempted cbPass flagEnd : Bool) :
    (cbWord iter attempted cbPass flagEnd).extractLsb' 19 13 = 0 := by
  apply BitVec.eq_of_toNat_eq
  rw [BitVec.extractLsb'_toNat, cbWord_toNat, Nat.shiftRight_eq_div_pow]
  have := Bool.toNat_lt attempted
  have := Bool.toNat_lt cbPass
  have := Bool.toNat_lt flagEnd
  show _ = 0
  omega

theorem report_cb_reserved (ok : Bool) (recs : List CbRec) (p : EndPlan) (b : HarqBuf) {w : Word}
    (hw : w ∈ (report ok recs p b).cb) : w.extractLsb' 19 13 = 0 := by
  obtain ⟨r, -, rfl⟩ := List.mem_map.1 hw
  exact cbWord_reserved _ _ _ _

theorem codingMask_reserved (v : Word) : (v &&& codingMask) &&& 0xFF00E000#32 = 0 := by
  rw [BitVec.and_assoc, show codingMask &&& 0xFF00E000#32 = 0#32 by decide, BitVec.and_zero]
  rfl

/-! ### Memory -/

/-- Bytes written inside STAGE or TBOUT leave memory canonical and inside the windows. -/
theorem State.MemInv.writeBytes {s t : State} (h : s.MemInv) {a : Nat} {bs : List Byte}
    (hw : ∀ i, i < bs.length → WindowAddr (a + i)) (ht : t.mem = memWriteBytes s.mem a bs) : t.MemInv where
  canonical := by
    rw [ht]
    exact memWriteBytes_wf bs s.mem a h.canonical
  windows x b hx := by
    by_cases hin : a ≤ x ∧ x < a + bs.length
    · have hwx := hw (x - a) (by omega)
      rwa [show a + (x - a) = x by omega] at hwx
    · rw [ht, memFind_writeBytes_outside bs s.mem a x (by omega)] at hx
      exact h.windows x b hx

theorem length_lanesOf (size : Size) (v : Word) : (lanesOf size v).length = size.bytes := by
  simp [lanesOf]

theorem length_tbBytesOf (tba : List Bool) (n : Nat) : (tbBytesOf tba n).length = n := by
  simp [tbBytesOf]

/-! ### What the invariant does not read -/

/-- The invariant reads none of the enables, DONE, RES_SEQ, the other CFG registers, the view, TBA, the epoch and the host's side. -/
theorem State.Inv.of_unread {s t : State} (h : s.Inv)
    (ht : t = { s with
      ieDone := t.ieDone, ieFault := t.ieFault, done := t.done, resSeq := t.resSeq, cfgTbBytes := t.cfgTbBytes,
      cfgNref := t.cfgNref, cfgHarqId := t.cfgHarqId, harqViewId := t.harqViewId, tba := t.tba, inputs := t.inputs,
      resp := t.resp, draws := t.draws, epoch := t.epoch }) : t.Inv := by
  obtain ⟨⟨hp, hlegal, hidle, hcount, hsized⟩, ⟨hacc, hsoft⟩, ⟨hclear, hraised⟩, ⟨hcoding, hsum, hcb⟩, ⟨hcan, hwin⟩⟩ := h
  rw [ht]
  exact ⟨⟨hp, hlegal, hidle, hcount, hsized⟩, ⟨hacc, hsoft⟩, ⟨hclear, hraised⟩, ⟨hcoding, hsum, hcb⟩, ⟨hcan, hwin⟩⟩

/-- Only the fault record's part of the invariant reads what fault entry and the end of a step write. -/
theorem State.Inv.of_fault {s t : State} (h : s.Inv)
    (ht : t = { s with
      fault := t.fault, faultCause := t.faultCause, faultCmd := t.faultCmd, faultInfo := t.faultInfo,
      pending := t.pending }) (hf : t.FaultInv) : t.Inv := by
  obtain ⟨⟨hp, hlegal, hidle, hcount, hsized⟩, ⟨hacc, hsoft⟩, -, ⟨hcoding, hsum, hcb⟩, ⟨hcan, hwin⟩⟩ := h
  refine ⟨?_, ?_, hf, ?_, ?_⟩ <;> rw [ht]
  · exact ⟨hp, hlegal, hidle, hcount, hsized⟩
  · exact ⟨hacc, hsoft⟩
  · exact ⟨hcoding, hsum, hcb⟩
  · exact ⟨hcan, hwin⟩

/-! ### The operations of a step -/

theorem State.Inv.withInputs {s : State} (h : s.Inv) (l : List HostInput) : (s.withInputs l).Inv := h.of_unread rfl

theorem State.Inv.endStep {s : State} (h : s.Inv) : s.endStep.Inv :=
  h.of_fault rfl ⟨h.fault.clear, fun hf => ⟨(h.fault.raised hf).1, rfl⟩⟩

theorem State.Inv.takeFault {s : State} (h : s.Inv) (w : Word) {e : Raise} (he : e.1 ≠ .none) : (takeFault w e s).Inv :=
  h.of_fault rfl ⟨(nomatch ·), fun _ => ⟨he, rfl⟩⟩

theorem State.Inv.doReset {s : State} (h : s.Inv) : s.doReset.Inv where
  session :=
    { params := h.session.params
      legal := (nomatch ·)
      idle := fun _ => rfl
      count := Nat.zero_le _
      sized := fun _ => Nat.zero_le _ }
  llr := ⟨fun _ => (nomatch ·), fun _ _ => softOk_softZero⟩
  fault := ⟨fun _ => ⟨rfl, rfl, rfl⟩, (nomatch ·)⟩
  reserved := ⟨BitVec.zero_and, (by decide : (0#32).extractLsb' 2 14 = 0), fun _ => (nomatch ·)⟩
  mem := ⟨reset_mem_wf, fun _ _ => (nomatch ·)⟩

/-- A HARQ buffer put back with a size within MAX_CB and soft buffers in range. -/
theorem State.Inv.setHarq {s : State} (h : s.Inv) (hid : Nat) {b : HarqBuf} (hn : b.nofCb ≤ s.params.maxCb)
    (hsoft : ∀ r, SoftOk (b.cb r).soft) : (s.setHarq hid b).Inv where
  session :=
    { params := h.session.params
      legal := h.session.legal
      idle := h.session.idle
      count := h.session.count
      sized := fun k => by
        rw [State.setHarq_harq]
        split
        · exact hn
        · exact h.session.sized k }
  llr :=
    { acc := h.llr.acc
      soft := fun k r => by
        rw [State.setHarq_harq]
        split
        · exact hsoft r
        · exact h.llr.soft k r }
  fault := ⟨h.fault.clear, h.fault.raised⟩
  reserved := ⟨h.reserved.coding, h.reserved.summary, h.reserved.cb⟩
  mem := ⟨h.mem.canonical, h.mem.windows⟩

/-- HARQ_ALLOC (40_commands.md R122). -/
theorem State.Inv.harqAlloc {s : State} (h : s.Inv) (hid : Nat) {n : Nat} (hn : n ≤ s.params.maxCb) :
    (s.setHarq hid { deallocate (s.harq hid) s.params.maxCb with nofCb := n }).Inv :=
  h.setHarq hid hn fun r => by
    show SoftOk ((deallocate (s.harq hid) s.params.maxCb).cb r).soft
    rw [deallocate_soft]
    exact h.llr.soft hid r

/-- BEGIN (40_commands.md R123). -/
theorem State.Inv.openSession {s : State} (h : s.Inv) (hl : (latchSession s).Legal s.params) :
    { s with sess := latchSession s, acc := [], phase := .accum }.Inv where
  session :=
    { params := h.session.params
      legal := fun _ => hl
      idle := (nomatch ·)
      count := Nat.zero_le _
      sized := h.session.sized }
  llr := ⟨fun _ => (nomatch ·), h.llr.soft⟩
  fault := ⟨h.fault.clear, h.fault.raised⟩
  reserved := ⟨h.reserved.coding, h.reserved.summary, h.reserved.cb⟩
  mem := ⟨h.mem.canonical, h.mem.windows⟩

theorem length_stagedLlrs (s : State) (n : Nat) : (stagedLlrs s n).length = n := by
  simp [stagedLlrs]

theorem stagedLlrs_llrOk (s : State) (n : Nat) : ∀ v ∈ stagedLlrs s n, LlrOk v := by
  intro v hv
  obtain ⟨i, -, rfl⟩ := List.mem_map.1 hv
  exact sat_range _

/-- PUSH (40_commands.md R124). -/
theorem State.Inv.push {s : State} (h : s.Inv) {n : Nat} (hphase : s.phase = .accum)
    (hn : s.accCount + n ≤ s.params.maxSoftbits) : { s with acc := s.acc ++ stagedLlrs s n }.Inv where
  session :=
    { params := h.session.params
      legal := h.session.legal
      idle := fun hidle => nomatch hphase.symm.trans hidle
      count := by
        show (s.acc ++ stagedLlrs s n).length ≤ _
        rw [List.length_append, length_stagedLlrs]
        exact hn
      sized := h.session.sized }
  llr :=
    { acc := fun v hv => (List.mem_append.1 hv).elim (h.llr.acc v) (stagedLlrs_llrOk s n v)
      soft := h.llr.soft }
  fault := ⟨h.fault.clear, h.fault.raised⟩
  reserved := ⟨h.reserved.coding, h.reserved.summary, h.reserved.cb⟩
  mem := ⟨h.mem.canonical, h.mem.windows⟩

theorem endEffect_sized {s : State} (h : s.SessionInv) (p : EndPlan) (k : Nat) :
    ((endEffect s p).harq k).nofCb ≤ s.params.maxCb := by
  obtain ⟨hother, hnof, -⟩ := endEffect_harq s p
  by_cases hk : k = s.sess.harqId.toNat
  · rw [hk, hnof]
    exact h.sized _
  · rw [hother k hk]
    exact h.sized k

theorem endEffect_softOk {s : State} (h : s.LlrInv) (p : EndPlan) (k r : Nat) :
    SoftOk (((endEffect s p).harq k).cb r).soft := by
  obtain ⟨hother, -, hcb⟩ := endEffect_harq s p
  by_cases hk : k = s.sess.harqId.toNat
  · rw [hk, hcb r]
    split
    · refine SoftOk.endBuffers _ _ _ _ _ _ ?_
      rw [endStartHarq_soft]
      exact h.soft _ r
    · exact h.soft _ r
  · rw [hother k hk]
    exact h.soft k r

/-- END writes TBOUT only, of at most MAX_TB_BYTES bytes (44_crc_tb_assembly.md R272). -/
theorem endEffect_memInv {s : State} (h : s.MemInv) (hp : s.params.Ok) (hl : s.sess.Legal s.params) (p : EndPlan) :
    (endEffect s p).MemInv := by
  cases hok : endOk s p with
  | true =>
    refine h.writeBytes (a := Config.tboutBase) (bs := tbBytesOf (endLoop s p).tba s.sess.tbBytes.toNat) (fun i hi => ?_)
      (by rw [endEffect_mem, hok, if_pos rfl])
    rw [length_tbBytesOf] at hi
    have htb := hl.tb.2
    have hmax := hp.tb.2
    right
    unfold Config.tboutBase
    omega
  | false =>
    have hm : (endEffect s p).mem = s.mem := by rw [endEffect_mem, hok]; rfl
    exact ⟨hm ▸ h.canonical, hm ▸ h.windows⟩

/-- END (40_commands.md R125). -/
theorem State.Inv.endEffect {s : State} (h : s.Inv) (hphase : s.phase = .accum) (p : EndPlan) : (endEffect s p).Inv where
  session :=
    { params := h.session.params
      legal := (nomatch ·)
      idle := fun _ => rfl
      count := Nat.zero_le _
      sized := endEffect_sized h.session p }
  llr := ⟨fun _ => (nomatch ·), endEffect_softOk h.llr p⟩
  fault := ⟨h.fault.clear, h.fault.raised⟩
  reserved :=
    { coding := h.reserved.coding
      summary := summaryWord_reserved _ _
      cb := fun _ hw => report_cb_reserved _ _ _ _ hw }
  mem := endEffect_memInv h.mem h.session.params (h.session.legal hphase) p

/-! ### The effects of writes -/

theorem State.Inv.acceptCommand {s : State} (h : s.Inv) (w : Word) : (acceptCommand w s).Inv := by
  unfold Machine.acceptCommand
  split
  · exact h
  · rename_i hf
    exact h.of_fault rfl ⟨h.fault.clear, fun hraised => absurd hraised hf⟩

theorem State.Inv.writeCtrl {s : State} (h : s.Inv) (v : Word) : (writeCtrl v s).Inv := by
  unfold Machine.writeCtrl
  split
  · exact h.doReset
  · exact h.of_unread rfl

theorem State.Inv.writeStatus {s : State} (h : s.Inv) (v : Word) : (writeStatus v s).Inv := by
  unfold Machine.writeStatus
  split
  · exact h.of_unread rfl
  · exact h

theorem State.Inv.writeCfg {s : State} (h : s.Inv) (off : BitVec 4) (v : Word) : (writeCfg s off v).Inv := by
  unfold Machine.writeCfg
  split
  · exact h.of_unread rfl
  split
  · obtain ⟨hsession, hllr, hfault, hreserved, hmem⟩ := h
    exact ⟨⟨hsession.params, hsession.legal, hsession.idle, hsession.count, hsession.sized⟩, ⟨hllr.acc, hllr.soft⟩,
      ⟨hfault.clear, hfault.raised⟩, ⟨codingMask_reserved v, hreserved.summary, hreserved.cb⟩, ⟨hmem.canonical, hmem.windows⟩⟩
  split
  · exact h.of_unread rfl
  split
  · exact h.of_unread rfl
  · exact h

theorem State.Inv.writeStage {s : State} (h : s.Inv) {off : Nat} (size : Size) (v : Word) (hoff : off + size.bytes ≤ 4096) :
    (writeStage off size v s).Inv where
  session := ⟨h.session.params, h.session.legal, h.session.idle, h.session.count, h.session.sized⟩
  llr := ⟨h.llr.acc, h.llr.soft⟩
  fault := ⟨h.fault.clear, h.fault.raised⟩
  reserved := ⟨h.reserved.coding, h.reserved.summary, h.reserved.cb⟩
  mem := h.mem.writeBytes (a := Config.stageBase + off) (bs := lanesOf size v) (fun i hi => by
    rw [length_lanesOf] at hi
    left
    unfold Config.stageBase
    omega) rfl

/-! ### The step -/

theorem State.Inv.execCommand {w : Word} {i : Instr} {s t : State} (h : s.Inv) (hd : decodeCommand w = .ok i)
    (he : exec i s = .next t) : t.Inv := by
  rcases execCommand_cases hd he with ⟨-, rfl⟩ | ⟨-, e, hcause, rfl⟩ | ⟨-, hrule⟩
  · exact h.endStep
  · exact h.takeFault w hcause
  · rcases hrule with ⟨-, rfl⟩ | ⟨-, -, -, -, hncb, rfl⟩ | ⟨-, -, hlegal, rfl⟩ | ⟨-, hphase, -, hcount, rfl⟩ | ⟨-, hc, rfl⟩
    · exact h.endStep
    · exact (h.harqAlloc _ hncb).endStep
    · exact (h.openSession hlegal).endStep
    · exact (h.push hphase hcount).endStep
    · exact (h.endEffect hc.1 _).endStep

theorem State.Inv.illegalCommand {s : State} (h : s.Inv) (w : Word) : (commandStep w illegalRule s).Inv := by
  rcases commandStep_cases w illegalRule s with ⟨-, hc⟩ | ⟨-, u, hu, -⟩ | ⟨-, e, he, hc⟩
  · rw [hc]
    exact h.endStep
  · cases hu
  · cases he
    rw [hc]
    exact h.takeFault w (by decide)

theorem State.Inv.execTxn {x : Txn} {s t : State} (h : s.Inv) (he : exec (decodeTxn x) s = .next t) : t.Inv := by
  obtain ⟨u, ht, hu⟩ := execTxn_cases he
  suffices hinv : u.Inv from hinv.of_unread (by rw [ht])
  rcases hu with rfl | ⟨size, a, v, -, hw⟩
  · exact h
  · rcases hw with ⟨-, -, rfl⟩ | ⟨-, -, rfl⟩ | ⟨-, -, rfl⟩ | ⟨off, rfl⟩ | rfl | ⟨off, w, hoff, rfl⟩
    · exact h.acceptCommand v
    · exact h.writeCtrl v
    · exact h.writeStatus v
    · exact h.writeCfg off v
    · exact h.of_unread rfl
    · exact h.writeStage size w hoff

/-- Settles O7, by the cases of one step: each operation it is made of keeps the invariant. -/
theorem stepKeepsInvariant : Obligations.StepKeepsInvariant := by
  intro s t h hstep
  rcases step_cases hstep with ⟨l, rfl⟩ | ⟨rest, -, rfl⟩ | ⟨w, l, i, -, hd, he⟩ | ⟨w, l, e, -, -, rfl⟩ | ⟨x, rest, -, -, he⟩
  · exact h.withInputs l
  · exact (h.withInputs rest).doReset
  · exact (h.withInputs l).execCommand hd he
  · exact (h.withInputs l).illegalCommand w
  · exact (h.withInputs rest).execTxn he

end Sys2Proof.Machine
end

section
/-! SUPPORT. Registers by address (10_state.md R23 to R41), and what a read of one does. -/

namespace Sys2Proof.Machine

/-! ### Addresses -/

/-- The address of a register (10_state.md R23 to R41). -/
def Reg.addr : Reg → Nat
  | .id => 0x000
  | .version => 0x004
  | .param0 => 0x008
  | .param1 => 0x00C
  | .param2 => 0x010
  | .ctrl => 0x020
  | .status => 0x024
  | .faultCause => 0x028
  | .faultCmd => 0x02C
  | .faultInfo => 0x030
  | .cmd => 0x034
  | .accCount => 0x038
  | .resSeq => 0x03C
  | .cfgTbBytes => 0x040
  | .cfgCoding => 0x044
  | .cfgNref => 0x048
  | .cfgHarqId => 0x04C
  | .harqViewId => 0x050
  | .harqViewNofCb => 0x054
  | .resSummary => 0x060
  | .resNofDecoded => 0x064
  | .resIterSum => 0x068
  | .resIterMin => 0x06C
  | .resIterMax => 0x070
  | .resG => 0x074
  | .resZc => 0x078
  | .resKPrime => 0x07C
  | .resFiller => 0x080
  | .resNcb => 0x084
  | .resK0 => 0x088
  | .resCb r => 0x100 + 4 * r
  | .resCbE r => 0x500 + 4 * r
  | .harqViewFlags w => 0x900 + 4 * w

/-- A found entry is listed. -/
theorem mem_of_sparseFind {α : Type} {l : Sparse α} {k : Nat} {v : α} (h : sparseFind l k = some v) : (k, v) ∈ l := by
  induction l with
  | nil => cases h
  | cons e l ih =>
    obtain ⟨j, w⟩ := e
    rw [sparseFind_cons] at h
    split at h
    · rename_i hj
      cases h
      exact hj ▸ List.mem_cons_self
    · exact List.mem_cons_of_mem _ (ih h)

theorem singleRegs_addr : ∀ e ∈ singleRegs, e.1 = e.2.addr := by decide

/-- The register at a word address stands at that address. -/
theorem addr_of_regAt {a : Nat} {g : Reg} (ha : a % 4 = 0) (h : regAt a = some g) : a = g.addr := by
  unfold regAt at h
  split at h
  · cases h
    simp only [Reg.addr]
    omega
  split at h
  · cases h
    simp only [Reg.addr]
    omega
  split at h
  · cases h
    simp only [Reg.addr]
    omega
  · exact singleRegs_addr _ (mem_of_sparseFind h)

theorem regAt_harqViewFlags {w : Nat} (hw : w < 8) : regAt (0x900 + 4 * w) = some (.harqViewFlags w) := by
  unfold regAt
  rw [if_neg (by omega), if_neg (by omega), if_pos (by omega), show (0x900 + 4 * w - 0x900) / 4 = w by omega]

/-! ### Reads -/

theorem regLegal_four {a : Nat} (ha : a % 4 = 0) : regLegal .four a = true := by
  simpa [regLegal, aligned, Size.bytes] using ha

theorem exec_regRd_four (s : State) {off : BitVec 12} (ha : off.toNat % 4 = 0) :
    exec (.regRd off .four) s = .next (readRegister s off.toNat) := by
  show Host.Outcome.next (busRead (regLegal .four off.toNat) .four _ s) = _
  rw [regLegal_four ha, busRead_legal]

/-- A read of a register that is specified at this time returns its value and changes nothing else (45_register_access.md R301). -/
theorem exec_regRd_reg {s : State} {off : BitVec 12} {g : Reg} (ha : off.toNat % 4 = 0) (hg : regAt off.toNat = some g)
    (hu : (s.busy && busyUnspecified g) = false) :
    exec (.regRd off .four) s = .next { s with resp := .readOk .four (regRead s g) } := by
  rw [exec_regRd_four s ha]
  simp only [readRegister, hg, hu]
  rfl

/-- A word address with no register reads 0 (20_memory.md R63). -/
theorem exec_regRd_none {s : State} {off : BitVec 12} (ha : off.toNat % 4 = 0) (hg : regAt off.toNat = none) :
    exec (.regRd off .four) s = .next { s with resp := .readOk .four 0 } := by
  rw [exec_regRd_four s ha]
  simp only [readRegister, hg]
  rfl

/-! ### The HARQ view (10_state.md R36) -/

theorem viewFlag_iff (s : State) (r : Nat) :
    viewFlag s r = true ↔
      s.harqViewId.toNat < s.params.numHarq ∧ r < s.params.maxCb ∧ ((s.harq s.harqViewId.toNat).cb r).flag = true := by
  simp [viewFlag, and_assoc]

theorem getLsbD_viewFlagsWord (s : State) (w : Nat) {b : Nat} (hb : b < 32) :
    (viewFlagsWord s w).getLsbD b = viewFlag s (32 * w + b) := by
  rw [viewFlagsWord, BitVec.getLsbD_ofFnLE, dif_pos hb]

/-- Settles O51: the read reaches HARQ_VIEW_FLAGS[w], whose bit b is the viewed flag. -/
theorem harqViewShowsFlags : Obligations.HarqViewShowsFlags := by
  intro s w b hp hw hb
  have hoff : (BitVec.ofNat 12 (0x900 + 4 * w)).toNat = 0x900 + 4 * w := by
    rw [BitVec.toNat_ofNat, Nat.mod_eq_of_lt (by omega)]
  refine ⟨viewFlagsWord s w, exec_regRd_reg (g := .harqViewFlags w) (by omega) ?_ (by simp [State.busy, hp]), ?_⟩
  · rw [hoff, regAt_harqViewFlags hw]
  · rw [getLsbD_viewFlagsWord s w hb, viewFlag_iff]

/-! ### STATUS (10_state.md R26) -/

theorem statusWord_fields (s : State) :
    (statusWord s).getLsbD 0 = s.busy ∧ (statusWord s).getLsbD 1 = s.done ∧ (statusWord s).getLsbD 2 = s.fault ∧
    (statusWord s).getLsbD 3 = s.irq ∧ ((statusWord s).extractLsb' 4 2).toNat = s.phase.code ∧
    (statusWord s).extractLsb' 6 26 = 0 := by
  unfold statusWord
  generalize s.busy = busy, s.done = done, s.fault = fault, s.irq = irq, s.phase = phase
  revert busy done fault irq
  cases phase <;> decide

/-- Settles O50: STATUS is specified at every time, and its fields are read off its definition. -/
theorem statusBits : Obligations.StatusBits := by
  intro s
  obtain ⟨hbusy, hdone, hfault, hirq, hphase, hrest⟩ := statusWord_fields s
  refine ⟨statusWord s, exec_regRd_reg (g := .status) (by decide) (by decide) (Bool.and_false _),
    hbusy, hdone, hfault, hirq, ?_, hrest⟩
  rw [hphase]
  cases s.phase <;> rfl

/-! ### The register file after reset (70_reset_and_hazards.md R380) -/

theorem viewFlagsWord_reset (w : Nat) : viewFlagsWord State.reset w = 0 := by
  refine BitVec.eq_of_getLsbD_eq fun b hb => ?_
  rw [getLsbD_viewFlagsWord _ w hb]
  simp [viewFlag, State.harq, State.reset, HarqBuf.unused, HarqBuf.cb, CbBuf.unused]

/-- The word at an address right after reset. -/
def resetWord (a : Nat) : Word :=
  if a = 0x000 then 0x4C445043#32
  else if a = 0x004 then 0x00000001#32
  else if a = 0x008 then 0x00100098#32
  else if a = 0x00C then 0x00200000#32
  else if a = 0x010 then 0x00027005#32
  else 0

theorem resetWord_of_lt {a : Nat} (ha : 0x010 < a) : resetWord a = 0 := by
  unfold resetWord
  rw [if_neg (by omega), if_neg (by omega), if_neg (by omega), if_neg (by omega), if_neg (by omega)]

theorem regRead_reset (g : Reg) : regRead State.reset g = resetWord g.addr := by
  cases g with
  | resCb r =>
    rw [resetWord_of_lt (by simp only [Reg.addr]; omega)]
    simp [regRead, State.reset, Results.zero]
  | resCbE r =>
    rw [resetWord_of_lt (by simp only [Reg.addr]; omega)]
    simp [regRead, State.reset, Results.zero]
  | harqViewFlags w =>
    rw [resetWord_of_lt (by simp only [Reg.addr]; omega)]
    exact viewFlagsWord_reset w
  | _ => decide

/-- Every identification register has its address, so a word address with no register is none of theirs. -/
theorem resetWord_of_regAt_none {a : Nat} (h : regAt a = none) : resetWord a = 0 := by
  have hne : ∀ b, (regAt b).isSome = true → a ≠ b := by
    rintro b hb rfl
    simp [h] at hb
  unfold resetWord
  rw [if_neg (hne 0x000 (by decide)), if_neg (hne 0x004 (by decide)), if_neg (hne 0x008 (by decide)),
    if_neg (hne 0x00C (by decide)), if_neg (hne 0x010 (by decide))]

theorem reset_afterReset : AfterReset State.reset State.reset where
  params := rfl
  enables := ⟨rfl, rfl⟩
  status := ⟨rfl, rfl, rfl, rfl⟩
  irq := rfl
  record := ⟨rfl, rfl, rfl⟩
  config := ⟨rfl, rfl, rfl, rfl, rfl⟩
  session := ⟨rfl, rfl⟩
  results := ⟨rfl, rfl⟩
  store := fun _ => ⟨rfl, fun _ => ⟨rfl, rfl⟩⟩
  ram := fun _ => rfl

/-- Settles O12, by whether a register stands at the address. -/
theorem resetRegisterValues : Obligations.ResetRegisterValues := by
  refine ⟨reset_afterReset, fun off ha => ?_⟩
  show exec (.regRd off .four) State.reset = .next { State.reset with resp := .readOk .four (resetWord off.toNat) }
  cases hg : regAt off.toNat with
  | none => rw [exec_regRd_none ha hg, resetWord_of_regAt_none hg]
  | some g => rw [exec_regRd_reg ha hg rfl, regRead_reset, ← addr_of_regAt ha hg]

end Sys2Proof.Machine
end

section
/-! SUPPORT. What a step does to PHASE, RES_SEQ, DONE and the HARQ store (10_state.md R22, R26, R30, R49), and that an open session does not
see the CFG registers (R42). -/

namespace Sys2Proof.Machine

/-! ### An open session and the CFG registers (10_state.md R42) -/

/-- The state with other contents of the four CFG registers. -/
def State.withCfg (s : State) (tb coding nref : Word) (hid : BitVec 8) : State :=
  { s with cfgTbBytes := tb, cfgCoding := coding, cfgNref := nref, cfgHarqId := hid }

section Cfg

variable (tb coding nref : Word) (hid : BitVec 8)

/-- A rule that does not read the CFG registers: it raises the same, and does the same to the rest. -/
def IgnoresCfg (rule : State → Except Raise State) : Prop :=
  ∀ s : State, rule (s.withCfg tb coding nref hid) = (rule s).map fun t => t.withCfg tb coding nref hid

theorem commandStep_withCfg {rule : State → Except Raise State} (h : IgnoresCfg tb coding nref hid rule) (w : Word)
    (s : State) :
    commandStep w rule (s.withCfg tb coding nref hid) = (commandStep w rule s).withCfg tb coding nref hid := by
  have hrule := h s
  rcases commandStep_cases w rule s with ⟨hf, hc⟩ | ⟨hf, t, hr, hc⟩ | ⟨hf, e, hr, hc⟩ <;> rw [hc]
  · rw [commandStep_faulted w rule (s.withCfg tb coding nref hid) hf]
    rfl
  · rw [hr] at hrule
    rw [commandStep_ok w rule (s := s.withCfg tb coding nref hid) hf hrule]
    rfl
  · rw [hr] at hrule
    rw [commandStep_raise w rule (s := s.withCfg tb coding nref hid) hf hrule]
    rfl

/-- END works out its values from SESS and ACC_COUNT. -/
theorem endPlan_withCfg (s : State) : endPlan (s.withCfg tb coding nref hid) = endPlan s := rfl

theorem endEffect_withCfg (s : State) (p : EndPlan) :
    endEffect (s.withCfg tb coding nref hid) p = (endEffect s p).withCfg tb coding nref hid := rfl

theorem pushRule_ignoresCfg (len : BitVec 13) : IgnoresCfg tb coding nref hid (pushRule len) := by
  intro s
  simp only [pushRule, apply_ite (Except.map fun t : State => t.withCfg tb coding nref hid)]
  rfl

theorem endRule_ignoresCfg : IgnoresCfg tb coding nref hid endRule := by
  intro s
  simp only [endRule, endPlan_withCfg, endEffect_withCfg,
    apply_ite (Except.map fun t : State => t.withCfg tb coding nref hid)]
  rfl

/-- A command whose rule ignores the CFG registers does the same with other contents of them. -/
theorem exec_withCfg {i : Instr} {rule : State → Except Raise State} (h : IgnoresCfg tb coding nref hid rule)
    (hi : ∀ s, exec i s = .next (commandStep (commandWord i) rule s)) {s t : State} (ht : exec i s = .next t) :
    exec i (s.withCfg tb coding nref hid) = .next (t.withCfg tb coding nref hid) := by
  rw [hi] at ht ⊢
  cases ht
  rw [commandStep_withCfg tb coding nref hid h]

end Cfg

/-- Settles O29: the rules of PUSH and END do not read the CFG registers, and neither does the rest of a command's step. -/
theorem openSessionIgnoresCfg : Obligations.OpenSessionIgnoresCfg := by
  intro s t tb coding nref hid i hi h
  show exec i (s.withCfg tb coding nref hid) = .next (t.withCfg tb coding nref hid)
  rcases hi with rfl | ⟨len, rfl⟩
  · exact exec_withCfg _ _ _ _ (endRule_ignoresCfg tb coding nref hid) (fun _ => rfl) h
  · exact exec_withCfg _ _ _ _ (pushRule_ignoresCfg tb coding nref hid len) (fun _ => rfl) h

/-! ### What a step changes -/

theorem AfterReset.done_eq {s t : State} (h : AfterReset s t) : t.done = false := by
  obtain ⟨hdone, -⟩ := h.status
  exact hdone

theorem AfterReset.fault_eq {s t : State} (h : AfterReset s t) : t.fault = false := by
  obtain ⟨-, hfault, -⟩ := h.status
  exact hfault

theorem AfterReset.phase_eq {s t : State} (h : AfterReset s t) : t.phase = .idle := by
  obtain ⟨-, -, hphase, -⟩ := h.status
  exact hphase

theorem AfterReset.flag_eq {s t : State} (h : AfterReset s t) (k r : Nat) : ((t.harq k).cb r).flag = false := by
  obtain ⟨-, hcb⟩ := h.store k
  exact (hcb r).2

/-- What one step does to PHASE, RES_SEQ, DONE and the HARQ store: one case for each command that changes one of them, for a reset, and for
everything else. -/
inductive ReportChange (s t : State) : Prop
  | reset (after : AfterReset s t)
  | quiet (phase : t.phase = s.phase) (seq : t.resSeq = s.resSeq) (store : t.hs = s.hs)
      (done : t.done = s.done ∨ t.done = false ∧
        ∃ size a v rest, s.inputs = .txn (.write size a v) :: rest ∧ a % 2 ^ 19 = 0x024 ∧ v.getLsbD 1 = true)
  | harqAlloc (w : Word) (pending : s.pending = some w) (opc : opcOf w = 0x01#8) (phase : t.phase = s.phase)
      (seq : t.resSeq = s.resSeq) (done : t.done = s.done)
      (store : t.hs = (s.setHarq (hidOf w).toNat
        { deallocate (s.harq (hidOf w).toNat) s.params.maxCb with nofCb := (ncbOf w).toNat }).hs)
  | openSession (pending : s.pending = some 0x02000000#32) (before : s.phase = .idle) (after : t.phase = .accum)
      (seq : t.resSeq = s.resSeq) (done : t.done = s.done) (store : t.hs = s.hs)
  | endSession (pending : s.pending = some 0x04000000#32) (before : s.phase = .accum) (after : t.phase = .idle)
      (seq : t.resSeq = s.resSeq + 1) (done : t.done = true) (l : List HostInput)
      (store : t.hs = (endEffect (s.withInputs l) (endPlan s)).hs)

theorem step_reportChange {s t : State} (h : step s = .next t) : ReportChange s t := by
  rcases step_effects h with ⟨l, rfl⟩ | ⟨hreset, -⟩ | ⟨w, l, hp, hcmd⟩ | ⟨x, rest, u, hi, -, ht, hu⟩
  · exact .quiet rfl rfl rfl (.inl rfl)
  · exact .reset hreset
  · rcases hcmd with ⟨-, rfl⟩ | ⟨-, e, -, rfl⟩ | ⟨-, hrule⟩
    · exact .quiet rfl rfl rfl (.inl rfl)
    · exact .quiet rfl rfl rfl (.inl rfl)
    · rcases hrule with ⟨-, rfl⟩ | ⟨hopc, -, -, -, -, rfl⟩ | ⟨rfl, hphase, -, rfl⟩ | ⟨-, -, -, -, rfl⟩ | ⟨rfl, hc, rfl⟩
      · exact .quiet rfl rfl rfl (.inl rfl)
      · exact .harqAlloc w hp hopc rfl rfl rfl rfl
      · exact .openSession hp hphase rfl rfl rfl rfl
      · exact .quiet rfl rfl rfl (.inl rfl)
      · exact .endSession hp hc.1 rfl rfl rfl l rfl
  · obtain ⟨hseq, -, -, -, -, hhs, -, -, -, hphase, -, -, hdone, -⟩ := hu.frame
    rw [ht]
    refine .quiet hphase hseq hhs (hdone.imp id ?_)
    rintro ⟨hfalse, size, a, v, rfl, ha, hv⟩
    exact ⟨hfalse, size, a, v, rest, hi, ha, hv⟩

/-- Only fault entry sets FAULT (60_exceptions.md R333). -/
theorem step_sets_fault {s t : State} (h : step s = .next t) (hs : s.fault = false) (ht : t.fault = true) :
    ∃ w e l, t = takeFault w e (s.withInputs l) := by
  have hne : t.fault ≠ s.fault := by simp [hs, ht]
  rcases step_effects h with ⟨l, rfl⟩ | ⟨hreset, -⟩ | ⟨w, l, hp, hcmd⟩ | ⟨x, rest, u, -, -, hu', hu⟩
  · exact absurd (State.withInputs_fault s l) hne
  · exact absurd (hreset.fault_eq.trans hs.symm) hne
  · rcases hcmd with ⟨-, rfl⟩ | ⟨-, e, -, rfl⟩ | ⟨-, hrule⟩
    · simp at hne
    · exact ⟨w, e, l, rfl⟩
    · rcases hrule with ⟨-, rfl⟩ | ⟨-, -, -, -, -, rfl⟩ | ⟨-, -, -, rfl⟩ | ⟨-, -, -, -, rfl⟩ | ⟨-, -, rfl⟩ <;> simp at hne
  · obtain ⟨-, hfault, -⟩ := hu.frame
    rw [hu'] at hne
    exact absurd hfault hne

/-- A bit that a step leaves as it was neither rises nor falls. -/
theorem no_change_of_eq {b b' : Bool} {rises falls : Prop} (h : b' = b) :
    (b = false → b' = true → rises) ∧ (b = true → b' = false → falls) := by
  subst h
  cases b' <;> simp

/-! ### PHASE (10_state.md R22) -/

/-- A command whose rule leaves PHASE leaves it, whether it faults or not. -/
theorem commandStep_phase {rule : State → Except Raise State} {s : State} (h : ∀ t, rule s = .ok t → t.phase = s.phase)
    (w : Word) : (commandStep w rule s).phase = s.phase := by
  rcases commandStep_cases w rule s with ⟨-, hc⟩ | ⟨-, t, ht, hc⟩ | ⟨-, e, -, hc⟩ <;> rw [hc]
  · rfl
  · exact h t ht
  · rfl

/-- A command's step that neither finds nor sets FAULT ran its rule to the end. -/
theorem commandStep_unfaulted {w : Word} {rule : State → Except Raise State} {s : State} (hs : s.fault = false)
    (ht : (commandStep w rule s).fault = false) : ∃ t, rule s = .ok t ∧ commandStep w rule s = t.endStep := by
  rcases commandStep_cases w rule s with ⟨hf, -⟩ | ⟨-, t, hok, hc⟩ | ⟨-, e, -, hc⟩
  · rw [hs] at hf
    cases hf
  · exact ⟨t, hok, hc⟩
  · rw [hc] at ht
    cases ht

theorem execBegin_phase {s t : State} (hs : s.fault = false) (ht : t.fault = false) (h : exec .beginSession s = .next t) :
    s.phase = .idle ∧ t.phase = .accum := by
  cases h
  obtain ⟨u, hu, hc⟩ := commandStep_unfaulted hs ht
  obtain ⟨hphase, -, rfl⟩ := beginRule_ok hu
  exact ⟨hphase, by rw [hc]; rfl⟩

theorem execEnd_phase {s t : State} (hs : s.fault = false) (ht : t.fault = false) (h : exec .endSession s = .next t) :
    s.phase = .accum ∧ t.phase = .idle := by
  cases h
  obtain ⟨u, hu, hc⟩ := commandStep_unfaulted hs ht
  obtain ⟨hchecks, rfl⟩ := endRule_ok hu
  exact ⟨hchecks.1, by rw [hc]; rfl⟩

theorem execNop_phase {s t : State} (h : exec .nop s = .next t) : t.phase = s.phase := by
  cases h
  refine commandStep_phase (fun u hu => ?_) _
  cases hu
  rfl

theorem execHarqAlloc_phase {hid : BitVec 8} {ncb : BitVec 16} {s t : State} (h : exec (.harqAlloc hid ncb) s = .next t) :
    t.phase = s.phase := by
  cases h
  refine commandStep_phase (fun u hu => ?_) _
  obtain ⟨-, -, -, -, rfl⟩ := harqAllocRule_ok hu
  rfl

theorem execPush_phase {len : BitVec 13} {s t : State} (h : exec (.push len) s = .next t) : t.phase = s.phase := by
  cases h
  refine commandStep_phase (fun u hu => ?_) _
  obtain ⟨-, -, -, rfl⟩ := pushRule_ok hu
  rfl

/-- Settles O34, by what a step changes and by the rule of each command. -/
theorem phaseTransitions : Obligations.PhaseTransitions := by
  refine ⟨fun s t h => ⟨fun hne => ?_, fun hs ht => ?_⟩, fun s t hs ht => ⟨execBegin_phase hs ht, execEnd_phase hs ht⟩,
    fun s t hreset => hreset.phase_eq, fun s t h => ?_⟩
  · cases step_reportChange h with
    | reset after => exact .inr (.inr after)
    | quiet phase => exact absurd phase hne
    | harqAlloc _ _ _ phase => exact absurd phase hne
    | openSession pending before after => exact .inl ⟨before, after, pending⟩
    | endSession pending before after => exact .inr (.inl ⟨before, after, pending⟩)
  · obtain ⟨w, e, l, rfl⟩ := step_sets_fault h hs ht
    rfl
  · rcases h with h | ⟨hid, ncb, h⟩ | ⟨len, h⟩
    · exact execNop_phase h
    · exact execHarqAlloc_phase h
    · exact execPush_phase h

/-! ### RES_SEQ and DONE (10_state.md R26, R30) -/

/-- Settles O35, by what a step changes. -/
theorem eachEndReportsOnce : Obligations.EachEndReportsOnce := by
  intro s t h
  cases step_reportChange h with
  | reset after =>
    refine ⟨fun _ => .inr after, fun _ hdone => ?_, fun _ _ => .inl after⟩
    rw [after.done_eq] at hdone
    cases hdone
  | quiet _ seq _ done =>
    refine ⟨fun hne => absurd seq hne, ?_⟩
    rcases done with hsame | ⟨hfalse, hwrite⟩
    · exact no_change_of_eq hsame
    · refine ⟨fun _ ht => ?_, fun _ _ => .inr hwrite⟩
      rw [hfalse] at ht
      cases ht
  | harqAlloc _ _ _ _ seq done => exact ⟨fun hne => absurd seq hne, no_change_of_eq done⟩
  | openSession _ _ _ seq done => exact ⟨fun hne => absurd seq hne, no_change_of_eq done⟩
  | endSession pending before after seq done =>
    refine ⟨fun _ => .inl ⟨seq, done, pending, before, after⟩, fun _ _ => ⟨pending, seq⟩, fun _ ht => ?_⟩
    rw [done] at ht
    cases ht

/-! ### The CRC-pass flags (10_state.md R49) -/

theorem harq_of_hs {s t : State} (h : t.hs = s.hs) (k : Nat) : t.harq k = s.harq k := by
  simp only [State.harq, h]

/-- Freeing a buffer's codeblocks sets no flag. -/
theorem deallocate_flag {b : HarqBuf} {n r : Nat} (h : ((deallocate b n).cb r).flag = true) : (b.cb r).flag = true := by
  rw [deallocate_cb] at h
  split at h
  · cases h
  · exact h

/-- END leaves every flag but those of codeblocks below C of the borrowed buffer. -/
theorem endEffect_flag_of_not_borrowed {s : State} {k r : Nat} (hkr : ¬ (k = s.sess.harqId.toNat ∧ r < s.seg.c))
    (l : List HostInput) :
    (((endEffect (s.withInputs l) (endPlan s)).harq k).cb r).flag = ((s.harq k).cb r).flag := by
  obtain ⟨hother, -, hcb⟩ := endEffect_harq (s.withInputs l) (endPlan s)
  by_cases hk : k = s.sess.harqId.toNat
  · have hr : ¬ r < (endPlan s).seg.c := fun hlt => hkr ⟨hk, hlt⟩
    have hcbr := hcb r
    rw [if_neg hr] at hcbr
    rw [hk]
    exact congrArg CbBuf.flag hcbr
  · rw [hother k hk]
    rfl

theorem opcOf_one {w : Word} (h : opcOf w = 0x01#8) : w.toNat / 2 ^ 24 = 1 := by
  have hn := congrArg BitVec.toNat h
  simp only [opcOf, BitVec.extractLsb'_toNat, Nat.shiftRight_eq_div_pow, BitVec.toNat_ofNat] at hn
  have := w.isLt
  omega

theorem hidOf_toNat (w : Word) : (hidOf w).toNat = w.toNat / 2 ^ 16 % 2 ^ 8 := by
  simp only [hidOf, BitVec.extractLsb'_toNat, Nat.shiftRight_eq_div_pow]

/-- Settles O36, by what a step changes: outside the reach of the command, flags are as they were. -/
theorem crcFlagsChangeOnlyAsStated : Obligations.CrcFlagsChangeOnlyAsStated := by
  intro s t h k r
  cases step_reportChange h with
  | reset after =>
    refine ⟨fun _ ht => ?_, fun _ _ => .inr (.inr after)⟩
    rw [after.flag_eq k r] at ht
    cases ht
  | quiet _ _ store => exact no_change_of_eq (by rw [harq_of_hs store k])
  | openSession _ _ _ _ _ store => exact no_change_of_eq (by rw [harq_of_hs store k])
  | harqAlloc w pending opc _ _ _ store =>
    rw [harq_of_hs store k, State.setHarq_harq]
    split
    · rename_i hk
      refine ⟨fun hs ht => ?_, fun _ _ => .inr (.inl ⟨w, pending, opcOf_one opc, by rw [hk, hidOf_toNat]⟩)⟩
      rw [hk, deallocate_flag ht] at hs
      cases hs
    · exact no_change_of_eq rfl
  | endSession pending before _ _ _ l store =>
    rw [harq_of_hs store k]
    by_cases hkr : k = s.sess.harqId.toNat ∧ r < s.seg.c
    · exact ⟨fun _ _ => ⟨pending, before, hkr⟩, fun _ _ => .inl ⟨pending, before, hkr⟩⟩
    · exact no_change_of_eq (endEffect_flag_of_not_borrowed hkr l)

end Sys2Proof.Machine
end

section
/-! SUPPORT. Which accesses are legal (20_memory.md R68), what a legal one answers, and what is read while BUSY = 1 (R72). -/

namespace Sys2Proof.Machine

/-! ### Legal accesses (20_memory.md R68) -/

theorem windowLegal_iff {size : Size} {a : Nat} : windowLegal size a = true ↔ a % size.bytes = 0 := beq_iff_eq

theorem bytes_dvd_four (size : Size) : size.bytes ∣ 4 := by cases size <;> decide

/-- A region that starts at a multiple of 4 is as aligned as its offsets are. -/
theorem windowLegal_add {size : Size} {base off : Nat} (hb : base % 4 = 0) :
    windowLegal size (base + off) = true ↔ off % size.bytes = 0 := by
  rw [windowLegal_iff, show (base + off) % size.bytes = off % size.bytes from
    Nat.ModEq.of_dvd (bytes_dvd_four size) (show (base + off) % 4 = off % 4 by omega)]

theorem size_of_regLegal {size : Size} {a : Nat} (h : regLegal size a = true) : size = .four :=
  beq_iff_eq.1 (Bool.and_eq_true_iff.1 h).1

/-- In the register region the model's check is R68's. -/
theorem regLegal_iff_not_breaksR68 {size : Size} {a : Nat} (h : a < 0x01000) :
    regLegal size a = true ↔ ¬ breaksR68 size a := by
  rw [breaksR68, if_pos h, not_not]
  simp [regLegal, aligned, Size.bytes]

/-- Elsewhere it is R68's too, for an address that is as aligned as the effective one. -/
theorem windowLegal_iff_not_breaksR68 {size : Size} {a ea : Nat} (h : 0x01000 ≤ ea) (ha : a % 4 = ea % 4) :
    windowLegal size a = true ↔ ¬ breaksR68 size ea := by
  rw [breaksR68, if_neg (by omega), not_not, windowLegal_iff,
    show a % size.bytes = ea % size.bytes from Nat.ModEq.of_dvd (bytes_dvd_four size) ha]

/-! ### Rows by address (30_encoding.md R98) -/

theorem effectiveAddr_toNat (addr : Nat) : (effectiveAddr addr).toNat = addr % 2 ^ 19 := BitVec.toNat_ofNat ..

/-- A row whose mask leaves the low k bits free matches the addresses that agree with it above them. -/
theorem rowMatches_iff {ea pattern mask : BitVec 19} (k : Nat) (hm : mask = BitVec.allOnes 19 <<< k) :
    rowMatches ea pattern mask = true ↔ ea.toNat / 2 ^ k * 2 ^ k = pattern.toNat := by
  have hle : ea.toNat / 2 ^ k * 2 ^ k < 2 ^ 19 := (Nat.div_mul_le_self _ _).trans_lt ea.isLt
  rw [rowMatches, beq_iff_eq, hm, ← BitVec.shiftLeft_ushiftRight, ← BitVec.toNat_inj, BitVec.toNat_shiftLeft,
    BitVec.toNat_ushiftRight, Nat.shiftRight_eq_div_pow, Nat.shiftLeft_eq, Nat.mod_eq_of_lt hle]

theorem rowMatches_exact {ea p : BitVec 19} : rowMatches ea p 0x7FFFF#19 = true ↔ ea.toNat = p.toNat := by
  rw [rowMatches_iff 0 (by decide)]
  simp

theorem rowMatches_cfg {ea : BitVec 19} :
    rowMatches ea 0x00040#19 0x7FFF0#19 = true ↔ 0x040 ≤ ea.toNat ∧ ea.toNat < 0x050 := by
  rw [rowMatches_iff 4 (by decide), show (0x00040#19).toNat = 0x040 from rfl]
  omega

theorem rowMatches_regs {ea : BitVec 19} : rowMatches ea 0x00000#19 0x7F000#19 = true ↔ ea.toNat < 0x01000 := by
  rw [rowMatches_iff 12 (by decide), show (0x00000#19).toNat = 0 from rfl]
  omega

/-! ### Each row's own check is R68's -/

theorem extractLsb'_zero_toNat (ea : BitVec 19) (k : Nat) : (ea.extractLsb' 0 k).toNat = ea.toNat % 2 ^ k := by
  simp

/-- A row of one register checks the effective address. -/
theorem regLegal_exact {size : Size} {ea p : BitVec 19} (hp : p.toNat < 0x01000) (hm : rowMatches ea p 0x7FFFF#19 = true) :
    regLegal size p.toNat = true ↔ ¬ breaksR68 size ea.toNat := by
  rw [rowMatches_exact.1 hm]
  exact regLegal_iff_not_breaksR68 hp

theorem regLegal_cfg {size : Size} {ea : BitVec 19} (hm : rowMatches ea 0x00040#19 0x7FFF0#19 = true) :
    regLegal size (0x040 + (ea.extractLsb' 0 4).toNat) = true ↔ ¬ breaksR68 size ea.toNat := by
  obtain ⟨hlo, hhi⟩ := rowMatches_cfg.1 hm
  rw [extractLsb'_zero_toNat, show 0x040 + ea.toNat % 2 ^ 4 = ea.toNat by omega]
  exact regLegal_iff_not_breaksR68 (by omega)

theorem regLegal_regs {size : Size} {ea : BitVec 19} (hm : rowMatches ea 0x00000#19 0x7F000#19 = true) :
    regLegal size (ea.extractLsb' 0 12).toNat = true ↔ ¬ breaksR68 size ea.toNat := by
  have hlt := rowMatches_regs.1 hm
  rw [extractLsb'_zero_toNat, Nat.mod_eq_of_lt (by omega)]
  exact regLegal_iff_not_breaksR68 hlt

/-- A row outside the register region checks a base that is a multiple of 4 and the address bits that the row leaves free. -/
theorem windowLegal_free {size : Size} {ea : BitVec 19} {base k : Nat} (hm : ¬ rowMatches ea 0x00000#19 0x7F000#19 = true)
    (hb : base % 4 = 0) (hk : 2 ≤ k) :
    windowLegal size (base + (ea.extractLsb' 0 k).toNat) = true ↔ ¬ breaksR68 size ea.toNat := by
  refine windowLegal_iff_not_breaksR68 (Nat.le_of_not_lt (mt rowMatches_regs.2 hm)) ?_
  have hfree : ea.toNat % 2 ^ k % 4 = ea.toNat % 4 := Nat.mod_mod_of_dvd _ (Nat.pow_dvd_pow 2 hk)
  rw [extractLsb'_zero_toNat]
  omega

theorem windowLegal_rsvd {size : Size} {ea : BitVec 19} (hm : ¬ rowMatches ea 0x00000#19 0x7F000#19 = true) :
    windowLegal size (ea.extractLsb' 0 18).toNat = true ↔ ¬ breaksR68 size ea.toNat := by
  rw [← windowLegal_free hm (Nat.zero_mod 4) (show 2 ≤ 18 by decide), Nat.zero_add]

/-- Every write is a bus write of its row, legal exactly when it keeps R68. -/
theorem exec_decodeWrite (size : Size) (ea : BitVec 19) (v : Word) :
    ∃ legal effect, (legal = true ↔ ¬ breaksR68 size ea.toNat) ∧
      ∀ s, exec (decodeWrite size ea v) s = .next (busWrite legal effect s) := by
  unfold decodeWrite
  split
  next hcmd => exact ⟨_, _, regLegal_exact (by decide) hcmd, fun _ => rfl⟩
  split
  next hctrl => exact ⟨_, _, regLegal_exact (by decide) hctrl, fun _ => rfl⟩
  split
  next hstatus => exact ⟨_, _, regLegal_exact (by decide) hstatus, fun _ => rfl⟩
  split
  next hcfg => exact ⟨_, _, regLegal_cfg hcfg, fun _ => rfl⟩
  split
  next hview => exact ⟨_, _, regLegal_exact (by decide) hview, fun _ => rfl⟩
  split
  next hregs => exact ⟨_, _, regLegal_regs hregs, fun _ => rfl⟩
  next hregs =>
  split
  · exact ⟨_, _, windowLegal_free hregs (by decide) (by decide), fun _ => rfl⟩
  split
  · exact ⟨_, _, windowLegal_free hregs (by decide) (by decide), fun _ => rfl⟩
  · exact ⟨_, _, windowLegal_rsvd hregs, fun _ => rfl⟩

/-! ### Answers to reads -/

/-- An answer to a read: OK with some data, and nothing else changes but the draw count. -/
def AnswersRead (size : Size) (answer : State → State) : Prop :=
  ∀ s, ∃ d n, answer s = { s with resp := .readOk size d, draws := n }

theorem readRegister_answers (addr : Nat) : AnswersRead .four fun s => readRegister s addr := by
  intro s
  rcases readRegister_cases s addr with ⟨-, e⟩ | ⟨g, -, -, e⟩ | ⟨g, -, -, e⟩ <;> exact ⟨_, _, e⟩

theorem readStage_answers (off : Nat) (size : Size) : AnswersRead size (readStage off size) :=
  fun _ => ⟨_, _, rfl⟩

theorem readTbout_busy {s : State} (hb : s.busy = true) (off : Nat) (size : Size) :
    readTbout off size s = s.drawRead size := if_pos hb

theorem readTbout_answers (off : Nat) (size : Size) : AnswersRead size (readTbout off size) := by
  intro s
  cases hb : s.busy with
  | true => exact ⟨_, _, readTbout_busy hb off size⟩
  | false => exact ⟨_, s.draws, if_neg (by simp [hb])⟩

theorem readZero_answers (size : Size) : AnswersRead size (readZero size) := fun _ => ⟨_, _, rfl⟩

/-- Every read is a bus read of its row, legal exactly when it keeps R68. -/
theorem exec_decodeRead (size : Size) (ea : BitVec 19) :
    ∃ legal answer, (legal = true ↔ ¬ breaksR68 size ea.toNat) ∧ (legal = true → AnswersRead size answer) ∧
      ∀ s, exec (decodeRead size ea) s = .next (busRead legal size answer s) := by
  unfold decodeRead
  split
  next hregs =>
    refine ⟨_, _, regLegal_regs hregs, fun hl => ?_, fun _ => rfl⟩
    exact size_of_regLegal hl ▸ readRegister_answers _
  next hregs =>
  split
  · exact ⟨_, _, windowLegal_free hregs (by decide) (by decide), fun _ => readStage_answers _ size, fun _ => rfl⟩
  split
  · exact ⟨_, _, windowLegal_free hregs (by decide) (by decide), fun _ => readTbout_answers _ size, fun _ => rfl⟩
  · exact ⟨_, _, windowLegal_rsvd hregs, fun _ => readZero_answers size,
      fun _ => rfl⟩

/-! ### Refused, ignored and empty accesses -/

/-- Settles O48: every row's own check is R68's, and a legal access is answered OK. -/
theorem illegalAccessesAreRefused : Obligations.IllegalAccessesAreRefused := by
  intro size addr v s
  obtain ⟨rdLegal, answer, hrl, hra, hrd⟩ := exec_decodeRead size (effectiveAddr addr)
  obtain ⟨wrLegal, effect, hwl, hwr⟩ := exec_decodeWrite size (effectiveAddr addr) (wdataLanes size v)
  rw [effectiveAddr_toNat] at hrl hwl
  simp only [decodeTxn, hrd, hwr]
  constructor
  · intro hb
    rw [Bool.eq_false_iff.2 (mt hrl.1 (not_not.2 hb)), Bool.eq_false_iff.2 (mt hwl.1 (not_not.2 hb))]
    exact ⟨rfl, rfl⟩
  · intro hb
    rw [hwl.2 hb, hrl.2 hb]
    obtain ⟨d, n, hd⟩ := hra (hrl.2 hb) s
    exact ⟨⟨_, d, rfl, by rw [busRead_legal, hd]⟩, ⟨_, rfl, rfl⟩⟩

/-- Settles O56: a legal access of these rows runs no effect, and a reserved read answers 0. -/
theorem ignoredWritesAndReservedReads : Obligations.IgnoredWritesAndReservedReads := by
  intro s size v
  refine ⟨fun off ha => ?_, fun off ha => ⟨?_, ?_, ?_⟩⟩
  · show Host.Outcome.next (busWrite (regLegal .four off.toNat) id s) = _
    rw [regLegal_four ha]
    rfl
  · show Host.Outcome.next (busWrite (windowLegal size (Config.tboutBase + off.toNat)) id s) = _
    rw [(windowLegal_add (by decide)).2 ha]
    rfl
  · show Host.Outcome.next (busWrite (windowLegal size off.toNat) id s) = _
    rw [windowLegal_iff.2 ha]
    rfl
  · show Host.Outcome.next (busRead (windowLegal size off.toNat) size (readZero size) s) = _
    rw [windowLegal_iff.2 ha]
    rfl

/-! ### Reads while BUSY = 1 (20_memory.md R72) -/

/-- A read, whatever it answers, changes only the answer and the draw count. -/
theorem exec_read_frame (size : Size) (a : Nat) (s : State) :
    ∃ t, exec (decodeTxn (.read size a)) s = .next t ∧ t = { s with resp := t.resp, draws := t.draws } := by
  obtain ⟨legal, answer, -, ha, he⟩ := exec_decodeRead size (effectiveAddr a)
  refine ⟨_, he s, ?_⟩
  cases legal with
  | false => rfl
  | true =>
    obtain ⟨d, n, hd⟩ := ha rfl s
    rw [busRead_legal, hd]

/-- The registers that R72 names: a read while BUSY = 1 returns what they hold. -/
def readableWhileBusy : List Reg :=
  [.id, .version, .param0, .param1, .param2, .ctrl, .status, .faultCause, .faultCmd, .faultInfo, .cmd, .cfgTbBytes,
    .cfgCoding, .cfgNref, .cfgHarqId, .harqViewId]

theorem mem_readableWhileBusy (g : Reg) : g ∈ readableWhileBusy ↔ busyUnspecified g = false := by
  cases g <;> simp [readableWhileBusy, busyUnspecified]

/-- A read of a register that is unspecified at this time draws a value (U3, log 4). -/
theorem exec_regRd_draw {s : State} {off : BitVec 12} {g : Reg} (ha : off.toNat % 4 = 0) (hg : regAt off.toNat = some g)
    (hu : (s.busy && busyUnspecified g) = true) :
    exec (.regRd off .four) s = .next { s with resp := .readOk .four (Config.busyRead s.draws), draws := s.draws + 1 } := by
  rw [exec_regRd_four s ha]
  simp only [readRegister, hg, hu]
  rfl

theorem busy_of_pending {s : State} {w : Word} (h : s.pending = some w) : s.busy = true := by
  rw [State.busy, h]
  rfl

/-- With a read next at the port it is performed at once, whether or not a command runs. -/
theorem step_read {s : State} {size : Size} {a : Nat} {rest : List HostInput}
    (hi : s.inputs = .txn (.read size a) :: rest) : step s = exec (decodeTxn (.read size a)) (s.withInputs rest) := by
  cases hp : s.pending <;> simp [step, fetch, hi, hp, Txn.isRead]

/-- Settles O10, by the rows of a read: a register that R72 names or not, STAGE, and TBOUT. -/
theorem readsAreServedWhileBusy : Obligations.ReadsAreServedWhileBusy := by
  intro s w hp
  have hb := busy_of_pending hp
  refine ⟨fun size a rest hi => ?_, fun off g ha hg => ⟨fun hmem => ?_, fun hmem => ?_⟩, ?_, fun off size ha => ?_,
    fun off size ha => ?_⟩
  · obtain ⟨t, he, ht⟩ := exec_read_frame size a (s.withInputs rest)
    exact ⟨t, (step_read hi).trans he, ht, by rw [ht]; exact hp⟩
  · exact exec_regRd_reg ha hg (by rw [(mem_readableWhileBusy g).1 hmem, Bool.and_false])
  · have hu : busyUnspecified g = true := Bool.eq_true_of_not_eq_false (mt (mem_readableWhileBusy g).2 hmem)
    exact exec_regRd_draw ha hg (by rw [hb, hu]; rfl)
  · exact (statusWord_fields s).1.trans hb
  · show Host.Outcome.next (busRead (windowLegal size (Config.stageBase + off.toNat)) size _ s) = _
    rw [(windowLegal_add (by decide)).2 ha]
    rfl
  · show ∃ d, Host.Outcome.next (busRead (windowLegal size (Config.tboutBase + off.toNat)) size _ s) = _
    rw [(windowLegal_add (by decide)).2 ha, busRead_legal, readTbout_busy hb]
    exact ⟨_, rfl⟩

end Sys2Proof.Machine
end

section
/-! SUPPORT. A command's step does not see what the host has sent, so a held write (20_memory.md R71) waits for it to end. -/

namespace Sys2Proof.Machine

/-- A rule that neither reads nor takes inputs: with others it raises the same, and does the same to the rest. -/
def IgnoresInputs (rule : State → Except Raise State) : Prop :=
  ∀ (s : State) (l : List HostInput), rule (s.withInputs l) = (rule s).map fun t => t.withInputs l

theorem nopRule_ignoresInputs : IgnoresInputs nopRule := fun _ _ => rfl

theorem illegalRule_ignoresInputs : IgnoresInputs illegalRule := fun _ _ => rfl

theorem harqAllocRule_ignoresInputs (hid : BitVec 8) (ncb : BitVec 16) : IgnoresInputs (harqAllocRule hid ncb) := by
  intro s l
  simp only [harqAllocRule, apply_ite (Except.map fun t : State => t.withInputs l)]
  rfl

theorem beginRule_ignoresInputs : IgnoresInputs beginRule := by
  intro s l
  simp only [beginRule, apply_ite (Except.map fun t : State => t.withInputs l)]
  rfl

theorem pushRule_ignoresInputs (len : BitVec 13) : IgnoresInputs (pushRule len) := by
  intro s l
  simp only [pushRule, apply_ite (Except.map fun t : State => t.withInputs l)]
  rfl

theorem endRule_ignoresInputs : IgnoresInputs endRule := by
  intro s l
  simp only [endRule, apply_ite (Except.map fun t : State => t.withInputs l)]
  rfl

theorem commandStep_withInputs {rule : State → Except Raise State} (h : IgnoresInputs rule) (w : Word) (s : State)
    (l : List HostInput) : commandStep w rule (s.withInputs l) = (commandStep w rule s).withInputs l := by
  have hrule := h s l
  rcases commandStep_cases w rule s with ⟨hf, hc⟩ | ⟨hf, t, hr, hc⟩ | ⟨hf, e, hr, hc⟩ <;> rw [hc]
  · exact commandStep_faulted w rule (s.withInputs l) hf
  · rw [hr] at hrule
    exact commandStep_ok w rule (s := s.withInputs l) hf hrule
  · rw [hr] at hrule
    exact commandStep_raise w rule (s := s.withInputs l) hf hrule

theorem commandStep_inputs {rule : State → Except Raise State} (h : IgnoresInputs rule) (w : Word) (s : State) :
    (commandStep w rule s).inputs = s.inputs :=
  (congrArg State.inputs (commandStep_withInputs h w s s.inputs) :)

/-- However a command's step ends, BUSY is 0 (40_commands.md R120, 60_exceptions.md R333). -/
theorem commandStep_pending (w : Word) (rule : State → Except Raise State) (s : State) :
    (commandStep w rule s).pending = none := by
  rcases commandStep_cases w rule s with ⟨-, hc⟩ | ⟨-, t, -, hc⟩ | ⟨-, e, -, hc⟩ <;> rw [hc]
  · exact s.endStep_pending
  · exact t.endStep_pending
  · exact takeFault_pending w e s

/-- The meaning of a command word is its command step, by a rule that does not see the inputs. -/
theorem exec_command {w : Word} {i : Instr} (h : decodeCommand w = .ok i) :
    ∃ rule, IgnoresInputs rule ∧ ∀ s, exec i s = .next (commandStep w rule s) := by
  have hw := commandWord_decode h
  suffices ∃ rule, IgnoresInputs rule ∧ ∀ s, exec i s = .next (commandStep (commandWord i) rule s) by rwa [hw] at this
  rcases decodeCommand_ok h with ⟨-, rfl⟩ | ⟨-, rfl⟩ | ⟨-, rfl⟩ | ⟨-, -, rfl⟩ | ⟨-, rfl⟩
  · exact ⟨nopRule, nopRule_ignoresInputs, fun _ => rfl⟩
  · exact ⟨harqAllocRule _ _, harqAllocRule_ignoresInputs _ _, fun _ => rfl⟩
  · exact ⟨beginRule, beginRule_ignoresInputs, fun _ => rfl⟩
  · exact ⟨pushRule _, pushRule_ignoresInputs _, fun _ => rfl⟩
  · exact ⟨endRule, endRule_ignoresInputs, fun _ => rfl⟩

/-- The step that takes up a command word is its command step, by a rule that does not see the inputs; an illegal word has one too. -/
theorem step_command (w : Word) :
    ∃ rule, IgnoresInputs rule ∧ ∀ s t, fetch s = (.command w, t) → step s = .next (commandStep w rule t) := by
  cases hd : decodeCommand w with
  | ok i =>
    obtain ⟨rule, hrule, he⟩ := exec_command hd
    exact ⟨rule, hrule, fun s t hf => by simp only [step, hf, hd, he]⟩
  | error e => exact ⟨illegalRule, illegalRule_ignoresInputs, fun s t hf => by simp only [step, hf, hd]⟩

/-- A held write lets the running command's step end first, and stays next. -/
theorem fetch_held_write {s : State} {w : Word} {size : Size} {a : Nat} {v : Word} {rest : List HostInput}
    (hp : s.pending = some w) (hi : s.inputs = .txn (.write size a v) :: rest) : fetch s = (.command w, s) := by
  simp [fetch, hi, hp, Txn.isRead]

theorem fetch_unsent {s : State} {w : Word} (hp : s.pending = some w) :
    fetch (s.withInputs []) = (.command w, s.withInputs []) := by
  simp [fetch, hp]

/-- An idle port performs the next transaction. -/
theorem step_idle_txn {s : State} {x : Txn} {rest : List HostInput} (hp : s.pending = none)
    (hi : s.inputs = .txn x :: rest) : step s = exec (decodeTxn x) (s.withInputs rest) := by
  simp [step, fetch, hi, hp]

/-- Settles O9: the command's step ignores the inputs and ends with BUSY = 0, so the write is next at an idle port. -/
theorem writesAreHeldWhileBusy : Obligations.WritesAreHeldWhileBusy := by
  intro s w size a v rest hp hi
  obtain ⟨rule, hrule, hstep⟩ := step_command w
  have hpend := commandStep_pending w rule s
  have hin := commandStep_inputs hrule w s
  refine ⟨commandStep w rule s, hstep s s (fetch_held_write hp hi), ?_, hin, ?_, step_idle_txn hpend (hin.trans hi)⟩
  · rw [State.busy, hpend]
    rfl
  · rw [hstep _ _ (fetch_unsent hp), commandStep_withInputs hrule]

end Sys2Proof.Machine
end

section
/-! SUPPORT. Decoding and encoding (30_encoding.md R92 to R98): the row of each effective address, the fields of each command word, and that
the decoder and the encoder undo each other. -/

namespace Sys2Proof.Machine

/-! ### Rows by address (30_encoding.md R98, 20_memory.md R62) -/

theorem rowMatches_stage {ea : BitVec 19} :
    rowMatches ea 0x01000#19 0x7F000#19 = true ↔ 0x01000 ≤ ea.toNat ∧ ea.toNat < 0x02000 := by
  rw [rowMatches_iff 12 (by decide), show (0x01000#19).toNat = 0x01000 from rfl]
  omega

theorem rowMatches_tbout {ea : BitVec 19} : rowMatches ea 0x40000#19 0x40000#19 = true ↔ 0x40000 ≤ ea.toNat := by
  have hlt := ea.isLt
  rw [rowMatches_iff 18 (by decide), show (0x40000#19).toNat = 0x40000 from rfl]
  omega

/-- The write rows as ranges of the effective address. -/
theorem decodeWrite_eq (size : Size) (ea : BitVec 19) (v : Word) :
    decodeWrite size ea v =
      if ea.toNat = 0x034 then .cmdWr size v
      else if ea.toNat = 0x020 then .ctrlWr size v
      else if ea.toNat = 0x024 then .statusWr size v
      else if 0x040 ≤ ea.toNat ∧ ea.toNat < 0x050 then .regWr (ea.extractLsb' 0 4) size v
      else if ea.toNat = 0x050 then .regWrView size v
      else if ea.toNat < 0x01000 then .regWrIgnored (ea.extractLsb' 0 12) size v
      else if 0x01000 ≤ ea.toNat ∧ ea.toNat < 0x02000 then .stageWr (ea.extractLsb' 0 12) size v
      else if 0x40000 ≤ ea.toNat then .tboutWrIgnored (ea.extractLsb' 0 18) size v
      else .rsvdWr (ea.extractLsb' 0 18) size v := by
  simp only [decodeWrite, rowMatches_exact, rowMatches_cfg, rowMatches_regs, rowMatches_stage, rowMatches_tbout]
  rfl

/-- The read rows as ranges of the effective address. -/
theorem decodeRead_eq (size : Size) (ea : BitVec 19) :
    decodeRead size ea =
      if ea.toNat < 0x01000 then .regRd (ea.extractLsb' 0 12) size
      else if 0x01000 ≤ ea.toNat ∧ ea.toNat < 0x02000 then .stageRd (ea.extractLsb' 0 12) size
      else if 0x40000 ≤ ea.toNat then .tboutRd (ea.extractLsb' 0 18) size
      else .rsvdRd (ea.extractLsb' 0 18) size := by
  simp only [decodeRead, rowMatches_regs, rowMatches_stage, rowMatches_tbout]

theorem extractLsb'_zero_eq {ea : BitVec 19} {k : Nat} {off : BitVec k} (h : ea.toNat % 2 ^ k = off.toNat) :
    ea.extractLsb' 0 k = off :=
  BitVec.eq_of_toNat_eq ((extractLsb'_zero_toNat ea k).trans h)

/-- A register write that an earlier row takes, by its offset. -/
theorem takenByEarlierRow_iff {off : BitVec 12} :
    takenByEarlierRow off = true ↔
      off.toNat = 0x034 ∨ off.toNat = 0x020 ∨ off.toNat = 0x024 ∨ (0x040 ≤ off.toNat ∧ off.toNat ≤ 0x050) := by
  have hcfg : off &&& 0xFF0#12 = 0x040#12 ↔ off.toNat / 2 ^ 4 * 2 ^ 4 = 0x040 := by
    have hle : off.toNat / 2 ^ 4 * 2 ^ 4 < 2 ^ 12 := (Nat.div_mul_le_self _ _).trans_lt off.isLt
    rw [show 0xFF0#12 = BitVec.allOnes 12 <<< 4 by decide, ← BitVec.shiftLeft_ushiftRight, ← BitVec.toNat_inj,
      BitVec.toNat_shiftLeft, BitVec.toNat_ushiftRight, Nat.shiftRight_eq_div_pow, Nat.shiftLeft_eq, Nat.mod_eq_of_lt hle]
    rfl
  simp only [takenByEarlierRow, Bool.or_eq_true, beq_iff_eq, hcfg, ← BitVec.toNat_inj, BitVec.toNat_ofNat]
  omega

section Rows
variable {ea : BitVec 19} (size : Size) (v : Word)

theorem decodeWrite_cmdWr (h : ea.toNat = 0x034) : decodeWrite size ea v = .cmdWr size v := by
  rw [decodeWrite_eq, if_pos h]

theorem decodeWrite_ctrlWr (h : ea.toNat = 0x020) : decodeWrite size ea v = .ctrlWr size v := by
  simp (disch := omega) only [decodeWrite_eq, if_neg, if_pos]

theorem decodeWrite_statusWr (h : ea.toNat = 0x024) : decodeWrite size ea v = .statusWr size v := by
  simp (disch := omega) only [decodeWrite_eq, if_neg, if_pos]

theorem decodeWrite_regWr {off : BitVec 4} (h : ea.toNat = 0x040 + off.toNat) :
    decodeWrite size ea v = .regWr off size v := by
  have hlt := off.isLt
  simp (disch := omega) only [decodeWrite_eq, if_neg, if_pos, extractLsb'_zero_eq (off := off)]

theorem decodeWrite_regWrView (h : ea.toNat = 0x050) : decodeWrite size ea v = .regWrView size v := by
  simp (disch := omega) only [decodeWrite_eq, if_neg, if_pos]

theorem decodeWrite_regWrIgnored {off : BitVec 12} (h : ea.toNat = off.toNat) (hrow : ¬ takenByEarlierRow off = true) :
    decodeWrite size ea v = .regWrIgnored off size v := by
  have hlt := off.isLt
  rw [takenByEarlierRow_iff] at hrow
  simp (disch := omega) only [decodeWrite_eq, if_neg, if_pos, extractLsb'_zero_eq (off := off)]

theorem decodeWrite_stageWr {off : BitVec 12} (h : ea.toNat = 0x01000 + off.toNat) :
    decodeWrite size ea v = .stageWr off size v := by
  have hlt := off.isLt
  simp (disch := omega) only [decodeWrite_eq, if_neg, if_pos, extractLsb'_zero_eq (off := off)]

theorem decodeWrite_rsvdWr {addr : BitVec 18} (h : ea.toNat = addr.toNat) (hlo : 0x02000 ≤ addr.toNat) :
    decodeWrite size ea v = .rsvdWr addr size v := by
  have hlt := addr.isLt
  simp (disch := omega) only [decodeWrite_eq, if_neg, extractLsb'_zero_eq (off := addr)]

theorem decodeWrite_tboutWrIgnored {off : BitVec 18} (h : ea.toNat = 0x40000 + off.toNat) :
    decodeWrite size ea v = .tboutWrIgnored off size v := by
  have hlt := off.isLt
  simp (disch := omega) only [decodeWrite_eq, if_neg, if_pos, extractLsb'_zero_eq (off := off)]

theorem decodeRead_regRd {off : BitVec 12} (h : ea.toNat = off.toNat) : decodeRead size ea = .regRd off size := by
  have hlt := off.isLt
  simp (disch := omega) only [decodeRead_eq, if_pos, extractLsb'_zero_eq (off := off)]

theorem decodeRead_stageRd {off : BitVec 12} (h : ea.toNat = 0x01000 + off.toNat) :
    decodeRead size ea = .stageRd off size := by
  have hlt := off.isLt
  simp (disch := omega) only [decodeRead_eq, if_neg, if_pos, extractLsb'_zero_eq (off := off)]

theorem decodeRead_rsvdRd {addr : BitVec 18} (h : ea.toNat = addr.toNat) (hlo : 0x02000 ≤ addr.toNat) :
    decodeRead size ea = .rsvdRd addr size := by
  have hlt := addr.isLt
  simp (disch := omega) only [decodeRead_eq, if_neg, extractLsb'_zero_eq (off := addr)]

theorem decodeRead_tboutRd {off : BitVec 18} (h : ea.toNat = 0x40000 + off.toNat) :
    decodeRead size ea = .tboutRd off size := by
  have hlt := off.isLt
  simp (disch := omega) only [decodeRead_eq, if_neg, if_pos, extractLsb'_zero_eq (off := off)]

end Rows

theorem effectiveAddr_of_lt {addr : Nat} (h : addr < 2 ^ 19) : (effectiveAddr addr).toNat = addr :=
  (effectiveAddr_toNat addr).trans (Nat.mod_eq_of_lt h)

/-- Settles O4: each range of addresses is one row's base and its free bits, whose offsets are the operands. -/
theorem transactionsAreClassedByAddress : Obligations.TransactionsAreClassedByAddress := by
  intro size addr v
  simp only [← effectiveAddr_toNat addr, decodeTxn]
  have hea := (effectiveAddr addr).isLt
  have hoff : ∀ k n, n < 2 ^ k → (BitVec.ofNat k n).toNat = n := fun k n h => (BitVec.toNat_ofNat n k).trans (Nat.mod_eq_of_lt h)
  refine ⟨decodeWrite_cmdWr size _, decodeWrite_ctrlWr size _, decodeWrite_statusWr size _, ?cfg, decodeWrite_regWrView size _,
    ?ignored, ?stageWr, ?rsvdWr, ?tboutWr, ?regRd, ?stageRd, ?rsvdRd, ?tboutRd⟩
  case cfg => exact fun ⟨lo, hi⟩ => decodeWrite_regWr size _ (by rw [hoff 4] <;> omega)
  case ignored =>
    rintro ⟨lt, cmd, ctrl, status, cfg⟩
    have hn := hoff 12 (effectiveAddr addr).toNat lt
    exact decodeWrite_regWrIgnored size _ hn.symm (by rw [takenByEarlierRow_iff]; omega)
  case stageWr => exact fun ⟨lo, hi⟩ => decodeWrite_stageWr size _ (by rw [hoff 12] <;> omega)
  case rsvdWr =>
    rintro ⟨lo, hi⟩
    have hn := hoff 18 (effectiveAddr addr).toNat hi
    exact decodeWrite_rsvdWr size _ hn.symm (by omega)
  case tboutWr => exact fun lo => decodeWrite_tboutWrIgnored size _ (by rw [hoff 18] <;> omega)
  case regRd => exact fun lt => decodeRead_regRd size (hoff 12 (effectiveAddr addr).toNat lt).symm
  case stageRd => exact fun ⟨lo, hi⟩ => decodeRead_stageRd size (by rw [hoff 12] <;> omega)
  case rsvdRd =>
    rintro ⟨lo, hi⟩
    have hn := hoff 18 (effectiveAddr addr).toNat hi
    exact decodeRead_rsvdRd size hn.symm (by omega)
  case tboutRd => exact fun lo => decodeRead_tboutRd size (by rw [hoff 18] <;> omega)

/-! ### Write data (30_encoding.md R98, log 13) -/

/-- What a write moves is its data modulo the values of SIZE bytes. -/
theorem wdataLanes_toNat (size : Size) (v : Word) : (wdataLanes size v).toNat = v.toNat % 2 ^ (8 * size.bytes) := by
  cases size with
  | one => exact Nat.and_two_pow_sub_one_eq_mod v.toNat 8
  | two => exact Nat.and_two_pow_sub_one_eq_mod v.toNat 16
  | four => exact (Nat.mod_eq_of_lt v.isLt).symm

theorem wdataLanes_of_lt {size : Size} {v : Word} (h : v.toNat < 2 ^ (8 * size.bytes)) : wdataLanes size v = v :=
  BitVec.eq_of_toNat_eq ((wdataLanes_toNat size v).trans (Nat.mod_eq_of_lt h))

theorem wdataFits_wdataLanes (size : Size) (v : Word) : wdataFits size (wdataLanes size v) = true := by
  rw [wdataFits, wdataLanes_toNat]
  exact decide_eq_true (Nat.mod_lt _ (Nat.two_pow_pos _))

/-! ### Decoded transactions, encoded again -/

/-- A decoded read is well formed and encodes to a read of its effective address: the row's base and its free bits make it up. -/
theorem encode_decodeRead (size : Size) (ea : BitVec 19) :
    (decodeRead size ea).wf = true ∧ encode (decodeRead size ea) = .transaction (.read size ea.toNat) := by
  have hlt := ea.isLt
  have hfree := extractLsb'_zero_toNat ea
  have encoded {a} (h : a = ea.toNat) : Encoded.transaction (.read size a) = .transaction (.read size ea.toNat) := h ▸ rfl
  rw [decodeRead_eq]
  split
  next hregs => exact ⟨rfl, encoded (by rw [hfree]; omega)⟩
  split
  next hstage => exact ⟨rfl, encoded (by rw [hfree]; omega)⟩
  split
  next htbout => exact ⟨rfl, encoded (by rw [hfree]; omega)⟩
  next => exact ⟨decide_eq_true (by rw [hfree]; omega), encoded (by rw [hfree]; omega)⟩

/-- A decoded write is well formed when its data fit its size, and encodes to a write at its effective address. -/
theorem encode_decodeWrite {size : Size} (ea : BitVec 19) {v : Word} (hv : wdataFits size v = true) :
    (decodeWrite size ea v).wf = true ∧ encode (decodeWrite size ea v) = .transaction (.write size ea.toNat v) := by
  have hlt := ea.isLt
  have hfree := extractLsb'_zero_toNat ea
  have encoded {a} (h : a = ea.toNat) : Encoded.transaction (.write size a v) = .transaction (.write size ea.toNat v) :=
    h ▸ rfl
  rw [decodeWrite_eq]
  split
  next hcmd => exact ⟨hv, encoded hcmd.symm⟩
  split
  next hctrl => exact ⟨hv, encoded hctrl.symm⟩
  split
  next hstatus => exact ⟨hv, encoded hstatus.symm⟩
  split
  next hcfg => exact ⟨hv, encoded (by rw [hfree]; omega)⟩
  split
  next hview => exact ⟨hv, encoded hview.symm⟩
  split
  next hregs =>
    have hrow : ¬ takenByEarlierRow (ea.extractLsb' 0 12) = true := by
      rw [takenByEarlierRow_iff, hfree]
      omega
    exact ⟨by simp [Instr.wf, hv, hrow], encoded (by rw [hfree]; omega)⟩
  split
  next hstage => exact ⟨hv, encoded (by rw [hfree]; omega)⟩
  split
  next htbout => exact ⟨hv, encoded (by rw [hfree]; omega)⟩
  next =>
    have hrsvd : inReserved (ea.extractLsb' 0 18) = true := decide_eq_true (by rw [hfree]; omega)
    exact ⟨Bool.and_eq_true_iff.2 ⟨hv, hrsvd⟩, encoded (by rw [hfree]; omega)⟩

/-- Settles O5, for each direction: the row's base and free bits are the address modulo 2^19, and the lanes fit. -/
theorem decodedTransactionsReencode : Obligations.DecodedTransactionsReencode := by
  rintro (⟨size, addr⟩ | ⟨size, addr, v⟩)
  · have h := encode_decodeRead size (effectiveAddr addr)
    rwa [effectiveAddr_toNat] at h
  · have h := encode_decodeWrite (effectiveAddr addr) (wdataFits_wdataLanes size v)
    rwa [effectiveAddr_toNat] at h

/-! ### Command words (30_encoding.md R92, R94, R95) -/

theorem decodeCommand_encodeH (hid : BitVec 8) (ncb : BitVec 16) :
    decodeCommand (encodeH 0x01#8 hid ncb) = .ok (.harqAlloc hid ncb) := by
  have hopc : opcOf (encodeH 0x01#8 hid ncb) = 0x01#8 :=
    (BitVec.extractLsb'_append_eq_of_le (by decide)).trans BitVec.extractLsb'_append_eq_left
  have hhid : hidOf (encodeH 0x01#8 hid ncb) = hid :=
    (BitVec.extractLsb'_append_eq_of_le (by decide)).trans BitVec.extractLsb'_append_eq_right
  have hncb : ncbOf (encodeH 0x01#8 hid ncb) = ncb := BitVec.extractLsb'_append_eq_right
  simp [decodeCommand, hopc, hhid, hncb]

theorem decodeCommand_encodeP (len : BitVec 13) : decodeCommand (encodeP 0x03#8 len) = .ok (.push len) := by
  have hopc : opcOf (encodeP 0x03#8 len) = 0x03#8 :=
    (BitVec.extractLsb'_append_eq_of_le (by decide)).trans BitVec.extractLsb'_append_eq_left
  have hres : reservedP (encodeP 0x03#8 len) = 0 :=
    (BitVec.extractLsb'_append_eq_of_le (by decide)).trans BitVec.extractLsb'_append_eq_right
  have hlen : lenOf (encodeP 0x03#8 len) = len := BitVec.extractLsb'_append_eq_right
  simp [decodeCommand, hopc, hres, hlen]

/-! ### Decoding what was encoded -/

theorem decode_write {size : Size} {addr : Nat} {v : Word} {i : Instr} (hw : addr < 2 ^ 19 ∧ v.toNat < 2 ^ (8 * size.bytes))
    (hrow : (effectiveAddr addr).toNat = addr → decodeWrite size (effectiveAddr addr) v = i) :
    decode (.transaction (.write size addr v)) = .ok i := by
  obtain ⟨haddr, hv⟩ := hw
  rw [decode, decodeTxn, wdataLanes_of_lt hv, hrow (effectiveAddr_of_lt haddr)]

theorem decode_read {size : Size} {addr : Nat} {i : Instr} (haddr : addr < 2 ^ 19)
    (hrow : (effectiveAddr addr).toNat = addr → decodeRead size (effectiveAddr addr) = i) :
    decode (.transaction (.read size addr)) = .ok i := by
  rw [decode, decodeTxn, hrow (effectiveAddr_of_lt haddr)]

/-- Settles O1, by the row: a command's fields are read back from its word; a transaction is on the wire as its row, and decodes to it. -/
theorem decodeEncodeRoundTrip : Obligations.DecodeEncodeRoundTrip := by
  intro i hwf
  cases i with
  | nop => rfl
  | harqAlloc hid ncb => exact decodeCommand_encodeH hid ncb
  | beginSession => rfl
  | push len => exact decodeCommand_encodeP len
  | endSession => rfl
  | cmdWr size v => exact decode_write (Laws.OnTheWire.cmdWr size v hwf) (decodeWrite_cmdWr size v)
  | ctrlWr size v => exact decode_write (Laws.OnTheWire.ctrlWr size v hwf) (decodeWrite_ctrlWr size v)
  | statusWr size v => exact decode_write (Laws.OnTheWire.statusWr size v hwf) (decodeWrite_statusWr size v)
  | regWr off size v => exact decode_write (Laws.OnTheWire.regWr off size v hwf) (decodeWrite_regWr size v)
  | regWrView size v => exact decode_write (Laws.OnTheWire.regWrView size v hwf) (decodeWrite_regWrView size v)
  | regWrIgnored off size v =>
    have hrow : ¬ takenByEarlierRow off = true := by simpa using (Bool.and_eq_true_iff.1 hwf).2
    exact decode_write (Laws.OnTheWire.regWrIgnored off size v hwf) fun ha => decodeWrite_regWrIgnored size v ha hrow
  | regRd off size => exact decode_read (Laws.OnTheWire.regRd off size hwf) (decodeRead_regRd size)
  | stageWr off size v => exact decode_write (Laws.OnTheWire.stageWr off size v hwf) (decodeWrite_stageWr size v)
  | stageRd off size => exact decode_read (Laws.OnTheWire.stageRd off size hwf) (decodeRead_stageRd size)
  | tboutRd off size => exact decode_read (Laws.OnTheWire.tboutRd off size hwf) (decodeRead_tboutRd size)
  | tboutWrIgnored off size v =>
    exact decode_write (Laws.OnTheWire.tboutWrIgnored off size v hwf) (decodeWrite_tboutWrIgnored size v)
  | rsvdRd addr size =>
    exact decode_read (Laws.OnTheWire.rsvdRd addr size hwf) fun ha => decodeRead_rsvdRd size ha (of_decide_eq_true hwf)
  | rsvdWr addr size v =>
    have hlo : 0x02000 ≤ addr.toNat := of_decide_eq_true (Bool.and_eq_true_iff.1 hwf).2
    exact decode_write (Laws.OnTheWire.rsvdWr addr size v hwf) fun ha => decodeWrite_rsvdWr size v ha hlo

/-- Settles O2, by decoding each word and transaction. -/
theorem specExamplesDecode : Obligations.SpecExamplesDecode :=
  ⟨rfl, rfl, rfl, rfl, rfl, rfl, rfl, rfl, rfl⟩

/-! ### Illegal words (30_encoding.md R95) -/

theorem opcOf_eq_iff {w : Word} {opc : BitVec 8} : opcOf w = opc ↔ w.toNat / 2 ^ 24 = opc.toNat := by
  have hlt := w.isLt
  rw [← BitVec.toNat_inj, opcOf, BitVec.extractLsb'_toNat, Nat.shiftRight_eq_div_pow, Nat.mod_eq_of_lt (by omega)]

theorem reservedZ_eq_zero_iff {w : Word} : reservedZ w = 0 ↔ w.toNat % 2 ^ 24 = 0 := by
  rw [← BitVec.toNat_inj, reservedZ, BitVec.extractLsb'_toNat, Nat.shiftRight_zero]
  rfl

theorem reservedP_eq_zero_iff {w : Word} : reservedP w = 0 ↔ w.toNat / 2 ^ 13 % 2 ^ 11 = 0 := by
  rw [← BitVec.toNat_inj, reservedP, BitVec.extractLsb'_toNat, Nat.shiftRight_eq_div_pow]
  rfl

/-- A decoded word is the encoding of its instruction. -/
theorem encode_of_decodeCommand {w : Word} {i : Instr} (h : decodeCommand w = .ok i) : encode i = .command w := by
  rcases decodeCommand_ok h with ⟨rfl, rfl⟩ | ⟨hopc, rfl⟩ | ⟨rfl, rfl⟩ | ⟨hopc, hres, rfl⟩ | ⟨rfl, rfl⟩
  · rfl
  · exact congrArg Encoded.command (encodeH_fields w hopc)
  · rfl
  · exact congrArg Encoded.command (encodeP_fields w hopc hres)
  · rfl

/-- The commands have no check on their operands. -/
theorem wf_of_encode_command {w : Word} {i : Instr} (h : encode i = .command w) : i.wf = true := by
  cases i with
  | nop | harqAlloc | beginSession | push | endSession => rfl
  | _ => cases h

/-- Only the decoded instruction encodes to a command word, for the word decodes back to it. -/
theorem decodeCommand_of_encode {w : Word} {i : Instr} (h : encode i = .command w) : decodeCommand w = .ok i :=
  (congrArg decode h).symm.trans (decodeEncodeRoundTrip i (wf_of_encode_command h))

theorem not_illegalWord_of_decode {w : Word} {i : Instr} (h : decodeCommand w = .ok i) : ¬ illegalWord w := by
  unfold illegalWord
  rcases decodeCommand_ok h with ⟨rfl, -⟩ | ⟨hopc, -⟩ | ⟨rfl, -⟩ | ⟨hopc, hres, -⟩ | ⟨rfl, -⟩
  · decide
  · have hopc := opcOf_eq_iff.1 hopc
    rw [BitVec.toNat_ofNat] at hopc
    omega
  · decide
  · have hopc := opcOf_eq_iff.1 hopc
    have hres := reservedP_eq_zero_iff.1 hres
    rw [BitVec.toNat_ofNat] at hopc
    omega
  · decide

/-- The decoder refuses a word only for its opcode or for a reserved bit. -/
theorem illegalWord_of_decode_error {w : Word} {e : DecodeError} (h : decodeCommand w = .error e) : illegalWord w := by
  unfold illegalWord
  simp only [decodeCommand, formatZ, opcOf_eq_iff, reservedZ_eq_zero_iff, reservedP_eq_zero_iff, BitVec.toNat_ofNat] at h
  split_ifs at h <;> omega

/-- The step of a word the decoder refuses is the rule of an illegal word (30_encoding.md R95). -/
theorem step_illegal {s : State} {w : Word} {e : DecodeError} (hd : decodeCommand w = .error e) (hp : s.pending = some w)
    (hi : s.inputs = []) (hf : s.fault = false) : step s = .next (s.faultedWith .illegalCmd w 0) := by
  have hfetch : fetch s = (.command w, s) := by simp [fetch, hi, hp]
  simp only [step, hfetch, hd]
  exact congrArg Host.Outcome.next (commandStep_raise w illegalRule hf rfl)

/-- Settles O3: the illegal words are those the decoder refuses, and encoding inverts decoding on the others. -/
theorem illegalWordsFaultOthersAreCommands : Obligations.IllegalWordsFaultOthersAreCommands := by
  intro w
  cases hd : decodeCommand w with
  | error e =>
    refine ⟨fun _ => ⟨fun i hi => ?_, fun s => step_illegal hd⟩, fun hw => absurd (illegalWord_of_decode_error hd) hw⟩
    rw [decodeCommand_of_encode hi] at hd
    cases hd
  | ok i =>
    refine ⟨fun hw => absurd hw (not_illegalWord_of_decode hd), fun _ => ⟨i, rfl, encode_of_decodeCommand hd, fun j hj => ?_⟩⟩
    exact Except.ok.inj ((decodeCommand_of_encode hj).symm.trans hd)

end Sys2Proof.Machine
end

section
/-! SUPPORT. The commands (40_commands.md R120 to R125): how a step reaches them, and what each does when its checks pass and when
one fails. -/

namespace Sys2Proof.Machine

/-! ### A step runs what it takes up (40_commands.md R120, 20_memory.md R77) -/

theorem step_of_fetch_command {s t : State} {w : Word} {i : Instr} (hf : fetch s = (.command w, t))
    (hd : decodeCommand w = .ok i) : step s = exec i t := by
  simp only [step, hf, hd]

theorem step_of_fetch_txn {s t : State} {x : Txn} (hf : fetch s = (.transaction x, t)) : step s = exec (decodeTxn x) t := by
  simp only [step, hf]

/-- The port takes the next transaction if it is idle, and a read even while BUSY = 1 (20_memory.md R72, R77). -/
theorem fetch_txn {s : State} {x : Txn} {rest : List HostInput} (hi : s.inputs = .txn x :: rest)
    (h : s.pending = none ∨ x.isRead = true) : fetch s = (.transaction x, s.withInputs rest) := by
  unfold fetch
  cases hp : s.pending with
  | none => simp [hi]
  | some w =>
    have hx : x.isRead = true := h.resolve_left (by simp [hp])
    simp [hi, hx]

/-- An accepted command ends its step when time passes. -/
theorem fetch_lapse {s : State} {w : Word} {rest : List HostInput} (hp : s.pending = some w) (hi : s.inputs = .lapse :: rest) :
    fetch s = (.command w, s.withInputs rest) := by
  simp [fetch, hi, hp]

/-- A table word decodes to what its encoded object decodes to (log 2). -/
theorem decodeTableWord_some {nbits w : Nat} {i : Instr} (h : decodeTableWord nbits w = some i) :
    (nbits = 32 ∧ decodeCommand (BitVec.ofNat 32 w) = .ok i) ∨
    (nbits ≠ 32 ∧ ∃ x, encodedOfTableWord nbits w = .ok (.transaction x) ∧ decodeTxn x = i) := by
  by_cases hn : nbits = 32
  · refine .inl ⟨hn, ?_⟩
    rw [decodeTableWord, encodedOfTableWord, if_pos hn] at h
    cases hd : decodeCommand (BitVec.ofNat 32 w) with
    | ok j => simpa [decode, hd, Except.toOption] using h
    | error e => simp [decode, hd, Except.toOption] at h
  · refine .inr ⟨hn, ?_⟩
    have he : encodedOfTableWord nbits w = (txnOfFrame w).map .transaction := if_neg hn
    cases hx : txnOfFrame w with
    | ok x =>
      rw [hx] at he
      refine ⟨x, he, ?_⟩
      simpa [decodeTableWord, he, Except.map, decode, Except.toOption] using h
    | error e => simp [decodeTableWord, he, hx, Except.map] at h

theorem withFetchWord_command (s : State) (w : Nat) :
    s.withFetchWord 32 w = { s with pending := some (BitVec.ofNat 32 w), inputs := .lapse :: s.inputs } := rfl

theorem withFetchWord_txn (s : State) {nbits w : Nat} {x : Txn} (h : encodedOfTableWord nbits w = .ok (.transaction x)) :
    s.withFetchWord nbits w = { s with pending := none, inputs := .txn x :: s.inputs } := by
  rw [State.withFetchWord, h]

/-- Settles O6, by what `fetch` takes up in each case. -/
theorem stepRunsDecodedInstruction : Obligations.StepRunsDecodedInstruction := by
  refine ⟨fun s w i hp hd => ⟨fun hi => ?_, fun rest hi => ?_, fun size a v rest hi => ?_⟩,
    fun s x rest hi h => step_of_fetch_txn (fetch_txn hi h), fun s nbits w i h => ?_⟩
  · exact step_of_fetch_command (by simp [fetch, hi, hp]) hd
  · exact step_of_fetch_command (fetch_lapse hp hi) hd
  · exact step_of_fetch_command (fetch_held_write hp hi) hd
  · rcases decodeTableWord_some h with ⟨rfl, hd⟩ | ⟨hn, x, he, rfl⟩
    · refine ⟨fun _ => ?_, fun hne => absurd rfl hne⟩
      rw [withFetchWord_command]
      exact step_of_fetch_command (fetch_lapse rfl rfl) hd
    · refine ⟨fun heq => absurd heq hn, fun _ => ?_⟩
      rw [withFetchWord_txn s he]
      exact step_of_fetch_txn (fetch_txn rfl (.inl rfl))

/-! ### A command whose rule is known (40_commands.md R120, 60_exceptions.md R333) -/

section Rule

variable {i : Instr} {rule : State → Except Raise State} (hexec : ∀ u, exec i u = .next (commandStep (commandWord i) rule u))
  {s : State} (hf : s.fault = false)

include hexec hf

theorem exec_of_rule_ok {t : State} (h : rule s = .ok t) : exec i s = .next t.endStep := by
  rw [hexec, commandStep_ok _ rule hf h]

theorem exec_of_rule_error {cause : FaultCause} {info : Word} (h : rule s = .error (cause, info)) :
    exec i s = .next (s.faultedWith cause (commandWord i) info) := by
  rw [hexec, commandStep_raise _ rule hf h]
  rfl

end Rule

/-! ### NOP (40_commands.md R121) -/

/-- NOP's step ends the same whether it is discarded or run. -/
theorem execNop_eq (s : State) : exec .nop s = .next s.endStep := by
  cases hf : s.fault with
  | true => exact congrArg Host.Outcome.next (commandStep_faulted _ nopRule s hf)
  | false => exact exec_of_rule_ok (fun _ => rfl) hf rfl

/-- OPC 0 has one legal word (30_encoding.md R95). -/
theorem illegalWord_of_opc_zero {w : Word} (hopc : w.toNat / 2 ^ 24 = 0) (hw : w ≠ 0) : illegalWord w := by
  have hne : w.toNat ≠ 0 := fun h => hw (BitVec.eq_of_toNat_eq h)
  exact .inr (.inl ⟨.inl hopc, by omega⟩)

/-- Settles O13, by NOP's rule and by the step of an illegal word. -/
theorem nopChangesNothing : Obligations.NopChangesNothing := by
  refine ⟨execNop_eq, rfl, fun w s hopc hw hp hi hf => ?_⟩
  obtain ⟨hillegal, -⟩ := illegalWordsFaultOthersAreCommands w
  exact (hillegal (illegalWord_of_opc_zero hopc hw)).2 s hp hi hf

/-! ### HARQ_ALLOC (40_commands.md R122) -/

section HarqAlloc

variable {hid : BitVec 8} {ncb : BitVec 16} {s : State} (hphase : s.phase = .idle)

include hphase

theorem harqAllocRule_of_range (hhid : hid.toNat < s.params.numHarq) (hncb : 1 ≤ ncb.toNat ∧ ncb.toNat ≤ s.params.maxCb) :
    harqAllocRule hid ncb s =
      .ok (s.setHarq hid.toNat { deallocate (s.harq hid.toNat) s.params.maxCb with nofCb := ncb.toNat }) := by
  rw [harqAllocRule, if_neg (not_not.2 hphase), if_neg (not_not.2 hhid), if_neg (not_not.2 hncb)]

theorem harqAllocRule_hid_range (hhid : ¬ hid.toNat < s.params.numHarq) :
    harqAllocRule hid ncb s = .error (.harqRange, hid.setWidth 32) := by
  rw [harqAllocRule, if_neg (not_not.2 hphase), if_pos hhid]

theorem harqAllocRule_ncb_range (hhid : hid.toNat < s.params.numHarq)
    (hncb : ¬ (1 ≤ ncb.toNat ∧ ncb.toNat ≤ s.params.maxCb)) :
    harqAllocRule hid ncb s = .error (.harqRange, ncb.setWidth 32) := by
  rw [harqAllocRule, if_neg (not_not.2 hphase), if_neg (not_not.2 hhid), if_pos hncb]

end HarqAlloc

theorem deallocate_msg (b : HarqBuf) (n r : Nat) : ((deallocate b n).cb r).msg = (b.cb r).msg := by
  rw [deallocate_cb]
  split <;> rfl

/-- Below `n` every codeblock is free and its flag clear. -/
theorem deallocate_free (b : HarqBuf) {n r : Nat} (h : r < n) :
    ((deallocate b n).cb r).alloc = false ∧ ((deallocate b n).cb r).flag = false := by
  rw [deallocate_cb, if_pos h]
  exact ⟨rfl, rfl⟩

@[simp] theorem State.endStep_harq (s : State) (h : Nat) : s.endStep.harq h = s.harq h := rfl

@[simp] theorem State.setHarq_harq_same (s : State) (h : Nat) (b : HarqBuf) : (s.setHarq h b).harq h = b :=
  (s.setHarq_harq h h b).trans (if_pos rfl)

/-- Settles O14: the buffer put back is the old one, deallocated and sized anew. -/
theorem harqAllocCompletes : Obligations.HarqAllocCompletes := by
  intro hid ncb s hf hphase hhid hmin hmax
  refine ⟨_, exec_of_rule_ok (fun _ => rfl) hf (harqAllocRule_of_range hphase hhid ⟨hmin, hmax⟩), rfl, ?_⟩
  rw [State.endStep_harq, State.setHarq_harq_same]
  refine ⟨rfl, fun r hr => deallocate_free _ hr, fun r => ⟨deallocate_soft _ _ r, deallocate_msg _ _ r⟩, fun h hne => ?_⟩
  rw [State.endStep_harq, State.setHarq_harq, if_neg hne]

/-- Settles O15, by HARQ_ALLOC's checks in their order. -/
theorem harqAllocRangeFaults : Obligations.HarqAllocRangeFaults := by
  intro hid ncb s hf hphase
  refine ⟨fun hhid => ?_, fun hhid hncb => ?_⟩
  · exact exec_of_rule_error (fun _ => rfl) hf (harqAllocRule_hid_range hphase (Nat.not_lt.2 hhid))
  · have hrange : ¬ (1 ≤ ncb.toNat ∧ ncb.toNat ≤ s.params.maxCb) := by
      rcases hncb with rfl | hncb
      · simp
      · omega
    exact exec_of_rule_error (fun _ => rfl) hf (harqAllocRule_ncb_range hphase hhid hrange)

/-! ### BEGIN (40_commands.md R123) -/

/-- The fields of CFG_CODING as numbers (10_state.md R32). -/
theorem codingBg_toNat (c : Word) : (codingBg c).toNat = c.toNat % 4 := by
  simp [codingBg]

theorem codingQm_toNat (c : Word) : (codingQm c).toNat = c.toNat / 16 % 16 := by
  simp [codingQm, Nat.shiftRight_eq_div_pow]

theorem codingNl_toNat (c : Word) : (codingNl c).toNat = c.toNat / 256 % 8 := by
  simp [codingNl, Nat.shiftRight_eq_div_pow]

theorem codingMaxIter_toNat (c : Word) : (codingMaxIter c).toNat = c.toNat / 65536 % 256 := by
  simp [codingMaxIter, Nat.shiftRight_eq_div_pow]

/-- BEGIN's rule in IDLE: the first illegal field is named, and without one the session is latched. -/
theorem beginRule_of_idle {s : State} (hphase : s.phase = .idle) :
    beginRule s =
      if firstIllegalField s.params s.cfgTbBytes s.cfgCoding s.cfgHarqId = 0 then
        .ok { s with sess := latchSession s, acc := [], phase := .accum }
      else .error (.cfgInvalid, BitVec.ofNat 32 (firstIllegalField s.params s.cfgTbBytes s.cfgCoding s.cfgHarqId)) := by
  have hbg1 : codingBg s.cfgCoding = 1 ↔ s.cfgCoding.toNat % 4 = 1 := by
    rw [← BitVec.toNat_inj, codingBg_toNat]
    rfl
  have hbg2 : codingBg s.cfgCoding = 2 ↔ s.cfgCoding.toNat % 4 = 2 := by
    rw [← BitVec.toNat_inj, codingBg_toNat]
    rfl
  rw [beginRule, if_neg (not_not.2 hphase), firstIllegalField]
  simp only [hbg1, hbg2, codingQm_toNat, codingNl_toNat, codingMaxIter_toNat, legalQm, List.contains_iff_mem, Config.maxLayers]
  by_cases htb : s.cfgTbBytes.toNat = 0 ∨ s.params.maxTbBytes < s.cfgTbBytes.toNat
  · rw [if_pos (by omega), if_pos htb]
    rfl
  rw [if_neg (by omega), if_neg htb]
  by_cases hsel : s.cfgCoding.toNat % 4 ≠ 1 ∧ s.cfgCoding.toNat % 4 ≠ 2
  · rw [if_pos (by omega), if_pos hsel]
    rfl
  rw [if_neg (by omega), if_neg hsel]
  by_cases hqm : s.cfgCoding.toNat / 16 % 16 ∉ [1, 2, 4, 6, 8]
  · rw [if_pos hqm, if_pos hqm]
    rfl
  rw [if_neg hqm, if_neg hqm]
  by_cases hnl : s.cfgCoding.toNat / 256 % 8 = 0 ∨ 4 < s.cfgCoding.toNat / 256 % 8
  · rw [if_pos (by omega), if_pos hnl]
    rfl
  rw [if_neg (by omega), if_neg hnl]
  by_cases hiter : s.cfgCoding.toNat / 65536 % 256 = 0
  · rw [if_pos (by omega), if_pos hiter]
    rfl
  rw [if_neg (by omega), if_neg hiter]
  by_cases hhid : s.params.numHarq ≤ s.cfgHarqId.toNat
  · rw [if_pos (by omega), if_pos hhid]
    rfl
  rw [if_neg (by omega), if_neg hhid, if_pos rfl]

/-- Settles O16: BEGIN's rule with no field illegal. -/
theorem beginLatchesConfiguration : Obligations.BeginLatchesConfiguration := by
  intro s hf hphase hlegal
  have hrule := beginRule_of_idle hphase
  rw [if_pos hlegal] at hrule
  exact exec_of_rule_ok (fun _ => rfl) hf hrule

/-- Settles O17: BEGIN's rule with a field illegal. -/
theorem beginRejectsIllegalConfiguration : Obligations.BeginRejectsIllegalConfiguration := by
  intro s hf hphase hillegal
  have hrule := beginRule_of_idle hphase
  rw [if_neg hillegal] at hrule
  exact exec_of_rule_error (fun _ => rfl) hf hrule

/-! ### PUSH (40_commands.md R124) -/

section Push

variable {len : BitVec 13} {s : State} (hphase : s.phase = .accum)

include hphase

theorem pushRule_of_room (hlen : len.toNat ≤ Config.stageBytes) (hroom : s.accCount + len.toNat ≤ s.params.maxSoftbits) :
    pushRule len s = .ok { s with acc := s.acc ++ stagedLlrs s len.toNat } := by
  rw [pushRule, if_neg (not_not.2 hphase), if_neg (not_not.2 hlen), if_neg (not_not.2 hroom)]

theorem pushRule_range (hlen : ¬ len.toNat ≤ Config.stageBytes) : pushRule len s = .error (.pushRange, len.setWidth 32) := by
  rw [pushRule, if_neg (not_not.2 hphase), if_pos hlen]

theorem pushRule_overflow (hlen : len.toNat ≤ Config.stageBytes) (hroom : ¬ s.accCount + len.toNat ≤ s.params.maxSoftbits) :
    pushRule len s = .error (.accOverflow, BitVec.ofNat 32 (s.accCount + len.toNat)) := by
  rw [pushRule, if_neg (not_not.2 hphase), if_neg (not_not.2 hlen), if_pos hroom]

theorem execPush_next (hf : s.fault = false) (hlen : len.toNat ≤ 4096)
    (hroom : s.accCount + len.toNat ≤ s.params.maxSoftbits) :
    exec (.push len) s = .next { s with acc := s.acc ++ stagedLlrs s len.toNat, pending := none } :=
  exec_of_rule_ok (fun _ => rfl) hf (pushRule_of_room hphase hlen hroom)

end Push

theorem stagedLlrs_getElem (s : State) {n i : Nat} (h : i < n) :
    (stagedLlrs s n)[i]? = some (max (-127) (min 127 (s.stageByte i).toInt)) := by
  rw [stagedLlrs, List.getElem?_map, List.getElem?_range h]
  rfl

/-- Settles O18: what is appended to ACC, entry by entry. -/
theorem pushAppendsStagedLlrs : Obligations.PushAppendsStagedLlrs := by
  intro len s hf hphase hlen hroom
  refine ⟨_, execPush_next hphase hf hlen hroom, rfl, ?_, fun i hi => ?_, fun i hi => ?_⟩
  · exact List.length_append.trans (congrArg (s.accCount + ·) (length_stagedLlrs s len.toNat))
  · exact List.getD_append _ _ _ _ hi
  · show (s.acc ++ stagedLlrs s len.toNat).getD (s.acc.length + i) 0 = _
    rw [List.getD_append_right _ _ _ _ (Nat.le_add_right _ _), Nat.add_sub_cancel_left, List.getD_eq_getElem?_getD,
      stagedLlrs_getElem s hi]
    rfl

/-- Settles O19, by PUSH's checks in their order. -/
theorem pushRangeAndOverflowFaults : Obligations.PushRangeAndOverflowFaults := by
  intro len s hf hphase
  refine ⟨fun hlen => ?_, fun hlen hroom => ?_⟩
  · rw [BitVec.ofNat_toNat]
    exact exec_of_rule_error (fun _ => rfl) hf (pushRule_range hphase (Nat.not_le.2 hlen))
  · exact exec_of_rule_error (fun _ => rfl) hf (pushRule_overflow hphase hlen (Nat.not_le.2 hroom))

/-! ### PUSH in two parts (40_commands.md R127) -/

/-- The LLRs of m + n staged bytes are those of the first m and then those of the next n, wherever these are staged. -/
theorem stagedLlrs_add {first second whole : State} {m n : Nat} (hfirst : ∀ i, i < m → whole.stageByte i = first.stageByte i)
    (hsecond : ∀ i, i < n → whole.stageByte (m + i) = second.stageByte i) :
    stagedLlrs whole (m + n) = stagedLlrs first m ++ stagedLlrs second n := by
  simp only [stagedLlrs, List.range_add, List.map_append, List.map_map]
  congr 1
  · exact List.map_congr_left fun i hi => by rw [hfirst i (List.mem_range.1 hi)]
  · refine List.map_congr_left fun i hi => ?_
    rw [Function.comp_apply, hsecond i (List.mem_range.1 hi)]

/-- Settles O30: the three PUSHes have room, and the staged LLRs of the whole are those of its parts. -/
theorem chunkingInvariance : Obligations.ChunkingInvariance := by
  intro first second whole m n k hk hmax hf1 hf2 hf3 hp1 hp2 hp3 hps12 hps13 hacc hroom hfirst hsecond
  have hcount : first.accCount = whole.accCount := congrArg List.length hacc
  have hroom1 : first.accCount + m.toNat ≤ first.params.maxSoftbits := by
    rw [hcount, hps13]
    omega
  refine ⟨_, { second with acc := second.acc ++ stagedLlrs second n.toNat, pending := none }, _,
    execPush_next hp1 hf1 (by omega) hroom1, execPush_next hp3 hf3 hmax hroom, fun ht => ⟨?_, ?_⟩⟩
  · refine execPush_next hp2 hf2 (by omega) ?_
    have hlen : second.accCount = whole.accCount + m.toNat := by
      rw [State.accCount, ht, ← hcount]
      exact List.length_append.trans (congrArg (first.accCount + ·) (length_stagedLlrs first m.toNat))
    rw [hlen, ← hps12, hps13]
    omega
  · show second.acc ++ stagedLlrs second n.toNat = whole.acc ++ stagedLlrs whole k.toNat
    rw [ht, hk, stagedLlrs_add hfirst hsecond, ← hacc, List.append_assoc]

end Sys2Proof.Machine
end

section
/-! SUPPORT. END as a command (40_commands.md R125): its checks in their order, its frame, and that with new data it does not see the
HARQ store (R128). -/

namespace Sys2Proof.Machine

/-! ### END's checks in their order (40_commands.md R125, 60_exceptions.md R338) -/

section Checks

variable {s : State} (hphase : s.phase = .accum)

include hphase

theorem endRule_softbits (hqm : ¬ s.accCount % s.sess.qm.toNat = 0) :
    endRule s = .error (.softbitsNotMultiple, BitVec.ofNat 32 s.accCount) := by
  rw [endRule, if_neg (not_not.2 hphase), if_pos hqm]

variable (hqm : s.accCount % s.sess.qm.toNat = 0)

include hqm

theorem endRule_layers (hnl : ¬ s.accCount % (s.sess.nl.toNat * s.sess.qm.toNat) = 0) :
    endRule s = .error (.layersNotMultiple, BitVec.ofNat 32 s.accCount) := by
  rw [endRule, if_neg (not_not.2 hphase), if_neg (not_not.2 hqm), if_pos hnl]

variable (hnl : s.accCount % (s.sess.nl.toNat * s.sess.qm.toNat) = 0)

include hnl

theorem endRule_segRange (hmax : ¬ (endPlan s).seg.c ≤ s.params.maxCb) :
    endRule s = .error (.segRange, BitVec.ofNat 32 (endPlan s).seg.c) := by
  rw [endRule, if_neg (not_not.2 hphase), if_neg (not_not.2 hqm), if_neg (not_not.2 hnl), if_pos hmax]

theorem endRule_mismatch (hmax : (endPlan s).seg.c ≤ s.params.maxCb)
    (hcount : ¬ (endPlan s).seg.c = (s.harq s.sess.harqId.toNat).nofCb) :
    endRule s = .error (.cbCountMismatch, mismatchInfo (s.harq s.sess.harqId.toNat).nofCb (endPlan s).seg.c) := by
  rw [endRule, if_neg (not_not.2 hphase), if_neg (not_not.2 hqm), if_neg (not_not.2 hnl), if_neg (not_not.2 hmax),
    if_pos hcount]

end Checks

/-- Settles O21, by END's checks in their order. -/
theorem endChecksInOrder : Obligations.EndChecksInOrder := by
  intro s hf hphase
  refine ⟨fun hqm => ?_, fun hqm hnl => ?_, fun hqm hnl hmax => ?_, fun hqm hnl hmax hcount => ?_⟩
  · exact exec_of_rule_error (fun _ => rfl) hf (endRule_softbits hphase hqm)
  · exact exec_of_rule_error (fun _ => rfl) hf (endRule_layers hphase hqm hnl)
  · exact exec_of_rule_error (fun _ => rfl) hf (endRule_segRange hphase hqm hnl (Nat.not_le.2 hmax))
  · exact exec_of_rule_error (fun _ => rfl) hf (endRule_mismatch hphase hqm hnl hmax hcount)

/-! ### The length of a decision (43_ldpc_decoder.md R233) -/

theorem length_hardBits (n : Nat) (post : List Int) : (hardBits n post).length = n := by
  simp [hardBits]

theorem referenceRun_bits_length (rows : List (List Block)) (inp : KernelIn) (n : Nat) (sc : Scratch) {d : List Bool}
    (h : d ∈ referenceRun rows inp n sc) : d.length = inp.kPrime := by
  induction n generalizing sc with
  | zero => cases h
  | succ n ih =>
    rcases List.mem_cons.1 h with rfl | h
    · exact length_hardBits _ _
    · exact ih _ h

/-- Every decision of every kernel has K' bits. -/
theorem runKernel_bits_length {k : Kernel} {src : ShiftSource} {inp : KernelIn} {d : List Bool}
    (h : d ∈ runKernel k src inp) : d.length = inp.kPrime := by
  cases k with
  | reference => exact referenceRun_bits_length _ _ _ _ h
  | hardDecision =>
    rw [List.eq_of_mem_replicate h]
    exact length_hardBits _ _
  | other n =>
    obtain ⟨t, -, rfl⟩ := List.mem_map.1 h
    simp

theorem earlyStopScan_bits_mem (p : Crc) (maxIter t : Nat) (last : List Bool) (ds : List (List Bool)) :
    (earlyStopScan p maxIter t last ds).bits ∈ last :: ds := by
  induction ds generalizing t last with
  | nil => exact List.mem_cons_self
  | cons d ds ih =>
    rw [earlyStopScan]
    split
    · exact List.mem_cons_of_mem _ List.mem_cons_self
    · exact List.mem_cons_of_mem _ (ih (t + 1) d)

/-- An attempt returns one of the kernel's decisions (43_ldpc_decoder.md R230). -/
theorem decodeCb_bits_mem (early : Bool) (p : Crc) (maxIter : Nat) {ds : List (List Bool)} (h : ds ≠ []) :
    (decodeCb early p maxIter ds).bits ∈ ds := by
  obtain ⟨d, ds, rfl⟩ := List.exists_cons_of_ne_nil h
  cases early with
  | false =>
    show (d :: ds).getLastD [] ∈ d :: ds
    rw [List.getLastD_cons, ← List.getLast_eq_getLastD]
    exact List.getLast_mem h
  | true =>
    show (earlyStopScan p maxIter 1 [] (d :: ds)).bits ∈ d :: ds
    rw [earlyStopScan]
    split
    · exact List.mem_cons_self
    · exact earlyStopScan_bits_mem p maxIter 2 d ds

theorem attemptDecode_bits_length (ps : Params) (early : Bool) {maxIter : Nat} (hiter : 1 ≤ maxIter) (seg : Seg)
    (ncb : Nat) (p : Crc) (soft : Sparse Int) :
    (attemptDecode ps early maxIter seg ncb p soft).bits.length = seg.kPrime := by
  have hne : runKernel ps.kernel ps.shifts (kernelInput soft seg ncb maxIter) ≠ [] :=
    List.ne_nil_of_length_pos (by rw [runKernel_length]; exact hiter)
  exact runKernel_bits_length (decodeCb_bits_mem early p maxIter hne)

/-! ### One codeblock of an END with new data (40_commands.md R128) -/

/-- What R128 says of one codeblock's buffers: flag, soft bits, and message bits 0..n-1 are the same. -/
structure CbBuf.Agree (n : Nat) (x y : CbBuf) : Prop where
  flag : y.flag = x.flag
  soft : y.soft = x.soft
  bits : ∀ k, k < n → bitAt y.msg k = bitAt x.msg k

theorem assembleBits_agree {n m : Nat} {x y : CbBuf} (h : CbBuf.Agree n x y) (hm : m ≤ n) :
    assembleBits y.msg m = assembleBits x.msg m :=
  List.map_congr_left fun k hk => h.bits k ((List.mem_range.1 hk).trans_le hm)

/-- A write from bit 0 on hides the bits that were there. -/
theorem bitAt_bitsWrite_zero (old new : List Bool) {k : Nat} (h : k < new.length) :
    bitAt (bitsWrite old 0 new) k = bitAt new k := by
  rw [bitAt_bitsWrite old new 0 k (Nat.zero_le _), if_pos (by omega), Nat.sub_zero]

/-- New data clears the soft buffer before it combines, so a decode of new data sees the span of ACC only
(42_rate_dematch.md R193). -/
theorem endBuffers_newData (ps : Params) {ss : Session} (p : EndPlan) (acc : List Int) (off r : Nat) {c : CbBuf}
    (hnew : ss.newData = true) (hflag : c.flag = false) :
    let soft := rateDematch true p.qm p.seg p.ncb p.k0 ((acc.drop off).take (p.len r)) softZero
    let d := attemptDecode ps ss.earlyStop ss.maxIter.toNat p.seg p.ncb p.poly soft
    endBuffers ps ss p acc off r c =
      ({ alloc := true, flag := d.pass, soft := soft, msg := bitsWrite (fetchOrAllocate c).msg 0 d.bits },
       { attempted := true, iter := d.iter, cbPass := d.pass }) := by
  simp only [endBuffers]
  rw [decodeStep_attempt _ _ _ _ _ _ _ (by simpa using hflag)]
  simp only [hnew, fetchOrAllocate_alloc]
  rfl

theorem endBuffers_newData_agree (ps : Params) {ss : Session} (p : EndPlan) (acc : List Int) (off r : Nat) {c c' : CbBuf}
    (hnew : ss.newData = true) (hiter : 1 ≤ ss.maxIter.toNat) (hc : c.flag = false) (hc' : c'.flag = false) :
    (endBuffers ps ss p acc off r c').2 = (endBuffers ps ss p acc off r c).2 ∧
    CbBuf.Agree p.seg.kPrime (endBuffers ps ss p acc off r c).1 (endBuffers ps ss p acc off r c').1 := by
  rw [endBuffers_newData ps p acc off r hnew hc, endBuffers_newData ps p acc off r hnew hc']
  refine ⟨rfl, rfl, rfl, fun k hk => ?_⟩
  have hlen := attemptDecode_bits_length ps ss.earlyStop hiter p.seg p.ncb p.poly
    (rateDematch true p.qm p.seg p.ncb p.k0 ((acc.drop off).take (p.len r)) softZero)
  rw [← hlen] at hk
  rw [bitAt_bitsWrite_zero _ _ hk, bitAt_bitsWrite_zero _ _ hk]

/-! ### The loop -/

/-- The state with another HARQ store. -/
def State.withStore (s : State) (store : Sparse HarqBuf) : State := { s with hs := store }

theorem endLoop_cb (s : State) (p : EndPlan) {r : Nat} (hr : r < p.seg.c) :
    (endLoop s p).harq.cb r = (endBuffers s.params s.sess p s.acc (p.start r) r ((endStartHarq s p).cb r)).1 := by
  obtain ⟨-, -, -, hcb, -⟩ := endFold s.params s.sess p s.acc (endStartHarq s p) s.tba p.seg.c
  exact (hcb r).trans (if_pos hr)

/-- Assembling what codeblocks 0..C-1 hold after their decode step (44_crc_tb_assembly.md R266). -/
theorem endLoop_tba (s : State) (p : EndPlan) :
    (endLoop s p).tba = ((List.range p.seg.c).foldl (fun (t : List Bool × Nat) r =>
      (bitsWrite t.1 t.2 (assembleBits ((endLoop s p).harq.cb r).msg (assembleLen p.seg p.tbc t.2)),
        t.2 + assembleLen p.seg p.tbc t.2)) (s.tba, 0)).1 := by
  obtain ⟨-, -, -, -, htba⟩ := endFold s.params s.sess p s.acc (endStartHarq s p) s.tba p.seg.c
  refine (congrArg Prod.fst htba).trans (congrArg Prod.fst (List.foldl_ext _ _ _ fun t r hr => ?_))
  rw [endLoop_cb s p (List.mem_range.1 hr)]

/-- New data clears every flag before the loop (40_commands.md R125). -/
theorem endStartHarq_flag {s : State} {p : EndPlan} (hnew : s.sess.newData = true) {r : Nat} (hr : r < p.seg.c) :
    ((endStartHarq s p).cb r).flag = false := by
  rw [endStartHarq, if_pos hnew, clearFlags_cb, if_pos hr]

section NewData

variable {s : State} {p : EndPlan} (store : Sparse HarqBuf)
  (hnew : s.sess.newData = true) (hiter : 1 ≤ s.sess.maxIter.toNat)

include hnew hiter

theorem endBuffers_withStore_agree {r : Nat} (hr : r < p.seg.c) :
    let one := fun u : State => endBuffers s.params s.sess p s.acc (p.start r) r ((endStartHarq u p).cb r)
    (one (s.withStore store)).2 = (one s).2 ∧ CbBuf.Agree p.seg.kPrime (one s).1 (one (s.withStore store)).1 :=
  endBuffers_newData_agree s.params p s.acc _ r hnew hiter (endStartHarq_flag hnew hr)
    (endStartHarq_flag (s := s.withStore store) hnew hr)

/-- With new data the loop leaves codeblocks 0..C-1 alike, whatever the HARQ store held. -/
theorem endLoop_withStore_agree {r : Nat} (hr : r < p.seg.c) :
    CbBuf.Agree p.seg.kPrime ((endLoop s p).harq.cb r) ((endLoop (s.withStore store) p).harq.cb r) := by
  rw [endLoop_cb s p hr, endLoop_cb (s.withStore store) p hr]
  exact (endBuffers_withStore_agree store hnew hiter hr).2

theorem endLoop_withStore_recs : (endLoop (s.withStore store) p).recs = (endLoop s p).recs := by
  rw [endLoop_recs, endLoop_recs]
  exact List.map_congr_left fun r hr => (endBuffers_withStore_agree store hnew hiter (List.mem_range.1 hr)).1

theorem endLoop_withStore_tba (hd : p.seg.d ≤ p.seg.kPrime) :
    (endLoop (s.withStore store) p).tba = (endLoop s p).tba := by
  rw [endLoop_tba, endLoop_tba]
  refine congrArg Prod.fst (List.foldl_ext _ _ _ fun t r hr => ?_)
  have hm : assembleLen p.seg p.tbc t.2 ≤ p.seg.kPrime := (Nat.min_le_left _ _).trans hd
  rw [assembleBits_agree (endLoop_withStore_agree store hnew hiter (List.mem_range.1 hr)) hm]

end NewData

/-! ### The TB decision and the report -/

section Decision

variable {b b' : HarqBuf} {c : Nat}

theorem allFlags_congr (h : ∀ r, r < c → (b'.cb r).flag = (b.cb r).flag) : allFlags b' c = allFlags b c := by
  unfold allFlags
  rw [Bool.eq_iff_iff]
  simp +contextual [h]

/-- The decision looks at the flags of codeblocks 0..C-1 and at TBA (44_crc_tb_assembly.md R267, R269, R270). -/
theorem tbDecision_congr (h : ∀ r, r < c → (b'.cb r).flag = (b.cb r).flag) (tba : List Bool) (a : Nat) :
    tbDecision b' tba c a = tbDecision b tba c a := by
  unfold tbDecision
  split
  next hc => exact h 0 (by omega)
  next => rw [allFlags_congr h]

theorem decisionFlags_agree {n : Nat} (h : ∀ r, r < c → CbBuf.Agree n (b.cb r) (b'.cb r)) (tba : List Bool) (a : Nat)
    {r : Nat} (hr : r < c) :
    CbBuf.Agree n ((decisionFlags b tba c a).cb r) ((decisionFlags b' tba c a).cb r) := by
  unfold decisionFlags
  rw [allFlags_congr fun r hr => (h r hr).flag]
  split
  · rw [clearFlags_cb, clearFlags_cb, if_pos hr, if_pos hr]
    exact ⟨rfl, (h r hr).soft, (h r hr).bits⟩
  · exact h r hr

theorem reportCb_congr (recs : List CbRec) (h : ∀ r, r < c → (b'.cb r).flag = (b.cb r).flag) :
    reportCb recs b' c = reportCb recs b c := by
  refine List.map_congr_left fun r hr => ?_
  rw [h r ((List.mem_range.1 hr).trans_le (Nat.min_le_left _ _))]

end Decision

/-- END plans with the open session's segmentation (40_commands.md R125). -/
theorem endPlan_seg (s : State) : (endPlan s).seg = s.seg := rfl

/-- The buffer END gives back is its loop's, after the TB decision. -/
theorem endEffect_harq_borrowed (s : State) (p : EndPlan) :
    (endEffect s p).harq s.sess.harqId.toNat =
      decisionFlags (endLoop s p).harq (endLoop s p).tba p.seg.c p.seg.a :=
  (State.setHarq_harq s s.sess.harqId.toNat s.sess.harqId.toNat _).trans (if_pos rfl)

/-- R128 for the effect of END: results, memory and codeblocks 0..C-1 do not depend on the HARQ store before. -/
theorem endEffect_withStore {s : State} {p : EndPlan} (store : Sparse HarqBuf) (hnew : s.sess.newData = true)
    (hiter : 1 ≤ s.sess.maxIter.toNat) (hd : p.seg.d ≤ p.seg.kPrime) :
    (endEffect (s.withStore store) p).res = (endEffect s p).res ∧
    (endEffect (s.withStore store) p).mem = (endEffect s p).mem ∧
    ∀ r, r < p.seg.c → CbBuf.Agree p.seg.kPrime (((endEffect s p).harq s.sess.harqId.toNat).cb r)
      (((endEffect (s.withStore store) p).harq s.sess.harqId.toNat).cb r) := by
  have hcb : ∀ r, r < p.seg.c → CbBuf.Agree p.seg.kPrime ((endLoop s p).harq.cb r)
      ((endLoop (s.withStore store) p).harq.cb r) := fun r => endLoop_withStore_agree store hnew hiter
  have htba := endLoop_withStore_tba store hnew hiter hd
  have hflags := fun r hr => decisionFlags_agree hcb (endLoop s p).tba p.seg.a (r := r) hr
  have hok : endOk (s.withStore store) p = endOk s p := by
    rw [endOk, htba, tbDecision_congr fun r hr => (hcb r hr).flag]
    rfl
  refine ⟨?_, ?_, fun r hr => ?_⟩
  · rw [endEffect_res, endEffect_res, hok, endLoop_withStore_recs store hnew hiter, htba]
    simp only [report, reportCb_congr _ fun r hr => (hflags r hr).flag]
  · rw [endEffect_mem, endEffect_mem, hok, htba]
    rfl
  · have hother : (endEffect (s.withStore store) p).harq s.sess.harqId.toNat =
        decisionFlags (endLoop (s.withStore store) p).harq (endLoop s p).tba p.seg.c p.seg.a := by
      rw [← htba]
      exact endEffect_harq_borrowed (s.withStore store) p
    rw [endEffect_harq_borrowed, hother]
    exact hflags r hr

/-- Settles O28: new data clears the flags and the soft buffers first, and a decode overwrites all K' message bits. -/
theorem newDataForgetsHistory : Obligations.NewDataForgetsHistory := by
  intro s t t' store hf hnew hlegal hc hn ht ht'
  change exec .endSession (s.withStore store) = .next t' at ht'
  have hc' : EndChecks (s.withStore store) := by
    obtain ⟨hphase, hqm, hnl, hmax, hcount⟩ := hc
    exact ⟨hphase, hqm, hnl, hmax, hcount.trans hn.symm⟩
  rw [execEnd_next hf hc] at ht
  rw [execEnd_next (s := s.withStore store) hf hc'] at ht'
  cases ht
  cases ht'
  have hd : (endPlan s).seg.d ≤ (endPlan s).seg.kPrime := Nat.sub_le _ _
  obtain ⟨hres, hmem, hcb⟩ := endEffect_withStore store hnew hlegal.iter hd
  rw [endPlan_seg] at hcb
  refine ⟨hres, hmem, fun r hr => ?_⟩
  rw [State.endStep_harq, State.endStep_harq]
  exact ⟨(hcb r hr).flag, (hcb r hr).soft, (hcb r hr).bits⟩

/-! ### What END leaves unchanged (40_commands.md R125) -/

theorem endEffect_frame (s : State) (p : EndPlan) :
    endEffect s p =
      { s with
        hs := (endEffect s p).hs, tba := (endEffect s p).tba, mem := (endEffect s p).mem, res := (endEffect s p).res,
        done := true, resSeq := s.resSeq + 1, acc := [], phase := .idle } := rfl

@[simp] theorem State.endStep_byteAt (s : State) (a : Nat) : s.endStep.byteAt a = s.byteAt a := rfl

/-- END's one write to memory is of TBOUT bytes 0..TB_BYTES-1 (44_crc_tb_assembly.md R272). -/
theorem endEffect_byteAt_outside (s : State) (p : EndPlan) {a : Nat}
    (ha : a < Config.tboutBase ∨ Config.tboutBase + s.sess.tbBytes.toNat ≤ a) : (endEffect s p).byteAt a = s.byteAt a := by
  have hfind : memFind (endEffect s p).mem a = memFind s.mem a := by
    rw [endEffect_mem]
    split
    · exact memFind_writeBytes_outside _ _ _ _ (by rwa [length_tbBytesOf])
    · rfl
  rw [State.byteAt, hfind]
  rfl

/-- Settles O22: the state END answers, and its frame in the HARQ store and in memory. -/
theorem endCompletes : Obligations.EndCompletes := by
  intro s hf hc
  obtain ⟨hother, hnof, hcb⟩ := endEffect_harq s (endPlan s)
  rw [endPlan_seg] at hcb
  refine ⟨_, execEnd_next hf hc, congrArg State.endStep (endEffect_frame s (endPlan s)), ?_⟩
  simp only [State.endStep_harq, State.endStep_byteAt]
  exact ⟨hnof, fun r hr => (hcb r).trans (if_neg (Nat.not_lt.2 hr)), hother,
    fun a => endEffect_byteAt_outside s (endPlan s)⟩

end Sys2Proof.Machine
end

section
/-! SUPPORT. Codeblock segmentation and its invariants (41_segmentation.md R160 to R169), and the codeblocks' spans of ACC (R170, R171). -/

namespace Sys2Proof.Machine

/-! ### Ceiling division (00_scope.md R15) -/

theorem cdiv_eq_ceilDiv (a b : Nat) : cdiv a b = a ⌈/⌉ b := (Nat.ceilDiv_eq_add_pred_div a b).symm

theorem cdiv_le_iff {a b k : Nat} (hb : 0 < b) : cdiv a b ≤ k ↔ a ≤ b * k := by
  rw [cdiv_eq_ceilDiv, ceilDiv_le_iff_le_mul hb]

theorem lt_cdiv_iff {a b k : Nat} (hb : 0 < b) : k < cdiv a b ↔ b * k < a := by
  rw [← not_le, cdiv_le_iff hb, not_le]

theorem le_mul_cdiv (a : Nat) {b : Nat} (hb : 0 < b) : a ≤ b * cdiv a b := (cdiv_le_iff hb).1 le_rfl

theorem cdiv_one (a : Nat) : cdiv a 1 = a := by simp [cdiv]

theorem cdiv_add_mul (a k : Nat) {b : Nat} (hb : 0 < b) : cdiv (a + b * k) b = cdiv a b + k := by
  rw [cdiv, cdiv, ← Nat.add_mul_div_left _ _ hb]
  congr 1
  omega

theorem cdiv_of_mod_ne_zero {a b : Nat} (h : a % b ≠ 0) (hb : 0 < b) : cdiv a b = a / b + 1 := by
  rw [cdiv_eq_ceilDiv]
  have hsplit := Nat.div_add_mod a b
  have hlt := Nat.mod_lt a hb
  refine le_antisymm ((ceilDiv_le_iff_le_mul hb).2 ?_) ?_
  · rw [Nat.mul_add]
    omega
  · rw [← cdiv_eq_ceilDiv, Nat.succ_le_iff, lt_cdiv_iff hb]
    omega

/-! ### The lifting size (41_segmentation.md R165) -/

theorem leastOr_mem_and_le {l : List Nat} (d : Nat) (h : l ≠ []) : leastOr d l ∈ l ∧ ∀ z ∈ l, leastOr d l ≤ z := by
  cases l with
  | nil => exact absurd rfl h
  | cons z zs => exact List.min?_eq_some_iff.1 List.min?_cons'

/-- R165: when the greatest lifting size is large enough, Zc is the least of the table's sizes that is. -/
theorem liftingSize_isLeast {kb k : Nat} (h : k ≤ kb * 384) :
    liftingSize kb k ∈ liftingSets.flatten ∧ k ≤ kb * liftingSize kb k ∧
      ∀ z ∈ liftingSets.flatten, k ≤ kb * z → liftingSize kb k ≤ z := by
  have hne : (liftingSets.flatten.filter fun z => decide (k ≤ kb * z)) ≠ [] :=
    List.ne_nil_of_mem (List.mem_filter.2 ⟨(by decide : 384 ∈ liftingSets.flatten), decide_eq_true h⟩)
  obtain ⟨hmem, hle⟩ := leastOr_mem_and_le 384 hne
  obtain ⟨htable, hfits⟩ := List.mem_filter.1 hmem
  exact ⟨htable, of_decide_eq_true hfits, fun z hz hk => hle z (List.mem_filter.2 ⟨hz, decide_eq_true hk⟩)⟩

theorem mem_liftingSet {z : Nat} (hz : z ∈ liftingSets.flatten) : z ∈ liftingSets.getD (liftingSet z) [] := by
  obtain ⟨set, hset, hzset⟩ := List.mem_flatten.1 hz
  have hlt : liftingSet z < liftingSets.length :=
    List.findIdx_lt_length_of_exists ⟨set, hset, List.contains_iff_mem.2 hzset⟩
  rw [List.getD_eq_getElem _ _ hlt]
  exact List.contains_iff_mem.1 (List.findIdx_getElem (w := hlt))

/-- The table has no wide gap: below each lifting size but the least stands one that is no less than a third of it. -/
theorem liftingSets_dense :
    ∀ z ∈ liftingSets.flatten, z = 2 ∨ ∃ y ∈ liftingSets.flatten, y < z ∧ z ≤ 3 * y := by decide

/-- R169's K' - 2·Zc >= 1: the lifting size below Zc was too small for K'. -/
theorem two_mul_liftingSize_lt {kb k : Nat} (hkb : 6 ≤ kb) (hk : 5 ≤ k) (h : k ≤ kb * 384) :
    2 * liftingSize kb k < k := by
  obtain ⟨hmem, -, hleast⟩ := liftingSize_isLeast h
  obtain htwo | ⟨y, hy, hlt, hthird⟩ := liftingSets_dense _ hmem
  · omega
  · have hsmall : ¬ k ≤ kb * y := fun hfits => absurd (hleast y hy hfits) (Nat.not_le.2 hlt)
    have hsix : 6 * y ≤ kb * y := Nat.mul_le_mul_right y hkb
    omega

/-! ### The sizes of the segmentation (41_segmentation.md R161 to R164) -/

theorem tbCrcLen_bounds (a : Nat) : 16 ≤ tbCrcLen a ∧ tbCrcLen a ≤ 24 := by
  unfold tbCrcLen
  split <;> omega

theorem kcbOf_cases (bg : BaseGraph) : kcbOf bg = 8448 ∨ kcbOf bg = 3840 := by
  cases bg
  · exact .inl rfl
  · exact .inr rfl

theorem six_le_kbOf (bg : BaseGraph) (b : Nat) : 6 ≤ kbOf bg b := by
  cases bg with
  | bg1 => exact (by decide : 6 ≤ 22)
  | bg2 => simp only [kbOf]; split_ifs <;> decide

theorem kbOf_bg2_le (b : Nat) : kbOf .bg2 b ≤ 10 := by
  simp only [kbOf]
  split_ifs <;> decide

/-- R165's remark that a lifting size always exists: Kb is below its largest value only where B, and so K', is small. -/
theorem le_kbOf_mul {bg : BaseGraph} {b k : Nat} (hkcb : k ≤ kcbOf bg) (hb : k ≤ b) : k ≤ kbOf bg b * 384 := by
  cases bg with
  | bg1 => exact hkcb.trans (by decide : 8448 ≤ 22 * 384)
  | bg2 =>
    have hlarge : k ≤ 3840 := hkcb
    simp only [kbOf]
    split_ifs <;> omega

theorem kbOf_mul_le_messageLen (bg : BaseGraph) (b zc : Nat) : kbOf bg b * zc ≤ messageLen bg zc := by
  cases bg with
  | bg1 => exact Nat.mul_le_mul_right zc (le_refl 22)
  | bg2 => exact Nat.mul_le_mul_right zc (kbOf_bg2_le b)

/-- R162, R163, R168 for a transport block that fits one codeblock. -/
theorem segmentTb_single {a : Nat} {bg : BaseGraph} (h : a + tbCrcLen a ≤ kcbOf bg) :
    (segmentTb a bg).c = 1 ∧ (segmentTb a bg).l = 0 ∧ (segmentTb a bg).kPrime = a + tbCrcLen a ∧
      (segmentTb a bg).lcb = tbCrcLen a := by
  have hc : codeblockCount bg (a + tbCrcLen a) = 1 := if_pos h
  refine ⟨hc, if_pos h, ?_, if_pos hc⟩
  show cdiv (totalWithCbCrcs bg (a + tbCrcLen a)) (codeblockCount bg (a + tbCrcLen a)) = _
  rw [hc, cdiv_one]
  exact if_pos h

theorem one_lt_codeblockCount {bg : BaseGraph} {b : Nat} (h : kcbOf bg < b) : 1 < codeblockCount bg b := by
  rw [codeblockCount, if_neg (Nat.not_le.2 h)]
  obtain hk | hk := kcbOf_cases bg <;> rw [hk] at h ⊢ <;> rw [lt_cdiv_iff (by decide)] <;> omega

/-- R162, R163, R168 for a transport block that needs several codeblocks. -/
theorem segmentTb_several {a : Nat} {bg : BaseGraph} (h : kcbOf bg < a + tbCrcLen a) :
    let g := segmentTb a bg
    g.c = cdiv (a + tbCrcLen a) (kcbOf bg - 24) ∧ 1 < g.c ∧ g.l = 24 ∧ g.kPrime = cdiv (a + tbCrcLen a) g.c + 24 ∧
      g.lcb = 24 := by
  have hc := one_lt_codeblockCount h
  have hn := Nat.not_le.2 h
  refine ⟨if_neg hn, hc, if_neg hn, ?_, if_neg hc.ne'⟩
  show cdiv (totalWithCbCrcs bg (a + tbCrcLen a)) _ = _
  rw [totalWithCbCrcs, if_neg hn]
  exact cdiv_add_mul _ 24 (Nat.zero_lt_of_lt hc)

/-! ### The invariants (41_segmentation.md R169) -/

/-- R169's bounds on C, K' and D, for a transport block of at least one byte. -/
theorem segmentTb_bounds {a : Nat} (bg : BaseGraph) (ha : 8 ≤ a) :
    let g := segmentTb a bg
    1 ≤ g.c ∧ g.b ≤ g.c * (g.kPrime - g.l) ∧ 24 ≤ g.kPrime ∧ g.kPrime ≤ kcbOf bg ∧ g.kPrime ≤ g.b ∧
      g.lcb + 8 ≤ g.kPrime := by
  have hcrc := tbCrcLen_bounds a
  have hb : (segmentTb a bg).b = a + tbCrcLen a := rfl
  simp only [hb]
  obtain hfits | hlarge := le_or_gt (a + tbCrcLen a) (kcbOf bg)
  · obtain ⟨hc, hl, hk, hlcb⟩ := segmentTb_single hfits
    rw [hc, hl, hk, hlcb]
    omega
  · obtain ⟨hc, hone, hl, hk, hlcb⟩ := segmentTb_several hlarge
    have hpos : 0 < (segmentTb a bg).c := Nat.zero_lt_of_lt hone
    have hkcb : 24 < kcbOf bg := by obtain h | h := kcbOf_cases bg <;> omega
    have hcover := le_mul_cdiv (a + tbCrcLen a) hpos
    -- C codeblocks of Kcb - 24 bits hold B, so K' - 24 is at most Kcb - 24.
    have hupper : cdiv (a + tbCrcLen a) (segmentTb a bg).c ≤ kcbOf bg - 24 := by
      rw [cdiv_le_iff hpos, hc, Nat.mul_comm]
      exact le_mul_cdiv _ (by omega)
    -- C is far below B, so each codeblock has at least 8 bits of B.
    have hfew : (segmentTb a bg).c ≤ (a + tbCrcLen a - 1) / 7 := by
      rw [hc, cdiv_le_iff (by omega)]
      obtain h | h := kcbOf_cases bg <;> rw [h] at hlarge ⊢ <;> omega
    have hlower : 7 < cdiv (a + tbCrcLen a) (segmentTb a bg).c := (lt_cdiv_iff hpos).2 (by omega)
    rw [hl, hk, hlcb, Nat.add_sub_cancel]
    obtain h | h := kcbOf_cases bg <;> omega

/-- R165 and R169's bounds on Zc, F and K' - 2·Zc. -/
theorem segmentTb_lifting {a : Nat} (bg : BaseGraph) (ha : 8 ≤ a) :
    let g := segmentTb a bg
    g.kPrime ≤ g.kb * g.zc ∧ g.kPrime ≤ g.k ∧ 2 * g.zc < g.kPrime ∧ g.zc ∈ liftingSets.flatten ∧
      ∀ z ∈ liftingSets.flatten, g.kPrime ≤ g.kb * z → g.zc ≤ z := by
  obtain ⟨-, -, hlow, hkcb, hb, -⟩ := segmentTb_bounds bg ha
  have h384 := le_kbOf_mul hkcb hb
  obtain ⟨hmem, hfits, hleast⟩ := liftingSize_isLeast h384
  exact ⟨hfits, hfits.trans (kbOf_mul_le_messageLen bg _ _),
    two_mul_liftingSize_lt (six_le_kbOf bg _) (le_trans (by decide) hlow) h384, hmem, hleast⟩

/-- Settles O37: the formulas hold by the model's definitions; the invariants are `segmentTb_bounds` and `segmentTb_lifting`. -/
theorem segmentationInvariants : Obligations.SegmentationInvariants := by
  refine ⟨fun n bg hn _ => ?_, rfl, by decide, by decide, fun _ => rfl⟩
  have ha : 8 ≤ 8 * n := by omega
  obtain ⟨hc, hcover, hlow, hkcb, -, hdata⟩ := segmentTb_bounds bg ha
  obtain ⟨hfits, hmsg, hpunct, hmem, hleast⟩ := segmentTb_lifting bg ha
  have hd : (segmentTb (8 * n) bg).d = (segmentTb (8 * n) bg).kPrime - (segmentTb (8 * n) bg).lcb := rfl
  have hf : (segmentTb (8 * n) bg).f = (segmentTb (8 * n) bg).k - (segmentTb (8 * n) bg).kPrime := rfl
  have hfiller : (segmentTb (8 * n) bg).kPrime + (segmentTb (8 * n) bg).f = (segmentTb (8 * n) bg).k := by omega
  have hless : (segmentTb (8 * n) bg).f < (segmentTb (8 * n) bg).k := by omega
  have hdlow : 8 ≤ (segmentTb (8 * n) bg).d := by omega
  cases bg <;>
    exact ⟨rfl, rfl, rfl, rfl, rfl, rfl, rfl, rfl, rfl, rfl, rfl, rfl, hc, hcover, hlow, hkcb, hfits, hfiller, hless, hpunct,
      hdlow, hmem, hleast, mem_liftingSet hmem⟩

/-! ### The rate-matched lengths and the spans (41_segmentation.md R170, R171) -/

/-- R170, its first case: the codeblocks before number C - q mod C. -/
theorem rateMatchedLen_of_lt {g c nl qm r : Nat} (h : r < c - g / (nl * qm) % c) :
    rateMatchedLen g c nl qm r = nl * qm * (g / (nl * qm) / c) := if_pos (by omega)

/-- R170, its second case: the codeblocks from number C - q mod C. -/
theorem rateMatchedLen_of_le {g c nl qm r : Nat} (h : c - g / (nl * qm) % c ≤ r) :
    rateMatchedLen g c nl qm r = nl * qm * cdiv (g / (nl * qm)) c := if_neg (by omega)

theorem rateMatchedLen_mod (g c nl qm r : Nat) : rateMatchedLen g c nl qm r % (nl * qm) = 0 := by
  obtain h | h := Nat.lt_or_ge r (c - g / (nl * qm) % c)
  · rw [rateMatchedLen_of_lt h, Nat.mul_mod_right]
  · rw [rateMatchedLen_of_le h, Nat.mul_mod_right]

/-- O_r, where the span of codeblock r begins (R171). -/
def spanOffset (g c nl qm r : Nat) : Nat := ((List.range r).map (rateMatchedLen g c nl qm)).sum

@[simp] theorem spanOffset_zero (g c nl qm : Nat) : spanOffset g c nl qm 0 = 0 := rfl

theorem spanOffset_succ (g c nl qm r : Nat) :
    spanOffset g c nl qm (r + 1) = spanOffset g c nl qm r + rateMatchedLen g c nl qm r := by
  simp [spanOffset, List.range_succ]

/-- The offsets in closed form: r short spans, and one symbol group more for each codeblock before r with a long one. -/
theorem spanOffset_eq (g nl qm : Nat) {c : Nat} (hc : 0 < c) {r : Nat} (hr : r ≤ c) :
    spanOffset g c nl qm r = nl * qm * (r * (g / (nl * qm) / c) + (r - (c - g / (nl * qm) % c))) := by
  induction r with
  | zero => simp
  | succ r ih =>
    rw [spanOffset_succ, ih (Nat.le_of_succ_le hr), Nat.succ_mul]
    obtain h | h := Nat.lt_or_ge r (c - g / (nl * qm) % c)
    · rw [rateMatchedLen_of_lt h, ← Nat.mul_add]
      congr 1
      omega
    · rw [rateMatchedLen_of_le h, cdiv_of_mod_ne_zero (by omega) hc, ← Nat.mul_add]
      congr 1
      omega

/-- R171's sum(E) = G. -/
theorem spanOffset_count {g c nl qm : Nat} (hc : 0 < c) (hg : g % (nl * qm) = 0) : spanOffset g c nl qm c = g := by
  have hlt := Nat.mod_lt (g / (nl * qm)) hc
  rw [spanOffset_eq g nl qm hc le_rfl, Nat.sub_sub_self hlt.le, Nat.div_add_mod]
  exact Nat.mul_div_cancel' (Nat.dvd_of_mod_eq_zero hg)

/-- R171: the spans of the codeblocks before r, one after the other, are the LLRs before O_r. -/
theorem flatMap_spans_eq_take (acc : List Int) (g c nl qm r : Nat) :
    ((List.range r).flatMap fun r => (acc.drop (spanOffset g c nl qm r)).take (rateMatchedLen g c nl qm r)) =
      acc.take (spanOffset g c nl qm r) := by
  induction r with
  | zero => simp
  | succ r ih => rw [List.range_succ, List.flatMap_append, ih, List.flatMap_singleton, spanOffset_succ, List.take_add]

/-- R171: codeblock 0 gets no LLRs when there are fewer than C·NL·QM. -/
theorem rateMatchedLen_zero_of_few {g c nl qm : Nat} (h : g < c * (nl * qm)) : rateMatchedLen g c nl qm 0 = 0 := by
  have hq : g / (nl * qm) < c := Nat.div_lt_of_lt_mul (by rwa [Nat.mul_comm])
  rw [rateMatchedLen_of_lt (by rw [Nat.mod_eq_of_lt hq]; omega), Nat.div_eq_of_lt hq, Nat.mul_zero]

/-- Settles O38: the offsets in closed form reach G at codeblock C, and each span continues the LLRs before it. -/
theorem spansPartitionTheLlrs : Obligations.SpansPartitionTheLlrs := by
  intro acc c nl qm hc _ _ hg
  have hcount : spanOffset acc.length c nl qm c = acc.length := spanOffset_count hc hg
  have hcover := flatMap_spans_eq_take acc acc.length c nl qm c
  rw [hcount, List.take_length] at hcover
  exact ⟨fun _ => rateMatchedLen_of_lt, fun _ h _ => rateMatchedLen_of_le h, hcover, hcount, rfl, spanOffset_succ _ _ _ _,
    fun r _ => rateMatchedLen_mod _ _ _ _ r, fun h => ⟨0, hc, rateMatchedLen_zero_of_few h⟩⟩

end Sys2Proof.Machine
end

section
/-! SUPPORT. Rate dematching and soft combining: Ncb and k0 (42_rate_dematch.md R190, R191), the deinterleaver (R192), the walk and the
fillers (R193 to R195, R198), and END's use of them for every codeblock (R196, R197). -/

namespace Sys2Proof.Machine

/-! ### Ncb and k0 (42_rate_dematch.md R190, R191) -/

theorem one_le_circularLen {n : Nat} (nref : Nat) (hn : 1 ≤ n) : 1 ≤ circularLen n nref := by
  unfold circularLen
  split
  · exact hn
  · omega

/-- The k0 table's numerators for base graph 1 (R191). -/
theorem k0Num_bg1 : ∀ rv < 4, k0Num .bg1 rv = if rv = 0 then 0 else if rv = 1 then 17 else if rv = 2 then 33 else 56 := by
  decide

/-- The k0 table's numerators for base graph 2 (R191). -/
theorem k0Num_bg2 : ∀ rv < 4, k0Num .bg2 rv = if rv = 0 then 0 else if rv = 1 then 13 else if rv = 2 then 25 else 43 := by
  decide

theorem k0Num_lt_k0Den (bg : BaseGraph) : ∀ rv < 4, k0Num bg rv < k0Den bg := by
  cases bg <;> decide

theorem startPosition_mod (rv : Nat) (bg : BaseGraph) (ncb zc : Nat) : startPosition rv bg ncb zc % zc = 0 :=
  Nat.mul_mod_left _ _

theorem startPosition_zero (bg : BaseGraph) (ncb zc : Nat) : startPosition 0 bg ncb zc = 0 := by
  cases bg <;> simp [startPosition, k0Num]

/-- The table's fractions are below 1, so k0 falls inside the circular buffer. -/
theorem startPosition_lt {rv : Nat} (bg : BaseGraph) {ncb : Nat} (zc : Nat) (hrv : rv < 4) (hncb : 1 ≤ ncb) :
    startPosition rv bg ncb zc < ncb := by
  refine Nat.lt_of_mul_lt_mul_left (a := k0Den bg) ?_
  calc k0Den bg * startPosition rv bg ncb zc
      = k0Num bg rv * ncb / (k0Den bg * zc) * (k0Den bg * zc) := by rw [startPosition, Nat.mul_left_comm]
    _ ≤ k0Num bg rv * ncb := Nat.div_mul_le_self _ _
    _ < k0Den bg * ncb := Nat.mul_lt_mul_of_pos_right (k0Num_lt_k0Den bg rv hrv) hncb

/-- Settles O39: the table's rows, and k0 below Ncb because each numerator is below its denominator. -/
theorem startPositionInBuffer : Obligations.StartPositionInBuffer := by
  refine ⟨fun n nref hn => ⟨one_le_circularLen nref hn, fun h => if_pos h, fun h => if_neg h⟩,
    fun rv bg ncb zc hrv hncb _ => ⟨?_, ?_, startPosition_mod rv bg ncb zc, startPosition_lt bg zc hrv hncb,
      startPosition_zero bg ncb zc⟩, fun s => ⟨rfl, rfl⟩⟩
  · rintro rfl
    rw [← k0Num_bg1 rv hrv]
    rfl
  · rintro rfl
    rw [← k0Num_bg2 rv hrv]
    rfl

/-! ### The deinterleaver (42_rate_dematch.md R192) -/

/-- A table read row by row, as one list: entry n stands in row n / R, column n mod R. -/
theorem flatMap_range_rows (g : Nat → Nat → Int) (rows R : Nat) :
    ((List.range rows).flatMap fun i => (List.range R).map (g i)) =
      (List.range (rows * R)).map fun n => g (n / R) (n % R) := by
  induction rows with
  | zero => simp
  | succ rows ih =>
    rw [List.range_succ, List.flatMap_append, ih, List.flatMap_singleton, Nat.succ_mul, List.range_add, List.map_append,
      List.map_map]
    refine congrArg _ (List.map_congr_left fun j hj => ?_)
    have hj : j < R := List.mem_range.1 hj
    simp [Nat.mul_comm rows R, Nat.mul_add_div (Nat.zero_lt_of_lt hj), Nat.div_eq_of_lt hj, Nat.mod_eq_of_lt hj]

/-- R192 in closed form: e[n] = f[n / R + (n mod R)·QM]. -/
theorem deinterleave_eq_map (f : List Int) (qm : Nat) :
    deinterleave f qm =
      (List.range (qm * (f.length / qm))).map fun n => f.getD (n / (f.length / qm) + n % (f.length / qm) * qm) 0 :=
  flatMap_range_rows (fun i j => f.getD (i + j * qm) 0) qm (f.length / qm)

theorem length_deinterleave {f : List Int} {qm : Nat} (h : f.length % qm = 0) : (deinterleave f qm).length = f.length := by
  rw [deinterleave_eq_map, List.length_map, List.length_range, Nat.mul_div_cancel' (Nat.dvd_of_mod_eq_zero h)]

theorem deinterleave_getD (f : List Int) {qm i j : Nat} (hi : i < qm) (hj : j < f.length / qm) :
    (deinterleave f qm).getD (i * (f.length / qm) + j) 0 = f.getD (i + j * qm) 0 := by
  have hn : i * (f.length / qm) + j < qm * (f.length / qm) := by
    calc i * (f.length / qm) + j
        < (i + 1) * (f.length / qm) := by rw [Nat.succ_mul]; omega
      _ ≤ qm * (f.length / qm) := Nat.mul_le_mul_right _ hi
  have hrow : (i * (f.length / qm) + j) / (f.length / qm) = i := by
    rw [Nat.mul_comm, Nat.mul_add_div (Nat.zero_lt_of_lt hj), Nat.div_eq_of_lt hj, Nat.add_zero]
  have hcol : (i * (f.length / qm) + j) % (f.length / qm) = j := by
    rw [Nat.mul_comm, Nat.mul_add_mod, Nat.mod_eq_of_lt hj]
  rw [deinterleave_eq_map, List.getD_eq_getElem _ _ (by simpa using hn), List.getElem_map, List.getElem_range, hrow, hcol]

/-- With QM = 1 the interleaver has one row. -/
theorem deinterleave_one (f : List Int) : deinterleave f 1 = f := by
  refine List.ext_getElem (length_deinterleave (Nat.mod_one _)) fun n _ hn => ?_
  have h := deinterleave_getD f (qm := 1) (i := 0) (j := n) Nat.one_pos (by simpa using hn)
  simpa [hn, length_deinterleave (f := f) (Nat.mod_one _)] using h

/-- Settles O40, by the closed form of the deinterleaver. -/
theorem deinterleaveInvertsInterleaver : Obligations.DeinterleaveInvertsInterleaver := by
  intro f qm _ hlen
  refine ⟨length_deinterleave hlen, fun i j => deinterleave_getD f, ?_⟩
  rintro rfl
  exact deinterleave_one f

/-! ### The walk (42_rate_dematch.md R194) -/

/-- The positions that the walk may fill, in order: of the `n` it looks at from index j, those that hold no filler. -/
def walkPlaces (seg : Seg) (ncb k0 j n : Nat) : List Nat :=
  ((List.range' j n).map fun j => (k0 + j) % ncb).filter fun p => !isFiller seg p

/-- The saturated sum, left to right, of `v` and the LLRs whose place is `p`. -/
def combineAt (p : Nat) (v : Int) (llrs : List (Nat × Int)) : Int :=
  llrs.foldl (fun v qx => if qx.1 = p then sat (v + qx.2) else v) v

/-- A position on which no LLR falls keeps its value. -/
theorem combineAt_of_not_mem {p : Nat} {llrs : List (Nat × Int)} (v : Int) (h : ∀ qx ∈ llrs, qx.1 ≠ p) :
    combineAt p v llrs = v := by
  induction llrs with
  | nil => rfl
  | cons qx llrs ih =>
    rw [List.forall_mem_cons] at h
    rw [combineAt, List.foldl_cons, if_neg h.1]
    exact ih h.2

section Walk

variable {seg : Seg} {ncb k0 : Nat}

theorem lt_of_mem_walkPlaces {j n p : Nat} (hncb : 1 ≤ ncb) (h : p ∈ walkPlaces seg ncb k0 j n) : p < ncb := by
  obtain ⟨i, -, rfl⟩ := List.mem_map.1 (List.mem_of_mem_filter h)
  exact Nat.mod_lt _ hncb

theorem walkPlaces_succ_filler {j : Nat} (n : Nat) (h : isFiller seg ((k0 + j) % ncb) = true) :
    walkPlaces seg ncb k0 j (n + 1) = walkPlaces seg ncb k0 (j + 1) n := by
  simp [walkPlaces, List.range'_succ, h]

theorem walkPlaces_succ_free {j : Nat} (n : Nat) (h : ¬ isFiller seg ((k0 + j) % ncb) = true) :
    walkPlaces seg ncb k0 j (n + 1) = (k0 + j) % ncb :: walkPlaces seg ncb k0 (j + 1) n := by
  simp [walkPlaces, List.range'_succ, h]

theorem walkPlaces_add (j m n : Nat) :
    walkPlaces seg ncb k0 j (m + n) = walkPlaces seg ncb k0 j m ++ walkPlaces seg ncb k0 (j + m) n := by
  simp [walkPlaces, ← List.range'_append_1]

/-- What the walk leaves at a position, whatever its fuel: its LLRs go to the places it looks at, in order. -/
theorem softAt_dematchWalk (fuel j : Nat) (e : List Int) (buf : Sparse Int) (p : Nat) :
    softAt (dematchWalk seg ncb k0 fuel j e buf) p =
      combineAt p (softAt buf p) ((walkPlaces seg ncb k0 j fuel).zip e) := by
  induction fuel, j, e, buf using dematchWalk.induct seg ncb k0 with
  | case1 fuel j buf => simp [dematchWalk, combineAt]
  | case2 j x xs buf => simp [dematchWalk, combineAt, walkPlaces]
  | case3 fuel j x xs buf hfill ih => rw [dematchWalk, if_pos hfill, ih, walkPlaces_succ_filler fuel hfill]
  | case4 fuel j x xs buf hfree ih =>
    rw [dematchWalk, if_neg hfree, ih, softAt_softSet, walkPlaces_succ_free fuel hfree]
    simp only [combineAt, List.zip_cons_cons, List.foldl_cons]
    by_cases hp : (k0 + j) % ncb = p
    · simp [hp]
    · simp [hp, Ne.symm hp]

/-- One turn of the circular buffer passes every position. -/
theorem exists_lt_turn (hncb : 1 ≤ ncb) (j : Nat) : ∃ i, j ≤ i ∧ i < j + ncb ∧ (k0 + i) % ncb = 0 := by
  have hlt := Nat.mod_lt (k0 + j) hncb
  have hsplit := Nat.div_add_mod (k0 + j) ncb
  by_cases hzero : (k0 + j) % ncb = 0
  · exact ⟨j, le_rfl, by omega, hzero⟩
  · refine ⟨j + (ncb - (k0 + j) % ncb), by omega, by omega, ?_⟩
    rw [show k0 + (j + (ncb - (k0 + j) % ncb)) = ncb * ((k0 + j) / ncb) + ncb by omega, Nat.add_mod_right, Nat.mul_mod_right]

/-- Position 0 holds no filler, so each turn of the circular buffer has a place. -/
theorem walkPlaces_turn_pos (hncb : 1 ≤ ncb) (h0 : isFiller seg 0 = false) (j : Nat) :
    1 ≤ (walkPlaces seg ncb k0 j ncb).length := by
  obtain ⟨i, hji, hin, hi⟩ := exists_lt_turn (k0 := k0) hncb j
  refine List.length_pos_of_mem (a := 0) (List.mem_filter.2 ⟨List.mem_map.2 ⟨i, ?_, hi⟩, by simp [h0]⟩)
  exact List.mem_range'_1.2 ⟨hji, hin⟩

/-- As many turns as LLRs have enough places (70_reset_and_hazards.md R398). -/
theorem le_length_walkPlaces (hncb : 1 ≤ ncb) (h0 : isFiller seg 0 = false) (j turns : Nat) :
    turns ≤ (walkPlaces seg ncb k0 j (ncb * turns)).length := by
  induction turns with
  | zero => exact Nat.zero_le _
  | succ turns ih =>
    have hturn := walkPlaces_turn_pos (k0 := k0) hncb h0 (j + ncb * turns)
    rw [Nat.mul_succ, walkPlaces_add, List.length_append]
    omega

end Walk

/-! ### The fillers, and RateDematch as a whole (42_rate_dematch.md R193 to R195, R198) -/

/-- The filler positions of R167. -/
theorem isFiller_iff (seg : Seg) (p : Nat) :
    isFiller seg p = true ↔ seg.kPrime ≤ p + 2 * seg.zc ∧ p + 2 * seg.zc < seg.k := decide_eq_true_iff

section Fillers

variable {seg : Seg} (hzc : 2 * seg.zc ≤ seg.kPrime) (hf : seg.kPrime + seg.f = seg.k)

include hzc hf

/-- R195 writes exactly the positions of R167. -/
theorem softAt_writeFillers (buf : Sparse Int) (p : Nat) :
    softAt (writeFillers seg buf) p = if isFiller seg p then 127 else softAt buf p := by
  have hpos : (seg.kPrime - 2 * seg.zc ≤ p ∧ p < seg.kPrime - 2 * seg.zc + seg.f) ↔ isFiller seg p = true := by
    rw [isFiller_iff]
    omega
  simp only [writeFillers, foldl_softSet, hpos]
  rfl

theorem softAt_rateDematch_filler (newData : Bool) (qm ncb k0 : Nat) (f : List Int) (buf : Sparse Int) {p : Nat}
    (hp : isFiller seg p = true) : softAt (rateDematch newData qm seg ncb k0 f buf) p = 127 := by
  rw [rateDematch, softAt_writeFillers hzc hf, if_pos hp]

/-- A position that is no filler holds what the walk left, from zeros on new data and else from the buffer. -/
theorem softAt_rateDematch_free (newData : Bool) (qm ncb k0 : Nat) (f : List Int) (buf : Sparse Int) {p : Nat}
    (hp : isFiller seg p = false) :
    softAt (rateDematch newData qm seg ncb k0 f buf) p =
      combineAt p (if newData then 0 else softAt buf p)
        ((walkPlaces seg ncb k0 0 (walkBound ncb (deinterleave f qm).length)).zip (deinterleave f qm)) := by
  rw [rateDematch, softAt_writeFillers hzc hf, if_neg (by simp [hp]), softAt_dematchWalk]
  cases newData <;> rfl

end Fillers

/-- Settles O41: the walk's places are the positions from k0 that hold no filler, and each of its turns finds one. -/
theorem dematchIsSaturatedSum : Obligations.DematchIsSaturatedSum := by
  intro seg ncb k0 hncb h0 places combine
  have hplaces : ∀ len, places len = walkPlaces seg ncb k0 0 (walkBound ncb len) := fun len => by
    simp only [places, walkPlaces, List.range_eq_range']
  have hcombine : ∀ e p v,
      combine e p v = combineAt p v ((walkPlaces seg ncb k0 0 (walkBound ncb e.length)).zip e) := fun e p v => by
    rw [← hplaces]
    rfl
  refine ⟨isFiller_iff seg, fun e buf => ⟨?_, fun p => ?_⟩, fun hzc hf newData qm f buf p hp => ?_⟩
  · rw [hplaces]
    exact (Nat.le_succ _).trans (le_length_walkPlaces hncb h0 0 (e.length + 1))
  · rw [hcombine, softAt_dematchWalk]
  · rw [hcombine, softAt_rateDematch_free hzc hf newData qm ncb k0 f buf hp]

/-- Settles O42: the fillers are written last, and the walk's places lie below Ncb. -/
theorem fillersAndUnreachedPositions : Obligations.FillersAndUnreachedPositions := by
  intro newData qm seg ncb k0 f buf hncb hzc hf
  refine ⟨fun p => softAt_rateDematch_filler hzc hf newData qm ncb k0 f buf, fun p hp hpast => ?_⟩
  rw [softAt_rateDematch_free hzc hf newData qm ncb k0 f buf hp]
  refine combineAt_of_not_mem _ fun qx hqx => ?_
  have hlt : qx.1 < ncb := lt_of_mem_walkPlaces hncb (List.of_mem_zip hqx).1
  omega

/-! ### Combining in END (42_rate_dematch.md R196, R197) -/

/-- Clearing the flags for new data leaves what is allocated. -/
theorem endStartHarq_alloc (s : State) (p : EndPlan) (r : Nat) :
    ((endStartHarq s p).cb r).alloc = ((s.harq s.sess.harqId.toNat).cb r).alloc := by
  unfold endStartHarq
  split
  · rw [clearFlags_cb]
    split <;> rfl
  · rfl

/-- Settles O26: END's loop dematches each codeblock before it looks at the flag, and the TB decision changes flags only. -/
theorem combiningIsUnconditional : Obligations.CombiningIsUnconditional := by
  intro s t hfault hchecks hexec r hr
  obtain rfl := Host.Outcome.next.inj ((execEnd_next hfault hchecks).symm.trans hexec)
  obtain ⟨-, -, hcb⟩ := endEffect_harq s (endPlan s)
  rw [endPlan_seg] at hcb
  obtain ⟨halloc, hsoft⟩ := endBuffers_soft s.params s.sess (endPlan s) s.acc ((endPlan s).start r) r
    ((endStartHarq s (endPlan s)).cb r)
  rw [endStartHarq_alloc, endStartHarq_soft] at hsoft
  rw [State.endStep_harq, hcb r, if_pos hr]
  exact ⟨halloc, hsoft⟩

end Sys2Proof.Machine
end

section
/-! SUPPORT. The codeblock decoder: the control every kernel shares (43_ldpc_decoder.md R230), the variables of a check (R223), the
check-node function (R227), one check's update and a row's (R228), iterations and decisions (R229), and the non-negative input (R235). -/

namespace Sys2Proof.Machine

/-! ### The control (43_ldpc_decoder.md R230) -/

section Control

variable (p : Crc) (maxIter : Nat)

/-- The scan from iteration `t` on stops at the first decision that passes. -/
theorem earlyStopScan_first_pass {ds : List (List Bool)} {n : Nat} (t : Nat) (last : List Bool) (hn : n < ds.length)
    (hpass : crcOk p (ds.getD n []) = true) (hfail : ∀ u, u < n → crcOk p (ds.getD u []) = false) :
    earlyStopScan p maxIter t last ds = { bits := ds.getD n [], iter := t + n, pass := true } := by
  induction ds generalizing n t last with
  | nil => exact absurd hn (Nat.not_lt_zero n)
  | cons d ds ih =>
    cases n with
    | zero => exact if_pos hpass
    | succ n =>
      have hd : crcOk p d = false := hfail 0 (Nat.zero_lt_succ n)
      rw [earlyStopScan, if_neg (by simp [hd]),
        ih (t + 1) d (Nat.lt_of_succ_lt_succ hn) hpass fun u hu => hfail (u + 1) (Nat.succ_lt_succ hu),
        Nat.add_right_comm, Nat.add_assoc]
      rfl

theorem earlyStopScan_no_pass {ds : List (List Bool)} (t : Nat) (last : List Bool) (hfail : ∀ d ∈ ds, crcOk p d = false) :
    earlyStopScan p maxIter t last ds = { bits := ds.getLastD last, iter := maxIter, pass := false } := by
  induction ds generalizing t last with
  | nil => rfl
  | cons d ds ih =>
    obtain ⟨hd, hds⟩ := List.forall_mem_cons.1 hfail
    rw [earlyStopScan, if_neg (by simp [hd]), ih (t + 1) d hds, List.getLastD_cons]

end Control

theorem getLastD_eq_getD {α : Type} (l : List α) (d : α) : l.getLastD d = l.getD (l.length - 1) d := by
  rw [List.getLastD_eq_getLast?, List.getLast?_eq_getElem?, List.getD_eq_getElem?_getD]

/-- Settles O43: the scan stops at the first pass, and otherwise both ways of R230 return the last decision. -/
theorem decodeControl : Obligations.DecodeControl := by
  intro p maxIter ds hlen hiter
  subst hlen
  rw [← getLastD_eq_getD]
  refine ⟨fun n hn hle hpass hfail => ?_, fun hfail => ?_, rfl⟩
  · have hscan := earlyStopScan_first_pass p ds.length 1 [] (by omega : n - 1 < ds.length) hpass fun u hu =>
      hfail (u + 1) (by omega) (by omega)
    rwa [Nat.add_sub_cancel' hn] at hscan
  · refine earlyStopScan_no_pass p ds.length 1 [] fun d hd => ?_
    obtain ⟨i, hi, rfl⟩ := List.getElem_of_mem hd
    have := hfail (i + 1) (by omega) hi
    rwa [Nat.add_sub_cancel, List.getD_eq_getElem _ _ hi] at this

/-! ### The variables of a check (43_ldpc_decoder.md R223) -/

section Code

variable {src : ShiftSource} {bg : BaseGraph} {zc iLS i : Nat}

theorem mem_rowBlocks {b : Block} :
    b ∈ rowBlocks src bg zc iLS i ↔
      b.col < ncol bg ∧ ∃ vs, shiftsAt src bg i b.col = some vs ∧ b.shift = vs.getD iLS 0 % zc := by
  obtain ⟨col, shift⟩ := b
  simp only [rowBlocks, List.mem_filterMap, List.mem_range, Option.map_eq_some_iff, Block.mk.injEq]
  constructor
  · rintro ⟨j, hj, vs, hvs, rfl, rfl⟩
    exact ⟨hj, vs, hvs, rfl⟩
  · rintro ⟨hj, vs, hvs, rfl⟩
    exact ⟨col, hj, vs, hvs, rfl, rfl⟩

theorem rowBlocks_cols_rise : (rowBlocks src bg zc iLS i).Pairwise fun b b' => b.col < b'.col := by
  refine List.Pairwise.filterMap _ (fun j j' hj b hb b' hb' => ?_) List.pairwise_lt_range
  obtain ⟨vs, -, rfl⟩ := Option.map_eq_some_iff.1 hb
  obtain ⟨vs', -, rfl⟩ := Option.map_eq_some_iff.1 hb'
  exact hj

theorem mem_checkVars {z n : Nat} :
    n ∈ checkVars (rowBlocks src bg zc iLS i) zc z ↔
      ∃ j vs, j < ncol bg ∧ shiftsAt src bg i j = some vs ∧ n = j * zc + (z + vs.getD iLS 0 % zc) % zc := by
  simp only [checkVars, List.mem_map, mem_rowBlocks]
  constructor
  · rintro ⟨b, ⟨hb, vs, hvs, hshift⟩, rfl⟩
    exact ⟨b.col, vs, hb, hvs, by rw [hshift]⟩
  · rintro ⟨j, vs, hj, hvs, rfl⟩
    exact ⟨⟨j, vs.getD iLS 0 % zc⟩, ⟨hj, vs, hvs, rfl⟩, rfl⟩

/-- A variable of a check lies in the column of its block, so its block and the check's number can be read off it. -/
theorem checkVar_div_mod {j x : Nat} (hzc : 0 < zc) : (j * zc + x % zc) / zc = j ∧ (j * zc + x % zc) % zc = x % zc := by
  have hx := Nat.mod_lt x hzc
  rw [Nat.mul_comm, Nat.mul_add_div hzc, Nat.mul_add_mod, Nat.div_eq_of_lt hx, Nat.mod_mod]
  exact ⟨rfl, rfl⟩

theorem checkVars_rise (hzc : 0 < zc) (z : Nat) :
    (checkVars (rowBlocks src bg zc iLS i) zc z).Pairwise fun m n => m < n := by
  refine List.Pairwise.map _ (fun b b' hcol => ?_) rowBlocks_cols_rise
  calc b.col * zc + (z + b.shift) % zc
      < b.col * zc + zc := Nat.add_lt_add_left (Nat.mod_lt _ hzc) _
    _ = (b.col + 1) * zc := (Nat.succ_mul _ _).symm
    _ ≤ b'.col * zc := Nat.mul_le_mul_right _ hcol
    _ ≤ b'.col * zc + (z + b'.shift) % zc := Nat.le_add_right _ _

/-- Each block is a permutation: a variable is one check's of the row only (43_ldpc_decoder.md R228). -/
theorem checkVars_inj {z z' n : Nat} (hz : z < zc) (hz' : z' < zc) (h : n ∈ checkVars (rowBlocks src bg zc iLS i) zc z)
    (h' : n ∈ checkVars (rowBlocks src bg zc iLS i) zc z') : z = z' := by
  have hzc : 0 < zc := Nat.zero_lt_of_lt hz
  obtain ⟨j, vs, -, hvs, rfl⟩ := mem_checkVars.1 h
  obtain ⟨j', vs', -, hvs', heq⟩ := mem_checkVars.1 h'
  obtain ⟨hdiv, hmod⟩ := checkVar_div_mod (j := j) (x := z + vs.getD iLS 0 % zc) hzc
  obtain ⟨hdiv', hmod'⟩ := checkVar_div_mod (j := j') (x := z' + vs'.getD iLS 0 % zc) hzc
  obtain rfl : j = j' := by rw [← hdiv, heq, hdiv']
  obtain rfl : vs = vs' := Option.some.inj (hvs.symm.trans hvs')
  have hsum : z + vs.getD iLS 0 % zc ≡ z' + vs.getD iLS 0 % zc [MOD zc] := by rw [Nat.ModEq, ← hmod, heq, hmod']
  exact (Nat.ModEq.add_right_cancel' _ hsum).eq_of_lt_of_lt hz hz'

end Code

/-! ### The check-node function (43_ldpc_decoder.md R227) -/

theorem leastMagnitude_eq_leastOr (l : List Int) : leastMagnitude l = leastOr 0 (l.map Int.natAbs) := by
  cases l with
  | nil => rfl
  | cons q qs => exact List.foldl_map.symm

theorem leastMagnitude_eq_of_least {l : List Int} {m : Nat} (hm : m ∈ l.map Int.natAbs) (hle : ∀ x ∈ l, m ≤ x.natAbs) :
    leastMagnitude l = m := by
  obtain ⟨hmem, hleast⟩ := leastOr_mem_and_le 0 (List.ne_nil_of_mem hm)
  rw [leastMagnitude_eq_leastOr]
  obtain ⟨x, hx, heq⟩ := List.mem_map.1 hmem
  exact le_antisymm (hleast m hm) (heq ▸ hle x hx)

theorem checkValue_eq (others : List Int) :
    checkValue others = (if (others.filter fun x => decide (x < 0)).length % 2 = 1 then -1 else 1) *
      ((3 * leastMagnitude others / 4 : Nat) : Int) := by
  by_cases hodd : (others.filter fun x => decide (x < 0)).length % 2 = 1 <;> simp [checkValue, oddNegatives, hodd]

@[simp] theorem length_checkNode (q : List Int) : (checkNode q).length = q.length := by simp [checkNode]

theorem checkNode_getD {q : List Int} {e : Nat} (he : e < q.length) :
    (checkNode q).getD e 0 = checkValue (q.eraseIdx e) := by simp [checkNode, he]

theorem map_range_getD {α : Type} (l : List α) (d : α) : ((List.range l.length).map fun t => l.getD t d) = l := by
  refine List.ext_getElem (by simp) fun t _ ht => ?_
  simp [ht]

/-- The other edges of a check, by number. -/
theorem eraseIdx_eq_map_filter (q : List Int) {e : Nat} (he : e < q.length) :
    q.eraseIdx e = ((List.range q.length).filter fun t => decide (t ≠ e)).map fun t => q.getD t 0 := by
  have hrange : (List.range q.length).eraseIdx e = (List.range q.length).filter fun t => decide (t ≠ e) := by
    have hidx := (List.nodup_range (n := q.length)).idxOf_getElem e (by simpa using he)
    rw [List.getElem_range] at hidx
    conv_lhs => rw [← hidx]
    rw [List.eraseIdx_idxOf_eq_erase, List.nodup_range.erase_eq_filter]
    exact List.filter_congr fun t _ => by simp [bne, beq_eq_decide]
  conv_lhs => rw [← map_range_getD q 0]
  rw [List.eraseIdx_map, hrange]

/-- R227 for edge e, from the least magnitude of the other edges. -/
theorem checkNode_edge {q others : List Int} {e m : Nat} (he : e < q.length) (hothers : others = q.eraseIdx e)
    (hm : m ∈ others.map Int.natAbs) (hle : ∀ x ∈ others, m ≤ x.natAbs) :
    (checkNode q).getD e 0 =
      (if (others.filter fun x => decide (x < 0)).length % 2 = 1 then -1 else 1) * ((3 * m / 4 : Nat) : Int) := by
  rw [checkNode_getD he, ← hothers, checkValue_eq, leastMagnitude_eq_of_least hm hle]

/-! ### One check's update (43_ldpc_decoder.md R228) -/

theorem zipWith_eq_map_range {α β γ : Type} (f : α → β → γ) {l : List α} {l' : List β} (d : α) (d' : β)
    (h : l'.length = l.length) :
    List.zipWith f l l' = (List.range l.length).map fun t => f (l.getD t d) (l'.getD t d') := by
  refine List.ext_getElem (by simp [h]) fun t ht _ => ?_
  obtain ⟨hl, hl'⟩ : t < l.length ∧ t < l'.length := by simpa using ht
  simp [hl, hl']

theorem getD_set {α : Type} (l : List α) (n k : Nat) (v d : α) :
    (l.set n v).getD k d = if n = k ∧ n < l.length then v else l.getD k d := by
  simp only [List.getD_eq_getElem?_getD, List.getElem?_set]
  by_cases hnk : n = k
  · subst hnk
    by_cases hn : n < l.length <;> simp [hn]
  · simp [hnk]

@[simp] theorem setPosteriors_nil (post vs : List Int) : setPosteriors post [] vs = post := by simp [setPosteriors]

@[simp] theorem length_setPosteriors (post : List Int) (vars : List Nat) (vs : List Int) :
    (setPosteriors post vars vs).length = post.length := by
  induction vars generalizing post vs with
  | nil => rw [setPosteriors_nil]
  | cons n ns ih =>
    cases vs with
    | nil => rfl
    | cons v vs => rw [setPosteriors, ih, List.length_set]

theorem setPosteriors_other {vars : List Nat} {n : Nat} (post vs : List Int) (h : n ∉ vars) :
    (setPosteriors post vars vs).getD n 0 = post.getD n 0 := by
  induction vars generalizing post vs with
  | nil => rw [setPosteriors_nil]
  | cons m ms ih =>
    obtain ⟨hne, hms⟩ := List.ne_and_not_mem_of_not_mem_cons h
    cases vs with
    | nil => rfl
    | cons v vs => rw [setPosteriors, ih _ _ hms, getD_set, if_neg fun hm => hne hm.1.symm]

theorem setPosteriors_at {post : List Int} {vars : List Nat} {vs : List Int} (hnodup : vars.Nodup)
    (hrange : ∀ n ∈ vars, n < post.length) (hlen : vs.length = vars.length) {t : Nat} (ht : t < vars.length) :
    (setPosteriors post vars vs).getD (vars.getD t 0) 0 = vs.getD t 0 := by
  induction vars generalizing post vs t with
  | nil => exact absurd ht (Nat.not_lt_zero t)
  | cons m ms ih =>
    obtain ⟨hm, hms⟩ := List.nodup_cons.1 hnodup
    obtain ⟨v, vs, rfl⟩ := List.exists_cons_of_length_eq_add_one hlen
    obtain ⟨hm0, hrange⟩ := List.forall_mem_cons.1 hrange
    cases t with
    | zero =>
      rw [setPosteriors, List.getD_cons_zero, setPosteriors_other _ _ hm, getD_set, if_pos ⟨rfl, hm0⟩, List.getD_cons_zero]
    | succ t =>
      rw [setPosteriors, List.getD_cons_succ, List.getD_cons_succ]
      exact ih hms (by simpa using hrange) (Nat.succ.inj hlen) (Nat.lt_of_succ_lt_succ ht)

/-- A posterior after a check's update depends on its own value and on what is written. -/
theorem setPosteriors_congr {post post' : List Int} (hlen : post'.length = post.length) {n : Nat}
    (hn : post'.getD n 0 = post.getD n 0) (vars : List Nat) (vs : List Int) :
    (setPosteriors post' vars vs).getD n 0 = (setPosteriors post vars vs).getD n 0 := by
  induction vars generalizing post post' vs with
  | nil => simpa using hn
  | cons m ms ih =>
    cases vs with
    | nil => exact hn
    | cons v vs => exact ih (by simpa using hlen) (by rw [getD_set, getD_set, hlen, hn]) vs

theorem checkInputs_eq (post : List Int) {vars : List Nat} {msgs : List Int} (h : msgs.length = vars.length) :
    checkInputs post vars msgs =
      (List.range vars.length).map fun t => satD (post.getD (vars.getD t 0) 0 - msgs.getD t 0) :=
  zipWith_eq_map_range _ 0 0 h

theorem checkInputs_congr {post post' : List Int} {vars : List Nat} (h : ∀ n ∈ vars, post'.getD n 0 = post.getD n 0)
    (msgs : List Int) : checkInputs post' vars msgs = checkInputs post vars msgs := by
  induction vars generalizing msgs with
  | nil => rfl
  | cons n ns ih =>
    obtain ⟨hn, hns⟩ := List.forall_mem_cons.1 h
    cases msgs with
    | nil => rfl
    | cons r rs => exact congrArg₂ List.cons (congrArg (fun x => satD (x - r)) hn) (ih hns rs)

@[simp] theorem length_checkUpdate (post : List Int) (vars : List Nat) (msgs : List Int) :
    (checkUpdate post vars msgs).1.length = post.length := length_setPosteriors _ _ _

theorem checkUpdate_msgs (post : List Int) (vars : List Nat) (msgs : List Int) :
    (checkUpdate post vars msgs).2 = checkNode (checkInputs post vars msgs) := rfl

theorem checkUpdate_other {vars : List Nat} {n : Nat} (post msgs : List Int) (h : n ∉ vars) :
    (checkUpdate post vars msgs).1.getD n 0 = post.getD n 0 := setPosteriors_other _ _ h

theorem checkUpdate_at {post : List Int} {vars : List Nat} {msgs : List Int} (hnodup : vars.Nodup)
    (hrange : ∀ n ∈ vars, n < post.length) (hlen : msgs.length = vars.length) {t : Nat} (ht : t < vars.length) :
    (checkUpdate post vars msgs).1.getD (vars.getD t 0) 0 =
      satD ((checkInputs post vars msgs).getD t 0 + (checkNode (checkInputs post vars msgs)).getD t 0) := by
  have hq : (checkInputs post vars msgs).length = vars.length := by simp [checkInputs, hlen]
  refine (setPosteriors_at hnodup hrange (by simp [hq]) ht).trans ?_
  rw [zipWith_eq_map_range _ 0 0 (length_checkNode _), hq]
  simp [ht]

/-- A check's update reads the posteriors of its own variables only. -/
theorem checkUpdate_congr {post post' : List Int} {vars : List Nat} (hlen : post'.length = post.length)
    (h : ∀ n ∈ vars, post'.getD n 0 = post.getD n 0) (msgs : List Int) :
    (checkUpdate post' vars msgs).2 = (checkUpdate post vars msgs).2 ∧
    ∀ n ∈ vars, (checkUpdate post' vars msgs).1.getD n 0 = (checkUpdate post vars msgs).1.getD n 0 := by
  refine ⟨by rw [checkUpdate_msgs, checkUpdate_msgs, checkInputs_congr h], ?_⟩
  simp only [checkUpdate, checkInputs_congr h]
  exact fun n hn => setPosteriors_congr hlen (h n hn) _ _

/-- Settles O45, by R223's blocks, R227's edges and R228's writes. -/
theorem checksOfARowAreDisjoint : Obligations.ChecksOfARowAreDisjoint := by
  refine ⟨fun src bg zc iLS i z z' hz hz' hne n h h' => hne (checkVars_inj hz hz' h h'),
    fun src bg zc iLS i z hz => ⟨checkVars_rise (Nat.zero_lt_of_lt hz) z, fun n => mem_checkVars⟩,
    fun q => ⟨length_checkNode q, fun hone => ?_, fun e he => ?_⟩,
    fun post vars msgs hnodup hrange hlen => ?_⟩
  · obtain ⟨x, rfl⟩ := List.length_eq_one_iff.1 hone
    simp [checkNode, checkValue, leastMagnitude]
  · intro others m hm hle
    exact checkNode_edge he (eraseIdx_eq_map_filter q he).symm hm hle
  · intro q u
    have hq : checkInputs post vars msgs = q := checkInputs_eq post hlen
    rw [← hq]
    exact ⟨checkUpdate_msgs _ _ _, length_checkUpdate _ _ _, fun t => checkUpdate_at hnodup hrange hlen,
      fun n => checkUpdate_other post msgs⟩

/-! ### A row's update (43_ldpc_decoder.md R228) -/

section Row

variable (blocks : List Block) (zc : Nat)

@[simp] theorem length_rowUpdate (z : Nat) (post : List Int) (msgs : List (List Int)) :
    (rowUpdate blocks zc z post msgs).1.length = post.length := by
  induction msgs generalizing z post with
  | nil => rfl
  | cons ms msgs ih => exact (ih (z + 1) _).trans (length_checkUpdate _ _ _)

@[simp] theorem length_rowUpdate_msgs (z : Nat) (post : List Int) (msgs : List (List Int)) :
    (rowUpdate blocks zc z post msgs).2.length = msgs.length := by
  induction msgs generalizing z post with
  | nil => rfl
  | cons ms msgs ih => exact congrArg (· + 1) (ih (z + 1) _)

/-- The checks from z on leave every posterior that is none of their variables'. -/
theorem rowUpdate_other {n : Nat} (z : Nat) (post : List Int) (msgs : List (List Int))
    (h : ∀ k, k < msgs.length → n ∉ checkVars blocks zc (z + k)) :
    (rowUpdate blocks zc z post msgs).1.getD n 0 = post.getD n 0 := by
  induction msgs generalizing z post with
  | nil => rfl
  | cons ms msgs ih =>
    have hrest : ∀ k, k < msgs.length → n ∉ checkVars blocks zc (z + 1 + k) := fun k hk => by
      rw [Nat.add_assoc, Nat.add_comm 1]
      exact h (k + 1) (Nat.succ_lt_succ hk)
    exact (ih (z + 1) _ hrest).trans (checkUpdate_other post ms (h 0 (Nat.succ_pos _)))

/-- Updating the checks one after another is updating them at once, for no check reads what another one writes. -/
theorem rowUpdate_check {blocks zc}
    (hdisjoint : ∀ z z' n, z < zc → z' < zc → n ∈ checkVars blocks zc z → n ∈ checkVars blocks zc z' → z = z')
    (z : Nat) (post : List Int) (msgs : List (List Int)) (hzc : z + msgs.length ≤ zc) {k : Nat} (hk : k < msgs.length) :
    let one := checkUpdate post (checkVars blocks zc (z + k)) (msgs.getD k [])
    (rowUpdate blocks zc z post msgs).2.getD k [] = one.2 ∧
    ∀ n ∈ checkVars blocks zc (z + k), (rowUpdate blocks zc z post msgs).1.getD n 0 = one.1.getD n 0 := by
  induction msgs generalizing z post k with
  | nil => exact absurd hk (Nat.not_lt_zero k)
  | cons ms msgs ih =>
    rw [List.length_cons] at hzc hk
    cases k with
    | zero =>
      refine ⟨rfl, fun n hn => rowUpdate_other blocks zc (z + 1) _ msgs fun k hk hn' => ?_⟩
      have := hdisjoint _ _ n (by omega) (by omega) hn hn'
      omega
    | succ k =>
      have hcheck : z + (k + 1) = z + 1 + k := by omega
      rw [hcheck, List.getD_cons_succ]
      obtain ⟨hmsgs, hpost⟩ := ih (z + 1) (checkUpdate post (checkVars blocks zc z) ms).1 (by omega)
        (Nat.lt_of_succ_lt_succ hk)
      have hown : ∀ n ∈ checkVars blocks zc (z + 1 + k),
          (checkUpdate post (checkVars blocks zc z) ms).1.getD n 0 = post.getD n 0 := fun n hn =>
        checkUpdate_other post ms fun hn' => by
          have := hdisjoint _ _ n (by omega) (by omega) hn hn'
          omega
      obtain ⟨hmsgs', hpost'⟩ := checkUpdate_congr (length_checkUpdate _ _ _) hown (msgs.getD k [])
      exact ⟨hmsgs.trans hmsgs', fun n hn => (hpost n hn).trans (hpost' n hn)⟩

end Row

/-! ### Iterations and decisions (43_ldpc_decoder.md R226, R229) -/

/-- The scratch with the messages of each base row by its number. -/
abbrev RowScratch := List Int × (Nat → List (List Int))

/-- The update of base row i in such a scratch. -/
def rowStep (zc : Nat) (blocks : Nat → List Block) (sc : RowScratch) (i : Nat) : RowScratch :=
  let u := rowUpdate (blocks i) zc 0 sc.1 (sc.2 i)
  (u.1, fun i' => if i' = i then u.2 else sc.2 i')

/-- The engine's scratch for the base rows `rows`. -/
def RowScratch.listed (sc : RowScratch) (rows : List Nat) : Scratch := { post := sc.1, msgs := rows.map sc.2 }

theorem RowScratch.listed_cons (sc : RowScratch) (i : Nat) (rows : List Nat) :
    sc.listed (i :: rows) = { post := sc.1, msgs := sc.2 i :: rows.map sc.2 } := rfl

section Iteration

variable (zc : Nat) (blocks : Nat → List Block)

theorem foldl_rowStep_other {rows : List Nat} {i : Nat} (h : i ∉ rows) (sc : RowScratch) :
    (rows.foldl (rowStep zc blocks) sc).2 i = sc.2 i := by
  induction rows generalizing sc with
  | nil => rfl
  | cons j rows ih =>
    obtain ⟨hne, hrows⟩ := List.ne_and_not_mem_of_not_mem_cons h
    exact (ih hrows _).trans (if_neg hne)

/-- An iteration updates the base rows in the order they are listed. -/
theorem iterateRows_eq_foldl {rows : List Nat} (hnodup : rows.Nodup) (sc : RowScratch) :
    iterateRows zc (rows.map blocks) sc.1 (rows.map sc.2) = (rows.foldl (rowStep zc blocks) sc).listed rows := by
  induction rows generalizing sc with
  | nil => rfl
  | cons i rows ih =>
    obtain ⟨hi, hrows⟩ := List.nodup_cons.1 hnodup
    have hlater : rows.map (rowStep zc blocks sc i).2 = rows.map sc.2 :=
      List.map_congr_left fun j hj => if_neg (ne_of_mem_of_not_mem hj hi)
    have hfirst : ((i :: rows).foldl (rowStep zc blocks) sc).2 i = (rowUpdate (blocks i) zc 0 sc.1 (sc.2 i)).2 :=
      (foldl_rowStep_other zc blocks hi _).trans (if_pos rfl)
    have hrest := ih hrows (rowStep zc blocks sc i)
    rw [hlater] at hrest
    rw [RowScratch.listed_cons, hfirst]
    exact congrArg (fun sc' : Scratch => Scratch.mk sc'.post (_ :: sc'.msgs)) hrest

/-- Decision t is the signs after t + 1 iterations. -/
theorem referenceRun_getD {rows : List Nat} (hnodup : rows.Nodup) {inp : KernelIn} {n t : Nat} (ht : t < n)
    (sc : RowScratch) :
    (referenceRun (rows.map blocks) inp n (sc.listed rows)).getD t [] =
      hardBits inp.kPrime ((fun sc => rows.foldl (rowStep inp.zc blocks) sc)^[t + 1] sc).1 := by
  induction n generalizing t sc with
  | zero => exact absurd ht (Nat.not_lt_zero t)
  | succ n ih =>
    have hnext := iterateRows_eq_foldl inp.zc blocks hnodup sc
    simp only [referenceRun, RowScratch.listed, hnext]
    cases t with
    | zero => rfl
    | succ t =>
      rw [List.getD_cons_succ, Function.iterate_succ_apply]
      exact ih (Nat.lt_of_succ_lt_succ ht) _

end Iteration

/-- R226: λ, and every message 0. -/
theorem initScratch_eq_listed (src : ShiftSource) (inp : KernelIn) :
    initScratch (codeRows src inp) inp =
      RowScratch.listed (inp.lam, fun i =>
        List.replicate inp.zc (List.replicate (rowBlocks src inp.bg inp.zc inp.iLS i).length 0)) (List.range (nrow inp.bg)) := by
  simp [initScratch, codeRows, RowScratch.listed]

/-- Settles O60: a row's checks are disjoint, and the engine's lists of messages are the messages by row number. -/
theorem referenceKernelIterates : Obligations.ReferenceKernelIterates := by
  refine ⟨⟨rfl, rfl, rfl, rfl⟩, ?_, ?_, fun src inp => rfl⟩
  · intro src bg zc iLS i post msgs blocks _ hmsgs _ u
    subst hmsgs
    refine ⟨length_rowUpdate _ _ _ _ _, length_rowUpdate_msgs _ _ _ _ _, fun z hz => ?_, fun n hn => ?_⟩
    · have hcheck := rowUpdate_check (fun z z' n => checkVars_inj (src := src) (bg := bg) (iLS := iLS) (i := i)) 0 post msgs
        (Nat.zero_add _).le hz
      rwa [Nat.zero_add] at hcheck
    · exact rowUpdate_other blocks _ 0 post msgs fun k hk => by
        rw [Nat.zero_add]
        exact hn k hk
  · intro src inp blocks row iteration start decisions
    refine ⟨runKernel_length _ _ _, fun t ht => ?_⟩
    have hrun := referenceRun_getD blocks (List.nodup_range (n := nrow inp.bg)) (inp := inp) ht start
    rw [← initScratch_eq_listed src inp] at hrun
    exact hrun

/-! ### A non-negative input (43_ldpc_decoder.md R235) -/

theorem forall_mem_zipWith {α β γ : Type} {P : γ → Prop} {f : α → β → γ} {l : List α} {l' : List β}
    (h : ∀ a ∈ l, ∀ b ∈ l', P (f a b)) : ∀ c ∈ List.zipWith f l l', P c := by
  rw [← List.map_uncurry_zip_eq_zipWith]
  intro c hc
  obtain ⟨⟨a, b⟩, hab, rfl⟩ := List.mem_map.1 hc
  obtain ⟨ha, hb⟩ := List.of_mem_zip hab
  exact h a ha b hb

theorem satD_nonneg {v : Int} (h : 0 ≤ v) : 0 ≤ satD v := by
  unfold satD Config.decMax
  omega

/-- Every value is non-negative. -/
def NonNeg (l : List Int) : Prop := ∀ v ∈ l, 0 ≤ v

theorem NonNeg.getD {l : List Int} (h : NonNeg l) (n : Nat) : 0 ≤ l.getD n 0 := by
  by_cases hn : n < l.length
  · rw [List.getD_eq_getElem _ _ hn]
    exact h _ (List.getElem_mem hn)
  · rw [List.getD_eq_default _ _ (Nat.not_lt.1 hn)]

theorem checkValue_nonneg {others : List Int} (h : NonNeg others) : 0 ≤ checkValue others := by
  have hnone : (others.filter fun x => decide (x < 0)) = [] :=
    List.filter_eq_nil_iff.2 fun x hx => by simpa using h x hx
  rw [checkValue_eq, hnone, if_neg (by simp), Int.one_mul]
  exact Int.natCast_nonneg _

theorem checkNode_nonneg {q : List Int} (h : NonNeg q) : NonNeg (checkNode q) := by
  intro v hv
  obtain ⟨e, -, rfl⟩ := List.mem_map.1 hv
  exact checkValue_nonneg fun x hx => h x (List.mem_of_mem_eraseIdx hx)

theorem checkInputs_nonneg {post msgs : List Int} (hpost : NonNeg post) (hmsgs : ∀ r ∈ msgs, r = 0) (vars : List Nat) :
    NonNeg (checkInputs post vars msgs) :=
  forall_mem_zipWith fun n _ r hr => by
    rw [hmsgs r hr, Int.sub_zero]
    exact satD_nonneg (hpost.getD n)

theorem setPosteriors_nonneg {post vs : List Int} (hpost : NonNeg post) (hvs : NonNeg vs) (vars : List Nat) :
    NonNeg (setPosteriors post vars vs) := by
  induction vars generalizing post vs with
  | nil => rwa [setPosteriors_nil]
  | cons n ns ih =>
    cases vs with
    | nil => exact hpost
    | cons v vs =>
      obtain ⟨hv, hvs⟩ := List.forall_mem_cons.1 hvs
      refine ih (fun x hx => ?_) hvs
      rcases List.mem_or_eq_of_mem_set hx with hx | rfl
      · exact hpost x hx
      · exact hv

theorem checkUpdate_nonneg {post msgs : List Int} (hpost : NonNeg post) (hmsgs : ∀ r ∈ msgs, r = 0) (vars : List Nat) :
    NonNeg (checkUpdate post vars msgs).1 := by
  have hq := checkInputs_nonneg hpost hmsgs vars
  exact setPosteriors_nonneg hpost
    (forall_mem_zipWith fun a ha b hb => satD_nonneg (Int.add_nonneg (hq a ha) (checkNode_nonneg hq b hb))) vars

theorem rowUpdate_nonneg (blocks : List Block) (zc z : Nat) {post : List Int} {msgs : List (List Int)} (hpost : NonNeg post)
    (hmsgs : ∀ ms ∈ msgs, ∀ r ∈ ms, r = 0) : NonNeg (rowUpdate blocks zc z post msgs).1 := by
  induction msgs generalizing z post with
  | nil => exact hpost
  | cons ms msgs ih =>
    obtain ⟨hms, hmsgs⟩ := List.forall_mem_cons.1 hmsgs
    exact ih (z + 1) (checkUpdate_nonneg hpost hms _) hmsgs

/-- An iteration that starts with every message 0 keeps the posteriors non-negative. -/
theorem iterateRows_nonneg (zc : Nat) {rows : List (List Block)} {post : List Int} {msgs : List (List (List Int))}
    (hpost : NonNeg post) (hmsgs : ∀ mss ∈ msgs, ∀ ms ∈ mss, ∀ r ∈ ms, r = 0) :
    NonNeg (iterateRows zc rows post msgs).post := by
  induction rows generalizing post msgs with
  | nil => simpa [iterateRows] using hpost
  | cons blocks rows ih =>
    cases msgs with
    | nil => exact hpost
    | cons mss msgs =>
      obtain ⟨hmss, hmsgs⟩ := List.forall_mem_cons.1 hmsgs
      exact ih (rowUpdate_nonneg blocks zc 0 hpost hmss) hmsgs

theorem initScratch_msgs_zero (rows : List (List Block)) (inp : KernelIn) :
    ∀ mss ∈ (initScratch rows inp).msgs, ∀ ms ∈ mss, ∀ r ∈ ms, r = 0 := by
  intro mss hmss ms hms r hr
  obtain ⟨blocks, -, rfl⟩ := List.mem_map.1 hmss
  rw [List.eq_of_mem_replicate hms] at hr
  exact List.eq_of_mem_replicate hr

theorem hardBits_nonneg {post : List Int} (h : NonNeg post) (n : Nat) : hardBits n post = List.replicate n false := by
  refine List.eq_replicate_iff.2 ⟨length_hardBits n post, fun b hb => ?_⟩
  obtain ⟨k, -, rfl⟩ := List.mem_map.1 hb
  exact decide_eq_false (Int.not_lt.2 (h.getD k))

theorem referenceKernel_head (src : ShiftSource) {inp : KernelIn} (hiter : 1 ≤ inp.maxIter) :
    (referenceKernel src inp).head? = some (hardBits inp.kPrime
      (iterateRows inp.zc (codeRows src inp) inp.lam (initScratch (codeRows src inp) inp).msgs).post) := by
  obtain ⟨n, hn⟩ := Nat.exists_eq_add_of_le' hiter
  rw [referenceKernel, hn]
  rfl

/-! ### Zeros pass every CRC (44_crc_tb_assembly.md R261) -/

theorem crcStep_zero (p : Crc) : crcStep p 0 false = 0 := by cases p <;> rfl

theorem crcOf_zeros (p : Crc) (n : Nat) : crcOf p (List.replicate n false) = 0 := by
  induction n with
  | zero => rfl
  | succ n ih =>
    rw [crcOf, List.replicate_succ, List.foldl_cons, crcStep_zero]
    exact ih

theorem valueMsbFirst_zeros (n : Nat) : valueMsbFirst (List.replicate n false) = 0 := by
  induction n with
  | zero => rfl
  | succ n ih => exact ih

theorem crcOk_zeros (p : Crc) (n : Nat) : crcOk p (List.replicate n false) = true := by
  rw [crcOk, List.take_replicate, List.drop_replicate, crcOf_zeros, valueMsbFirst_zeros]
  simp

/-- With early stop a first decision that passes ends the attempt (43_ldpc_decoder.md R230). -/
theorem decodeCb_first_pass {p : Crc} {d : List Bool} {ds : List (List Bool)} (maxIter : Nat) (hhead : ds.head? = some d)
    (hpass : crcOk p d = true) : decodeCb true p maxIter ds = { bits := d, iter := 1, pass := true } := by
  obtain ⟨ds, rfl⟩ := List.head?_eq_some_iff.1 hhead
  exact if_pos hpass

/-- Settles O44: with every message 0 no update makes a posterior negative. -/
theorem nonNegativeInputDecodesToZeros : Obligations.NonNegativeInputDecodesToZeros := by
  intro src inp p hlam hiter
  have hpost := iterateRows_nonneg inp.zc (rows := codeRows src inp) (post := inp.lam) hlam
    (initScratch_msgs_zero (codeRows src inp) inp)
  have hhead := referenceKernel_head src hiter
  rw [hardBits_nonneg hpost] at hhead
  exact ⟨hpost, hhead, crcOk_zeros p, decodeCb_first_pass inp.maxIter hhead (crcOk_zeros p _)⟩

end Sys2Proof.Machine
end

section
/-! SUPPORT. END's decode step (43_ldpc_decoder.md R225, R231, R232): the decoder input, and what is left of a codeblock that is
skipped or decoded. -/

namespace Sys2Proof.Machine

/-- R225 with the filler positions written out. -/
theorem decoderInput_eq (soft : Sparse Int) (seg : Seg) (ncb : Nat) :
    decoderInput soft seg ncb = (List.range (ncol seg.bg * seg.zc)).map fun n =>
      if n < 2 * seg.zc then 0
      else if n - 2 * seg.zc < ncb ∨ (seg.kPrime ≤ n ∧ n < seg.k) then softAt soft (n - 2 * seg.zc)
      else 0 := by
  refine List.map_congr_left fun n _ => ?_
  by_cases hn : n < 2 * seg.zc
  · rw [if_pos hn, if_pos hn]
  · simp only [isFiller_iff, Nat.sub_add_cancel (Nat.not_lt.1 hn)]

/-- END's loop finds the flag clear unless R232 skips the codeblock. -/
theorem endStartHarq_flag_eq_skips (s : State) {r : Nat} (hr : r < s.seg.c) :
    ((endStartHarq s (endPlan s)).cb r).flag = s.skips r := by
  cases hnew : s.sess.newData with
  | true =>
    rw [endStartHarq_flag hnew hr, State.skips, hnew]
    rfl
  | false => simp [endStartHarq, State.skips, State.borrowed, hnew]

theorem endStartHarq_msg (s : State) (p : EndPlan) (r : Nat) :
    ((endStartHarq s p).cb r).msg = ((s.harq s.sess.harqId.toNat).cb r).msg := by
  unfold endStartHarq
  split
  · rw [clearFlags_cb]
    split <;> rfl
  · rfl

/-- END leaves codeblock r with the soft and message bits its loop made. -/
theorem endEffect_cb (s : State) {r : Nat} (hr : r < s.seg.c) :
    (((endEffect s (endPlan s)).endStep.harq s.sess.harqId.toNat).cb r).soft = (endPart s r).1.soft ∧
    (((endEffect s (endPlan s)).endStep.harq s.sess.harqId.toNat).cb r).msg = (endPart s r).1.msg := by
  obtain ⟨-, -, hcb⟩ := endEffect_harq s (endPlan s)
  rw [endPlan_seg] at hcb
  rw [State.endStep_harq, hcb r, if_pos hr]
  exact ⟨rfl, rfl⟩

/-- Message bits are an attempt's below its length, and from there on those of an allocated codeblock (43_ldpc_decoder.md R231,
42_rate_dematch.md R196). -/
theorem bitAt_message_write (c : CbBuf) (new : List Bool) (k : Nat) :
    bitAt (bitsWrite (fetchOrAllocate c).msg 0 new) k =
      if k < new.length then new.getD k false else (c.alloc && bitAt c.msg k) := by
  rw [bitAt_bitsWrite _ _ _ _ (Nat.zero_le _), fetchOrAllocate_msg]
  cases c.alloc <;> simp [bitAt]

/-- END's attempt of codeblock r, on the soft buffer its loop combined (43_ldpc_decoder.md R232). -/
def endAttempt (s : State) (r : Nat) : Decoded :=
  attemptDecode s.params s.sess.earlyStop s.sess.maxIter.toNat s.seg s.ncb (cbCrc s.seg.a s.seg.c) (endPart s r).1.soft

theorem length_endAttempt_bits {s : State} (hiter : 1 ≤ s.sess.maxIter.toNat) (r : Nat) :
    (endAttempt s r).bits.length = s.seg.kPrime := attemptDecode_bits_length _ _ hiter _ _ _ _

section Attempted

variable {s : State} {r : Nat} (h : ((endStartHarq s (endPlan s)).cb r).flag = false)

include h

theorem endPart_attempt_writes :
    (endPart s r).2 = { attempted := true, iter := (endAttempt s r).iter, cbPass := (endAttempt s r).pass } ∧
    (endPart s r).1.msg =
      bitsWrite (fetchOrAllocate ((endStartHarq s (endPlan s)).cb r)).msg 0 (endAttempt s r).bits := by
  simp only [endAttempt, endPart, endBuffers, decodeStep_soft]
  rw [decodeStep_attempt _ _ _ _ _ _ _ (by simpa using h)]
  exact ⟨rfl, rfl⟩

theorem endPart_attempt_bit (hiter : 1 ≤ s.sess.maxIter.toNat) (k : Nat) :
    bitAt (endPart s r).1.msg k =
      if k < s.seg.kPrime then (endAttempt s r).bits.getD k false
      else ((s.borrowed.cb r).alloc && bitAt (s.borrowed.cb r).msg k) := by
  rw [(endPart_attempt_writes h).2, bitAt_message_write, length_endAttempt_bits hiter, endStartHarq_alloc, endStartHarq_msg]
  rfl

end Attempted

/-- Settles O25, by the record and the message bits of each case of R232. -/
theorem endDecodesOnlyClearFlags : Obligations.EndDecodesOnlyClearFlags := by
  intro s t hfault hparams hiter hchecks hexec r hr
  obtain rfl := Host.Outcome.next.inj ((execEnd_next hfault hchecks).symm.trans hexec)
  obtain ⟨hiterOf, hattempted, hpass, -⟩ := endEffect_resCb_fields hparams hchecks hr
  obtain ⟨hsoft, hmsg⟩ := endEffect_cb s hr
  have hflag := endStartHarq_flag_eq_skips s hr
  simp only [hiterOf, hattempted, hpass, hmsg]
  refine ⟨?_, fun hskip => ?_, fun hskip => ?_⟩
  · rw [← hflag]
    exact (endBuffers_record _ _ _ _ _ _ _).1
  · obtain ⟨hrec, hkept⟩ := endPart_skip (hflag.trans hskip)
    rw [endStartHarq_alloc, endStartHarq_msg] at hkept
    rw [hrec]
    exact ⟨rfl, rfl, fun halloc => hkept.trans (if_pos halloc)⟩
  · have hclear := hflag.trans hskip
    have hbit := endPart_attempt_bit hclear hiter
    obtain ⟨hle, hpos, hfull⟩ := attemptDecode_iter s.params s.sess.earlyStop s.sess.maxIter.toNat s.seg s.ncb
      (cbCrc s.seg.a s.seg.c) (endPart s r).1.soft
    rw [hsoft, ← decoderInput_eq, (endPart_attempt_writes hclear).1]
    exact ⟨rfl, rfl, length_endAttempt_bits hiter r, fun k hk => (hbit k).trans (if_pos hk),
      fun k hk => (hbit k).trans (if_neg (Nat.not_lt.2 hk)), hpos hiter, hle, hfull⟩

end Sys2Proof.Machine
end

section
/-! SUPPORT. The CRC as a remainder of polynomials over GF(2) (44_crc_tb_assembly.md R260 to R262). A coefficient of GF(2) is written
`if b then 1 else 0` for a bit `b`, as the statements write it. -/

namespace Sys2Proof.Machine

open Polynomial

/-! ### Bits read most significant first -/

theorem valueMsbFirst_concat (bits : List Bool) (b : Bool) :
    valueMsbFirst (bits ++ [b]) = 2 * valueMsbFirst bits + b.toNat := by
  simp [valueMsbFirst]

theorem valueMsbFirst_lt (bits : List Bool) : valueMsbFirst bits < 2 ^ bits.length := by
  induction bits using List.reverseRecOn with
  | nil => exact Nat.one_pos
  | append_singleton bits b ih =>
    have hb := Bool.toNat_lt b
    rw [valueMsbFirst_concat, List.length_append, List.length_singleton, pow_succ]
    omega

theorem valueMsbFirst_eq_sum (bits : List Bool) :
    valueMsbFirst bits =
      ((List.range bits.length).map fun k => (bits.getD k false).toNat * 2 ^ (bits.length - 1 - k)).sum := by
  induction bits using List.reverseRecOn with
  | nil => rfl
  | append_singleton bits b ih =>
    have hdouble : ∀ k ∈ List.range bits.length,
        ((bits ++ [b]).getD k false).toNat * 2 ^ (bits.length + 1 - 1 - k) =
          2 * ((bits.getD k false).toNat * 2 ^ (bits.length - 1 - k)) := by
      intro k hk
      have hlt := List.mem_range.1 hk
      rw [List.getD_append _ _ _ _ hlt, show bits.length + 1 - 1 - k = bits.length - 1 - k + 1 by omega, pow_succ]
      ring
    rw [valueMsbFirst_concat, ih, List.length_append, List.length_singleton, List.range_succ, List.map_append,
      List.sum_append, List.map_congr_left hdouble, List.sum_map_mul_left]
    simp

/-! ### Polynomials of bits and of registers -/

theorem bit_xor (b c : Bool) :
    (if (b ^^ c) then (1 : ZMod 2) else 0) = (if b then 1 else 0) + if c then 1 else 0 := by
  cases b <;> cases c <;> rfl

/-- a(D) of R261: the first bit has the highest power. -/
noncomputable def bitPoly (bits : List Bool) : (ZMod 2)[X] :=
  bits.foldl (fun q b => q * X + C (if b then 1 else 0)) 0

/-- The register's value as a polynomial: bit i is the coefficient of D^i. -/
noncomputable def regPoly {n : Nat} (v : BitVec n) : (ZMod 2)[X] :=
  ((List.range n).map fun i => C (if v.getLsbD i then (1 : ZMod 2) else 0) * X ^ i).sum

theorem bitPoly_concat (bits : List Bool) (b : Bool) :
    bitPoly (bits ++ [b]) = bitPoly bits * X + C (if b then 1 else 0) := by
  simp [bitPoly]

theorem bitPoly_append (xs ys : List Bool) : bitPoly (xs ++ ys) = bitPoly xs * X ^ ys.length + bitPoly ys := by
  induction ys using List.reverseRecOn with
  | nil => simp [bitPoly]
  | append_singleton ys b ih =>
    rw [← List.append_assoc, bitPoly_concat, ih, bitPoly_concat, List.length_append, List.length_singleton]
    ring

theorem coeff_sum_powers (f : Nat → ZMod 2) (n i : Nat) :
    ((List.range n).map fun k => C (f k) * (X : (ZMod 2)[X]) ^ k).sum.coeff i = if i < n then f i else 0 := by
  induction n with
  | zero => simp
  | succ n ih =>
    rw [List.range_succ, List.map_append, List.sum_append, coeff_add, ih, List.map_singleton, List.sum_singleton,
      coeff_C_mul_X_pow]
    obtain h | rfl | h := lt_trichotomy i n
    · rw [if_pos h, if_neg h.ne, if_pos (by omega), add_zero]
    · simp
    · rw [if_neg (by omega), if_neg h.ne', if_neg (by omega), add_zero]

theorem regPoly_coeff {n : Nat} (v : BitVec n) (i : Nat) :
    (regPoly v).coeff i = if v.getLsbD i then 1 else 0 := by
  rw [regPoly, coeff_sum_powers]
  split
  · rfl
  · rw [BitVec.getLsbD_of_ge v i (by omega)]
    rfl

theorem degree_regPoly_lt {n : Nat} (v : BitVec n) : (regPoly v).degree < n :=
  degree_lt_iff_coeff_zero _ _ |>.2 fun i hi => by
    rw [regPoly_coeff, BitVec.getLsbD_of_ge v i hi]
    rfl

theorem regPoly_eq_zero_iff {n : Nat} {v : BitVec n} : regPoly v = 0 ↔ v = 0 := by
  constructor
  · intro h
    refine BitVec.eq_of_getLsbD_eq fun i _ => ?_
    have hi := regPoly_coeff v i
    rw [h, coeff_zero] at hi
    cases hv : v.getLsbD i
    · simp
    · simp [hv] at hi
  · rintro rfl
    ext i
    simp [regPoly_coeff]

theorem regPoly_xor {n : Nat} (v w : BitVec n) : regPoly (v ^^^ w) = regPoly v + regPoly w := by
  ext i
  rw [coeff_add, regPoly_coeff, regPoly_coeff, regPoly_coeff, BitVec.getLsbD_xor, bit_xor]

/-- A shift multiplies by D, and the bit shifted out is the one that had the highest power. -/
theorem regPoly_mul_X {n : Nat} (v : BitVec n) :
    regPoly v * X = regPoly (v <<< 1) + C (if v.msb then 1 else 0) * X ^ n := by
  ext i
  rw [coeff_add, coeff_C_mul_X_pow, regPoly_coeff, BitVec.getLsbD_shiftLeft, BitVec.msb_eq_getLsbD_last]
  cases i with
  | zero =>
    rw [coeff_mul_X_zero]
    obtain rfl | hn := Nat.eq_zero_or_pos n
    · simp
    · simp [hn.ne]
  | succ i =>
    rw [coeff_mul_X, regPoly_coeff]
    obtain h | h | h := lt_trichotomy (i + 1) n
    · simp [h, h.ne]
    · simp [← h]
    · rw [BitVec.getLsbD_of_ge v i (by omega)]
      simp [h.ne', h.not_gt]

theorem bitPoly_coeff (bits : List Bool) (i : Nat) :
    (bitPoly bits).coeff i = if (valueMsbFirst bits).testBit i then 1 else 0 := by
  induction bits using List.reverseRecOn generalizing i with
  | nil => simp [bitPoly, valueMsbFirst]
  | append_singleton bits b ih =>
    have hb := Bool.toNat_lt b
    rw [bitPoly_concat, valueMsbFirst_concat, coeff_add]
    cases i with
    | zero => cases b <;> simp [Nat.testBit_zero]
    | succ i =>
      rw [coeff_mul_X, coeff_C_succ, add_zero, ih, Nat.testBit_succ,
        show (2 * valueMsbFirst bits + b.toNat) / 2 = valueMsbFirst bits by omega]

/-- Lp bits read as the value of a register give the same polynomial. -/
theorem regPoly_valueMsbFirst {n : Nat} {bits : List Bool} (h : bits.length = n) :
    regPoly (BitVec.ofNat n (valueMsbFirst bits)) = bitPoly bits := by
  ext i
  rw [regPoly_coeff, bitPoly_coeff, BitVec.getLsbD, BitVec.toNat_ofNat, Nat.mod_eq_of_lt (h ▸ valueMsbFirst_lt bits)]

/-! ### The generators (44_crc_tb_assembly.md R260) -/

/-- The generator g(D), its highest term included. -/
noncomputable def genPoly (p : Crc) : (ZMod 2)[X] := X ^ crcLen p + regPoly (crcGen p)

/-- The powers of D in the generator, as R260 writes it. -/
def genPowers : Crc → List Nat
  | .crc24A => [24, 23, 18, 17, 14, 11, 10, 7, 6, 5, 4, 3, 1, 0]
  | .crc24B => [24, 23, 6, 5, 1, 0]
  | .crc16 => [16, 12, 5, 0]

theorem genPowers_count (p : Crc) :
    ∀ i < 25, (genPowers p).count i = (decide (i = crcLen p)).toNat + ((crcGen p).getLsbD i).toNat := by
  cases p <;> decide

theorem genPowers_lt (p : Crc) : ∀ i ∈ genPowers p, i < 25 := by
  cases p <;> decide

theorem coeff_sum_X_pow (ks : List Nat) (i : Nat) :
    (ks.map fun k => (X : (ZMod 2)[X]) ^ k).sum.coeff i = (ks.count i : ZMod 2) := by
  induction ks with
  | nil => simp
  | cons k ks ih =>
    rw [List.map_cons, List.sum_cons, coeff_add, ih, coeff_X_pow, List.count_cons]
    by_cases h : i = k
    · simp [h, add_comm]
    · simp [h, Ne.symm h]

theorem crcLen_le (p : Crc) : crcLen p ≤ 24 := by cases p <;> decide

theorem sum_genPowers (p : Crc) : ((genPowers p).map fun k => (X : (ZMod 2)[X]) ^ k).sum = genPoly p := by
  ext i
  rw [coeff_sum_X_pow, genPoly, coeff_add, coeff_X_pow, regPoly_coeff]
  obtain hi | hi := Nat.lt_or_ge i 25
  · rw [genPowers_count p i hi, Nat.cast_add]
    cases (crcGen p).getLsbD i <;> by_cases h : i = crcLen p <;> simp [h]
  · have hlen := crcLen_le p
    rw [List.count_eq_zero_of_not_mem fun hmem => absurd (genPowers_lt p i hmem) (by omega), if_neg (by omega),
      BitVec.getLsbD_of_ge _ i (by omega)]
    simp

theorem genPoly_monic (p : Crc) : (genPoly p).Monic := monic_X_pow_add (degree_regPoly_lt _)

theorem degree_genPoly (p : Crc) : (genPoly p).degree = crcLen p := by
  have hlt : (regPoly (crcGen p)).degree < (X ^ crcLen p : (ZMod 2)[X]).degree := by
    rw [degree_X_pow]
    exact degree_regPoly_lt _
  rw [genPoly, degree_add_eq_left_of_degree_lt hlt, degree_X_pow]

theorem genPoly_isCoprime_X (p : Crc) : IsCoprime (genPoly p) X := by
  have hone : (genPoly p).coeff 0 = 1 := by
    rw [← sum_genPowers, coeff_sum_X_pow]
    cases p <;> rfl
  refine ((irreducible_X (R := ZMod 2)).coprime_iff_not_dvd.2 fun h => ?_).symm
  rw [X_dvd_iff, hone] at h
  exact one_ne_zero h

/-- A register has fewer bits than the generator has terms, so it is its own remainder. -/
theorem genPoly_dvd_regPoly_iff {p : Crc} {v : BitVec (crcLen p)} : genPoly p ∣ regPoly v ↔ v = 0 := by
  rw [← regPoly_eq_zero_iff]
  refine ⟨fun h => eq_zero_of_dvd_of_degree_lt h ?_, fun h => h ▸ dvd_zero _⟩
  rw [degree_genPoly]
  exact degree_regPoly_lt v

/-! ### The CRC register (44_crc_tb_assembly.md R261) -/

theorem crcOf_concat (p : Crc) (bits : List Bool) (b : Bool) : crcOf p (bits ++ [b]) = crcStep p (crcOf p bits) b := by
  simp [crcOf]

/-- One step is multiplication by D and the new bit at D^Lp, reduced once by the generator. -/
theorem regPoly_crcStep (p : Crc) (r : BitVec (crcLen p)) (b : Bool) :
    regPoly (crcStep p r b) =
      regPoly r * X + C (if b then 1 else 0) * X ^ crcLen p + C (if (r.msb ^^ b) then 1 else 0) * genPoly p := by
  have hshift : regPoly (r <<< 1) = regPoly r * X + C (if r.msb then 1 else 0) * X ^ crcLen p := by
    rw [regPoly_mul_X, add_assoc, CharTwo.add_self_eq_zero, add_zero]
  have hstep : regPoly (crcStep p r b) = regPoly (r <<< 1) + C (if (r.msb ^^ b) then 1 else 0) * regPoly (crcGen p) := by
    rw [crcStep]
    split
    · rw [regPoly_xor, C_1, one_mul]
    · rw [C_0, zero_mul, add_zero]
  have htwo := CharTwo.add_self_eq_zero (C (if b then (1 : ZMod 2) else 0) * X ^ crcLen p)
  rw [hstep, hshift, genPoly, bit_xor, C_add]
  linear_combination -htwo

/-- The register after the bits `a` is congruent to a(D)·D^Lp. -/
theorem genPoly_dvd_sub_crcOf (p : Crc) (bits : List Bool) :
    genPoly p ∣ bitPoly bits * X ^ crcLen p - regPoly (crcOf p bits) := by
  induction bits using List.reverseRecOn with
  | nil =>
    rw [show crcOf p [] = 0 from rfl, regPoly_eq_zero_iff.2 rfl, show bitPoly [] = 0 from rfl, zero_mul, sub_zero]
    exact dvd_zero _
  | append_singleton bits b ih =>
    rw [crcOf_concat, regPoly_crcStep, bitPoly_concat]
    convert (ih.mul_right X).sub (dvd_mul_left (genPoly p) (C (if ((crcOf p bits).msb ^^ b) then 1 else 0))) using 1
    ring

theorem regPoly_crcOf (p : Crc) (bits : List Bool) :
    regPoly (crcOf p bits) = (bitPoly bits * X ^ crcLen p) %ₘ genPoly p := by
  rw [modByMonic_eq_of_dvd_sub (genPoly_monic p) (genPoly_dvd_sub_crcOf p bits)]
  refine ((modByMonic_eq_self_iff (genPoly_monic p)).2 ?_).symm
  rw [degree_genPoly]
  exact degree_regPoly_lt _

/-- Settles O47: the register stays the remainder with every bit it takes in. -/
theorem crcIsPolynomialRemainder : Obligations.CrcIsPolynomialRemainder := by
  intro p a
  refine ⟨by cases p <;> rfl, (regPoly_crcOf p a).trans ?_⟩
  rw [← sum_genPowers]
  cases p <;> rfl

/-! ### The check (44_crc_tb_assembly.md R262) -/

/-- The generator has a constant term, so the factor D^Lp does not matter to whether the CRC is 0. -/
theorem crcOf_eq_zero_iff_dvd {p : Crc} {bits : List Bool} : crcOf p bits = 0 ↔ genPoly p ∣ bitPoly bits := by
  rw [← genPoly_dvd_regPoly_iff, ← dvd_iff_dvd_of_dvd_sub (genPoly_dvd_sub_crcOf p bits)]
  exact ⟨(genPoly_isCoprime_X p).pow_right.dvd_of_dvd_mul_right, fun h => h.mul_right _⟩

theorem crcOk_iff_toNat {p : Crc} {x : List Bool} :
    crcOk p x = true ↔
      (crcOf p (x.take (x.length - crcLen p))).toNat = valueMsbFirst (x.drop (x.length - crcLen p)) := beq_iff_eq

/-- Adding Lp bits at the end adds them to the remainder: it becomes 0 exactly when they equal it. -/
theorem crcOf_append_eq_zero_iff {p : Crc} {xs ys : List Bool} (h : ys.length = crcLen p) :
    crcOf p (xs ++ ys) = 0 ↔ (crcOf p xs).toNat = valueMsbFirst ys := by
  have hsub : genPoly p ∣
      bitPoly (xs ++ ys) - regPoly (crcOf p xs ^^^ BitVec.ofNat (crcLen p) (valueMsbFirst ys)) := by
    rw [bitPoly_append, h, regPoly_xor, regPoly_valueMsbFirst h, add_sub_add_right_eq_sub]
    exact genPoly_dvd_sub_crcOf p xs
  have hlt : valueMsbFirst ys < 2 ^ crcLen p := h ▸ valueMsbFirst_lt ys
  rw [crcOf_eq_zero_iff_dvd, dvd_iff_dvd_of_dvd_sub hsub, genPoly_dvd_regPoly_iff]
  refine BitVec.xor_eq_zero_iff.trans ?_
  rw [← BitVec.toNat_inj, BitVec.toNat_ofNat, Nat.mod_eq_of_lt hlt]

theorem crcOk_iff_crcOf_eq_zero {p : Crc} {x : List Bool} (h : crcLen p ≤ x.length) :
    crcOk p x = true ↔ crcOf p x = 0 := by
  have hlen : (x.drop (x.length - crcLen p)).length = crcLen p := by
    rw [List.length_drop, Nat.sub_sub_self h]
  rw [crcOk_iff_toNat, ← crcOf_append_eq_zero_iff hlen, List.take_append_drop]

/-- Settles O46: the comparison by its definition, and the zero CRC by `crcOf_append_eq_zero_iff`. -/
theorem crcOkIsZeroRemainder : Obligations.CrcOkIsZeroRemainder := by
  refine ⟨fun p x h => ⟨?_, crcOk_iff_crcOf_eq_zero h⟩, fun k src inp d hd => runKernel_bits_length hd⟩
  have hlen : (x.drop (x.length - crcLen p)).length = crcLen p := by
    rw [List.length_drop, Nat.sub_sub_self h]
  rw [crcOk_iff_toNat, valueMsbFirst_eq_sum, hlen]
  simp only [List.getD_eq_getElem?_getD, List.getElem?_drop]

end Sys2Proof.Machine
end

section
/-! SUPPORT. The transport block of END: its assembly, the TB decision, TBOUT and the report (44_crc_tb_assembly.md R264 to R275). -/

namespace Sys2Proof.Machine

theorem getD_map_range {α : Type} (f : Nat → α) (d : α) (n i : Nat) :
    ((List.range n).map f).getD i d = if i < n then f i else d := by
  by_cases h : i < n <;> simp [h]

/-- The one state an END that raises nothing answers. -/
theorem eq_of_execEnd {s t : State} (hf : s.fault = false) (hc : EndChecks s) (h : exec .endSession s = .next t) :
    t = (endEffect s (endPlan s)).endStep :=
  (Host.Outcome.next.inj ((execEnd_next hf hc).symm.trans h)).symm

/-! ### Assembly (44_crc_tb_assembly.md R264, R266, R268) -/

theorem length_assembleBits (msg : List Bool) (n : Nat) : (assembleBits msg n).length = n := by
  simp [assembleBits]

theorem bitAt_assembleBits (msg : List Bool) {n k : Nat} (h : k < n) : bitAt (assembleBits msg n) k = bitAt msg k := by
  rw [bitAt, assembleBits, getD_map_range, if_pos h]

/-- Appending the data bits of codeblocks 0..n-1 to TBA, cut at TBC bits; the second component is how many bits are done. -/
def assembleAll (seg : Seg) (tbc : Nat) (msg : Nat → List Bool) (tba : List Bool) (n : Nat) : List Bool × Nat :=
  (List.range n).foldl (fun t r =>
    (bitsWrite t.1 t.2 (assembleBits (msg r) (assembleLen seg tbc t.2)), t.2 + assembleLen seg tbc t.2)) (tba, 0)

theorem endLoop_tba_eq_assembleAll (s : State) (p : EndPlan) :
    (endLoop s p).tba = (assembleAll p.seg p.tbc (fun r => ((endLoop s p).harq.cb r).msg) s.tba p.seg.c).1 :=
  endLoop_tba s p

section Assemble

variable (seg : Seg) (tbc : Nat) (msg : Nat → List Bool) (tba : List Bool)

theorem assembleAll_succ (n : Nat) :
    assembleAll seg tbc msg tba (n + 1) =
      let t := assembleAll seg tbc msg tba n
      (bitsWrite t.1 t.2 (assembleBits (msg n) (assembleLen seg tbc t.2)), t.2 + assembleLen seg tbc t.2) := by
  simp [assembleAll, List.range_succ]

/-- Every codeblock but those past the cut gives D bits. -/
theorem assembleAll_count (n : Nat) : (assembleAll seg tbc msg tba n).2 = min (n * seg.d) tbc := by
  induction n with
  | zero => simp [assembleAll]
  | succ n ih =>
    rw [assembleAll_succ, Nat.succ_mul]
    simp only [ih, assembleLen]
    omega

theorem assembleAll_count_le_length (n : Nat) :
    (assembleAll seg tbc msg tba n).2 ≤ (assembleAll seg tbc msg tba n).1.length := by
  induction n with
  | zero => simp [assembleAll]
  | succ n ih =>
    rw [assembleAll_succ]
    have h := length_bitsWrite _ (assembleBits (msg n) (assembleLen seg tbc (assembleAll seg tbc msg tba n).2)) _ ih
    rwa [length_assembleBits] at h

/-- One codeblock's bits stand at the count reached before it, and every other bit stays. -/
theorem bitAt_assembleAll_succ (n j : Nat) :
    bitAt (assembleAll seg tbc msg tba (n + 1)).1 j =
      if min (n * seg.d) tbc ≤ j ∧ j < min ((n + 1) * seg.d) tbc then bitAt (msg n) (j - n * seg.d)
      else bitAt (assembleAll seg tbc msg tba n).1 j := by
  have hnext := assembleAll_count seg tbc msg tba (n + 1)
  rw [assembleAll_succ] at hnext ⊢
  simp only at hnext ⊢
  rw [bitAt_bitsWrite _ _ _ _ (assembleAll_count_le_length seg tbc msg tba n), length_assembleBits, hnext]
  simp only [assembleAll_count] at hnext ⊢
  split
  next hin =>
    rw [bitAt_assembleBits _ (by omega), Nat.min_eq_left (by omega)]
  next => rfl

theorem bitAt_assembleAll_past (n : Nat) {j : Nat} (hj : min (n * seg.d) tbc ≤ j) :
    bitAt (assembleAll seg tbc msg tba n).1 j = bitAt tba j := by
  induction n with
  | zero => rfl
  | succ n ih =>
    rw [bitAt_assembleAll_succ, if_neg (by omega), ih]
    rw [Nat.succ_mul] at hj
    omega

/-- Bit k of codeblock r is bit r·D + k of the assembled transport block. -/
theorem bitAt_assembleAll {n r k : Nat} (hr : r < n) (hk : k < seg.d) (hcut : r * seg.d + k < tbc) :
    bitAt (assembleAll seg tbc msg tba n).1 (r * seg.d + k) = bitAt (msg r) k := by
  induction n with
  | zero => omega
  | succ n ih =>
    rw [bitAt_assembleAll_succ]
    obtain hlt | rfl := Nat.lt_succ_iff_lt_or_eq.1 hr
    · have hrow : (r + 1) * seg.d ≤ n * seg.d := Nat.mul_le_mul_right _ hlt
      rw [Nat.succ_mul] at hrow
      rw [if_neg (by omega), ih hlt]
    · rw [Nat.succ_mul, if_pos (by omega), Nat.add_sub_cancel_left]

end Assemble

/-- Only a transport block with the long CRC is cut into several codeblocks: with the short one it fits either graph's Kcb. -/
theorem tbCrcLen_of_several {a : Nat} {bg : BaseGraph} (h : kcbOf bg < a + tbCrcLen a) : tbCrcLen a = 24 := by
  by_cases hlong : 3824 < a
  · exact if_pos hlong
  · have hshort : tbCrcLen a = 16 := if_neg hlong
    obtain hk | hk := kcbOf_cases bg <;> omega

/-- The codeblocks' data bits reach TBC (44_crc_tb_assembly.md R268). -/
theorem tbAndCrcLen_le_data (a : Nat) (bg : BaseGraph) :
    tbAndCrcLen a (segmentTb a bg).c ≤ (segmentTb a bg).c * (segmentTb a bg).d := by
  have hd : (segmentTb a bg).d = (segmentTb a bg).kPrime - (segmentTb a bg).lcb := rfl
  obtain hfits | hlarge := le_or_gt (a + tbCrcLen a) (kcbOf bg)
  · obtain ⟨hc, -, hk, hlcb⟩ := segmentTb_single hfits
    rw [hd, hk, hlcb, hc, Nat.add_sub_cancel, one_mul]
    exact le_rfl
  · obtain ⟨-, hone, -, hk, hlcb⟩ := segmentTb_several hlarge
    rw [tbCrcLen_of_several hlarge] at hk
    rw [hd, hk, hlcb, Nat.add_sub_cancel, tbAndCrcLen, if_neg hone.ne']
    exact le_mul_cdiv _ (Nat.zero_lt_of_lt hone)

/-- Settles O59: the message buffers of the loop are those END leaves, and TBA is assembled from them. -/
theorem assemblyConcatenatesMessages : Obligations.AssemblyConcatenatesMessages := by
  intro s t hfault hchecks hexec
  obtain rfl := eq_of_execEnd hfault hchecks hexec
  have htba := endLoop_tba_eq_assembleAll s (endPlan s)
  have hreach : tbAndCrcLen (8 * s.sess.tbBytes.toNat) s.seg.c ≤ s.seg.c * s.seg.d := tbAndCrcLen_le_data _ _
  refine ⟨fun r k hr hk hcut => ?_, hreach, fun j hj => ?_⟩
  · rw [(endEffect_cb s hr).2, State.endStep_tba, endEffect_tba, htba]
    exact (bitAt_assembleAll _ _ _ _ hr hk hcut).trans (by rw [endLoop_cb s _ hr]; rfl)
  · rw [State.endStep_tba, endEffect_tba, htba]
    exact bitAt_assembleAll_past _ _ _ _ _ ((Nat.min_le_right _ _).trans hj)

/-! ### TBOUT (44_crc_tb_assembly.md R272) -/

/-- Bits 0 and 1 of RES_SUMMARY are TB_CRC_OK and RES_VALID (10_state.md R37). -/
theorem summaryWord_bits (n : Nat) (ok : Bool) :
    (summaryWord n ok).getLsbD 0 = ok ∧ (summaryWord n ok).getLsbD 1 = true := by
  rw [getLsbD_eq_div, getLsbD_eq_div, summaryWord_toNat]
  cases ok <;> simp <;> omega

/-- The upper half of RES_SUMMARY is NOF_CB (10_state.md R37). -/
theorem summaryWord_nofCb {n : Nat} (ok : Bool) (h : n < 2 ^ 16) : (summaryWord n ok).toNat / 2 ^ 16 = n := by
  have hok := Bool.toNat_lt ok
  rw [summaryWord_toNat, Nat.mod_eq_of_lt h]
  omega

/-- TB_CRC_OK is the outcome of the TB decision. -/
theorem endEffect_tbCrcOk (s : State) (p : EndPlan) : (endEffect s p).endStep.tbCrcOk = endOk s p :=
  (summaryWord_bits p.seg.c (endOk s p)).1

theorem endEffect_mem_pass {s : State} {p : EndPlan} (h : endOk s p = true) :
    (endEffect s p).mem = memWriteBytes s.mem Config.tboutBase (tbBytesOf (endLoop s p).tba s.sess.tbBytes.toNat) :=
  (endEffect_mem s p).trans (if_pos h)

theorem endEffect_mem_fail {s : State} {p : EndPlan} (h : endOk s p = false) : (endEffect s p).mem = s.mem :=
  (endEffect_mem s p).trans (if_neg (Bool.eq_false_iff.1 h))

theorem toNat_tbByte (tba : List Bool) (i : Nat) :
    (tbByte tba i).toNat = ((List.range 8).map fun k => (bitAt tba (8 * i + k)).toNat * 2 ^ (7 - k)).sum := by
  have hlt := valueMsbFirst_lt ((List.range 8).map fun k => bitAt tba (8 * i + k))
  rw [List.length_map, List.length_range] at hlt
  rw [tbByte, BitVec.toNat_ofNat, Nat.mod_eq_of_lt hlt, valueMsbFirst_eq_sum, List.length_map, List.length_range]
  refine congrArg List.sum (List.map_congr_left fun k hk => ?_)
  rw [getD_map_range, if_pos (List.mem_range.1 hk)]

theorem endEffect_tboutByte {s : State} {p : EndPlan} (h : endOk s p = true) {i : Nat} (hi : i < s.sess.tbBytes.toNat) :
    (endEffect s p).tboutByte i = tbByte (endLoop s p).tba i := by
  rw [State.tboutByte, State.byteAt, endEffect_mem_pass h, memFind_writeBytes_inside _ _ _ _ (by rwa [length_tbBytesOf])]
  simp [tbBytesOf, hi]

/-- Settles O23: the bytes written are those of TBA, and `endEffect_byteAt_outside` is the frame. -/
theorem tboutWrittenOnlyOnPass : Obligations.TboutWrittenOnlyOnPass := by
  intro s t hfault hchecks hexec
  obtain rfl := eq_of_execEnd hfault hchecks hexec
  rw [endEffect_tbCrcOk]
  refine ⟨fun hok i hi => ?_, fun _ a ha => endEffect_byteAt_outside s _ ha, endEffect_mem_fail⟩
  rw [← toNat_tbByte]
  exact congrArg BitVec.toNat (endEffect_tboutByte hok hi)

/-! ### The TB decision (44_crc_tb_assembly.md R267 to R271) -/

section Table

variable {b : HarqBuf} {tba : List Bool} {c a : Nat}

theorem allFlags_iff : allFlags b c = true ↔ ∀ r, r < c → (b.cb r).flag = true := by
  simp [allFlags]

theorem decision_of_one (hc : c = 1) :
    tbDecision b tba c a = (b.cb 0).flag ∧ ((decisionFlags b tba c a).cb 0).flag = (b.cb 0).flag := by
  rw [decisionFlags, if_neg fun h => absurd h.1 (by omega)]
  exact ⟨if_pos hc, rfl⟩

theorem tbDecision_of_several (hc : 1 < c) : tbDecision b tba c a = (allFlags b c && tbCrcOk tba a) :=
  if_neg hc.ne'

theorem decision_of_match (hc : 1 < c) (hall : ∀ r, r < c → (b.cb r).flag = true) (hcrc : tbCrcOk tba a = true) :
    tbDecision b tba c a = true ∧ ∀ r, r < c → ((decisionFlags b tba c a).cb r).flag = true := by
  rw [tbDecision_of_several hc, decisionFlags, allFlags_iff.2 hall, hcrc, if_neg (by simp)]
  exact ⟨rfl, hall⟩

theorem decision_of_mismatch (hc : 1 < c) (hall : ∀ r, r < c → (b.cb r).flag = true) (hcrc : tbCrcOk tba a = false) :
    tbDecision b tba c a = false ∧ ∀ r, r < c → ((decisionFlags b tba c a).cb r).flag = false := by
  rw [tbDecision_of_several hc, hcrc, Bool.and_false, decisionFlags, if_pos ⟨hc, allFlags_iff.2 hall, hcrc⟩]
  refine ⟨rfl, fun r hr => ?_⟩
  rw [clearFlags_cb, if_pos hr]

theorem decision_of_failed (hc : 1 < c) (hfail : ∃ r, r < c ∧ (b.cb r).flag = false) :
    tbDecision b tba c a = false ∧ ∀ r, r < c → ((decisionFlags b tba c a).cb r).flag = (b.cb r).flag := by
  obtain ⟨r, hr, hflag⟩ := hfail
  have hsome : allFlags b c = false := by
    refine Bool.eq_false_iff.2 fun hall => ?_
    rw [allFlags_iff.1 hall r hr] at hflag
    cases hflag
  rw [tbDecision_of_several hc, decisionFlags, hsome, if_neg (by simp)]
  exact ⟨rfl, fun _ _ => rfl⟩

end Table

/-- After its decode step a codeblock's flag is its CB_PASS (43_ldpc_decoder.md R232). -/
theorem endLoop_flag (s : State) {r : Nat} (hr : r < s.seg.c) :
    ((endLoop s (endPlan s)).harq.cb r).flag = (endPart s r).2.cbPass := by
  rw [endLoop_cb s (endPlan s) hr]
  exact (endBuffers_record _ _ _ _ _ _ _).2.1

/-- Settles O24: each row of R273 is a lemma on the decision, read off the flags that the loop leaves. -/
theorem tbDecisionTable : Obligations.TbDecisionTable := by
  intro s t hfault hparams hchecks hexec
  obtain rfl := eq_of_execEnd hfault hchecks hexec
  have hfields := fun r (hr : r < s.seg.c) => endEffect_resCb_fields hparams hchecks hr
  have hpass : ∀ r, r < s.seg.c →
      ((endLoop s (endPlan s)).harq.cb r).flag = cbPassOf ((endEffect s (endPlan s)).endStep.resCb r) := by
    intro r hr
    obtain ⟨-, -, hpass, -⟩ := hfields r hr
    exact (endLoop_flag s hr).trans hpass.symm
  simp only [endEffect_tbCrcOk, State.endStep_harq]
  refine ⟨fun r hr => ?_, ?_⟩
  · obtain ⟨-, -, -, hflagEnd⟩ := hfields r hr
    exact hflagEnd
  rw [endEffect_harq_borrowed]
  refine ⟨fun hone => ?_, fun hc hall hcrc => ?_, fun hc hall hcrc => ?_, fun hc hfail => ?_, endEffect_mem_pass,
    endEffect_mem_fail⟩
  · rw [← hpass 0 (by omega)]
    exact decision_of_one hone
  · exact decision_of_match hc (fun r hr => (hpass r hr).trans (hall r hr)) hcrc
  · exact decision_of_mismatch hc (fun r hr => (hpass r hr).trans (hall r hr)) hcrc
  · obtain ⟨r, hr, hclear⟩ := hfail
    obtain ⟨hno, hkept⟩ := decision_of_failed hc ⟨r, hr, (hpass r hr).trans hclear⟩
    exact ⟨hno, fun r hr => (hkept r hr).trans (hpass r hr)⟩

/-! ### The report (44_crc_tb_assembly.md R274, R275) -/

theorem foldl_max_mem_and_le {l : List Nat} (h : l ≠ []) : l.foldl max 0 ∈ l ∧ ∀ z ∈ l, z ≤ l.foldl max 0 := by
  cases l with
  | nil => exact absurd rfl h
  | cons z zs =>
    rw [List.foldl_cons, Nat.zero_max]
    exact List.max?_eq_some_iff.1 List.max?_cons'

/-- The codeblocks whose RES_CB says ATTEMPTED after END, in order. -/
def attemptedCbs (s : State) : List Nat :=
  (List.range s.seg.c).filter fun r => attemptedOf ((endEffect s (endPlan s)).endStep.resCb r)

/-- The set S of R274 is made of the records of those codeblocks. -/
theorem attemptedRecs_endLoop {s : State} (hp : s.params.Ok) (hc : EndChecks s) :
    attemptedRecs (endLoop s (endPlan s)).recs = (attemptedCbs s).map fun r => (endPart s r).2 := by
  rw [endLoop_recs, attemptedRecs, List.filter_map]
  refine congrArg (List.map _) (List.filter_congr fun r hr => ?_)
  obtain ⟨-, hattempted, -, -⟩ := endEffect_resCb_fields hp hc (List.mem_range.1 hr)
  exact hattempted.symm

theorem iters_endLoop {s : State} (hp : s.params.Ok) (hc : EndChecks s) :
    (attemptedRecs (endLoop s (endPlan s)).recs).map (fun r => r.iter) =
      (attemptedCbs s).map fun r => iterOf ((endEffect s (endPlan s)).endStep.resCb r) := by
  rw [attemptedRecs_endLoop hp hc, List.map_map]
  refine List.map_congr_left fun r hr => ?_
  obtain ⟨hiter, -⟩ := endEffect_resCb_fields hp hc (List.mem_range.1 (List.mem_of_mem_filter hr))
  exact hiter.symm

theorem iterOf_lt (w : Word) : iterOf w < 2 ^ 16 := (w.extractLsb' 0 16).isLt

/-- ITER_MIN and ITER_MAX of a list of recorded counts, as the registers hold them (44_crc_tb_assembly.md R274). -/
theorem iter_registers {l : List Nat} (hlt : ∀ n ∈ l, n < 2 ^ 16) :
    let least := BitVec.ofNat 32 (leastOr 0 l)
    let greatest := BitVec.ofNat 32 (l.foldl max 0)
    (∀ n ∈ l, least.toNat ≤ n ∧ n ≤ greatest.toNat) ∧ (l = [] → least = 0 ∧ greatest = 0) ∧
      (l ≠ [] → least.toNat ∈ l ∧ greatest.toNat ∈ l) := by
  obtain rfl | hne := eq_or_ne l []
  · simp [leastOr]
  · obtain ⟨hleast, hle⟩ := leastOr_mem_and_le 0 hne
    obtain ⟨hgreatest, hge⟩ := foldl_max_mem_and_le hne
    have htoNat : ∀ n ∈ l, (BitVec.ofNat 32 n).toNat = n := fun n hn =>
      (BitVec.toNat_ofNat ..).trans (Nat.mod_eq_of_lt ((hlt n hn).trans (by decide)))
    simp only [htoNat _ hleast, htoNat _ hgreatest]
    exact ⟨fun n hn => ⟨hle n hn, hge n hn⟩, fun h => absurd h hne, fun _ => ⟨hleast, hgreatest⟩⟩

/-- The per-codeblock words are those of codeblocks 0..C-1, and 0 from C on (44_crc_tb_assembly.md R275). -/
theorem reportCbE_getD {p : EndPlan} (hc : p.seg.c ≤ 256) (r : Nat) :
    (reportCbE p).getD r 0 = if r < p.seg.c then BitVec.ofNat 32 (p.len r) else 0 := by
  rw [reportCbE, getD_map_range, Nat.min_eq_left hc]

theorem reportCb_getD_of_le (recs : List CbRec) (b : HarqBuf) {c r : Nat} (h : c ≤ r) :
    (reportCb recs b c).getD r 0 = 0 := by
  rw [reportCb, getD_map_range, if_neg (by omega)]

/-- Settles O27: the registers are computed from the loop's records, which RES_CB shows codeblock by codeblock. -/
theorem reportAggregatesRecords : Obligations.ReportAggregatesRecords := by
  intro s t hfault hparams hchecks hexec
  obtain rfl := eq_of_execEnd hfault hchecks hexec
  have hrecs := attemptedRecs_endLoop hparams hchecks
  have hiters := iters_endLoop hparams hchecks
  obtain ⟨-, -, -, hmax, -⟩ := hchecks
  have hc : (endPlan s).seg.c ≤ 256 := hmax.trans hparams.cb.2
  obtain ⟨hbounds, hnone, hsome⟩ := iter_registers
    (l := (attemptedCbs s).map fun r => iterOf ((endEffect s (endPlan s)).endStep.resCb r))
    fun n hn => by obtain ⟨r, -, rfl⟩ := List.mem_map.1 hn; exact iterOf_lt _
  rw [List.forall_mem_map] at hbounds
  simp only [ne_eq, List.map_eq_nil_iff, List.mem_map] at hnone hsome
  simp only [State.endStep_res, endEffect_res, report, iterSum, iterMin, iterMax, hiters]
  refine ⟨?_, rfl, hbounds, hnone, hsome, (summaryWord_bits _ _).2, summaryWord_nofCb _ (by omega), rfl, rfl, rfl, rfl,
    rfl, rfl, fun r hr => ?_, fun r hr => ⟨reportCb_getD_of_le _ _ hr, ?_⟩⟩
  · rw [hrecs, List.length_map]
    rfl
  · exact (reportCbE_getD hc r).trans (if_pos hr)
  · exact (reportCbE_getD hc r).trans (if_neg (Nat.not_lt.2 hr))

end Sys2Proof.Machine
end

section
/-! SUPPORT. Every register and window access of 45_register_access.md: what each register word reads (R301), what the register writes
do (R302 to R305), and the bytes that STAGE and TBOUT move (R306 to R309). -/

namespace Sys2Proof.Machine

/-! ### The words with fields (10_state.md R25, R26; 60_exceptions.md R330) -/

theorem ctrlWord_eq (s : State) : ctrlWord s = BitVec.ofNat 32 (2 * s.ieDone.toNat + 4 * s.ieFault.toNat) := by
  unfold ctrlWord
  generalize s.ieDone = ieDone, s.ieFault = ieFault
  revert ieDone ieFault
  decide

theorem statusWord_idle {s : State} (hb : s.busy = false) :
    statusWord s =
      BitVec.ofNat 32 (2 * s.done.toNat + 4 * s.fault.toNat + 8 * s.irq.toNat + 16 * s.phase.code) := by
  rw [statusWord, hb]
  generalize s.done = done, s.fault = fault, s.irq = irq, s.phase = phase
  revert done fault irq
  cases phase <;> decide

/-! ### The register file (45_register_access.md R301) -/

theorem busy_of_pending_none {s : State} (h : s.pending = none) : s.busy = false := by
  rw [State.busy, h]
  rfl

/-- What a word address of the register region holds: its register's value, or 0 where no register stands. -/
def registerWord (s : State) (a : Nat) : Word := (regAt a).elim 0 (regRead s)

theorem registerWord_reg (s : State) {a : Nat} {g : Reg} (hg : regAt a = some g) : registerWord s a = regRead s g := by
  rw [registerWord, hg]
  rfl

theorem registerWord_none (s : State) {a : Nat} (hg : regAt a = none) : registerWord s a = 0 := by
  rw [registerWord, hg]
  rfl

/-- While BUSY = 0 no register is unspecified. -/
theorem exec_regRd_idle {s : State} {off : BitVec 12} (hb : s.busy = false) (ha : off.toNat % 4 = 0) :
    exec (.regRd off .four) s = .next { s with resp := .readOk .four (registerWord s off.toNat) } := by
  cases hg : regAt off.toNat with
  | none => rw [exec_regRd_none ha hg, registerWord_none s hg]
  | some g => rw [exec_regRd_reg ha hg (by rw [hb, Bool.false_and]), registerWord_reg s hg]

/-! The address map, row by row: the registers with an address of their own, and the three tables. -/

theorem regAt_single : ∀ e ∈ singleRegs, regAt e.1 = some e.2 := by decide

theorem sparseFind_of_ne {α : Type} {l : Sparse α} {k : Nat} (h : ∀ e ∈ l, k ≠ e.1) : sparseFind l k = none := by
  cases hv : sparseFind l k with
  | none => rfl
  | some v => exact absurd rfl (h _ (mem_of_sparseFind hv))

/-- At a word address that is no single register's stand the three tables, and nothing else. -/
theorem registerWord_of_not_single (s : State) {a : Nat} (h : ∀ e ∈ singleRegs, a ≠ e.1) :
    registerWord s a =
      if 0x100 ≤ a ∧ a ≤ 0x4FF then (if (a - 0x100) / 4 < s.params.maxCb then s.resCb ((a - 0x100) / 4) else 0)
      else if 0x500 ≤ a ∧ a ≤ 0x8FF then s.res.cbE.getD ((a - 0x500) / 4) 0
      else if 0x900 ≤ a ∧ a ≤ 0x91F then viewFlagsWord s ((a - 0x900) / 4)
      else 0 := by
  by_cases hcb : 0x100 ≤ a ∧ a < 0x500
  · rw [registerWord_reg s (if_pos hcb), if_pos (by omega)]
    rfl
  rw [if_neg (c := 0x100 ≤ a ∧ a ≤ 0x4FF) (by omega)]
  by_cases hcbE : 0x500 ≤ a ∧ a < 0x900
  · rw [registerWord_reg s ((if_neg hcb).trans (if_pos hcbE)), if_pos (by omega)]
    rfl
  rw [if_neg (c := 0x500 ≤ a ∧ a ≤ 0x8FF) (by omega)]
  have hrest : regAt a = if 0x900 ≤ a ∧ a < 0x920 then some (.harqViewFlags ((a - 0x900) / 4)) else none := by
    rw [regAt, if_neg hcb, if_neg hcbE, sparseFind_of_ne h]
  by_cases hflags : 0x900 ≤ a ∧ a < 0x920
  · rw [registerWord_reg s (hrest.trans (if_pos hflags)), if_pos (by omega)]
    rfl
  · rw [registerWord_none s (hrest.trans (if_neg hflags)), if_neg (by omega)]

/-- Settles O49: at a single register's address its value is the one written there, and every other word is a table's or reads 0. -/
theorem registerReadsByAddress : Obligations.RegisterReadsByAddress := by
  intro s off hp ha a d
  have hb := busy_of_pending_none hp
  rw [exec_regRd_idle hb ha]
  suffices h : registerWord s a = d by rw [← h]
  clear_value a
  subst d
  by_cases hsingle : ∀ e ∈ singleRegs, a ≠ e.1
  · rw [registerWord_of_not_single s hsingle]
    simp only [singleRegs, List.forall_mem_cons] at hsingle
    simp only [hsingle, if_false]
  · push Not at hsingle
    obtain ⟨⟨_, g⟩, hmem, rfl⟩ := hsingle
    rw [registerWord_reg s (regAt_single _ hmem)]
    obtain rfl : _ = g.addr := singleRegs_addr _ hmem
    cases g with
    | ctrl => exact ctrlWord_eq s
    | status => exact statusWord_idle hb
    | faultCause =>
      show BitVec.ofNat 32 s.faultCause.code = _
      generalize s.faultCause = cause
      cases cause <;> rfl
    | cfgHarqId => exact (BitVec.ofNat_toNat 32 s.cfgHarqId).symm
    | harqViewId => exact (BitVec.ofNat_toNat 32 s.harqViewId).symm
    | harqViewNofCb => exact apply_ite (BitVec.ofNat 32) _ _ _
    | resCb | resCbE | harqViewFlags => simp [singleRegs] at hmem
    | _ => rfl

/-! ### The register writes (45_register_access.md R302 to R305) -/

/-- Settles O52: the access is legal, and an engine without a fault accepts the word. -/
theorem cmdWriteAcceptsCommand : Obligations.CmdWriteAcceptsCommand := by
  intro w s hf
  have haccept : acceptCommand w s = { s with pending := some w } := if_neg (ne_true_of_eq_false hf)
  show Host.Outcome.next ((acceptCommand w s).respond .writeOk) = _
  rw [haccept]
  rfl

theorem exec_ctrlWr_four (v : Word) (s : State) : exec (.ctrlWr .four v) s = .next ((writeCtrl v s).respond .writeOk) := rfl

/-- Settles O53: with bit 0 = 0 the enables are stored, and with bit 0 = 1 `doReset` leaves what R380 says. -/
theorem ctrlWriteEnablesOrResets : Obligations.CtrlWriteEnablesOrResets := by
  intro v s
  rw [exec_ctrlWr_four]
  constructor
  · intro hbit
    rw [show writeCtrl v s = { s with ieDone := v.getLsbD 1, ieFault := v.getLsbD 2 } from if_neg (ne_true_of_eq_false hbit)]
    rfl
  · intro hbit
    rw [show writeCtrl v s = s.doReset from if_pos hbit]
    exact ⟨_, rfl, (doReset_afterReset s).transfer rfl rfl, rfl, rfl⟩

/-- Settles O54: a write of 0 to bit 1 stores DONE as it was. -/
theorem statusWriteClearsDone : Obligations.StatusWriteClearsDone := by
  intro v s
  show Host.Outcome.next ((writeStatus v s).respond .writeOk) = _
  unfold writeStatus
  cases v.getLsbD 1 <;> rfl

/-- Settles O55: each of the five offsets is its own register's, and the two HARQ numbers keep the low byte. -/
theorem plainRegisterWrites : Obligations.PlainRegisterWrites := by
  intro v s
  rw [← BitVec.setWidth_eq_extractLsb' (by decide)]
  exact ⟨rfl, rfl, rfl, rfl, rfl⟩

/-! ### The bytes of STAGE and TBOUT (45_register_access.md R306 to R309) -/

theorem lanesOf_getElem? (size : Size) (v : Word) {k : Nat} (hk : k < size.bytes) :
    (lanesOf size v)[k]? = some (v.extractLsb' (8 * k) 8) := by
  simp [lanesOf, hk]

/-- Settles O57: the lanes are the bytes written, and every byte below or above them is found as before. -/
theorem stageWriteStoresLanes : Obligations.StageWriteStoresLanes := by
  intro off size v s ha
  refine ⟨(writeStage off.toNat size v s).respond .writeOk, ?_, rfl, fun k hk => ?_, fun a hout => ?_⟩
  · show Host.Outcome.next (busWrite (windowLegal size (Config.stageBase + off.toNat)) _ s) = _
    rw [(windowLegal_add (by decide)).2 ha, busWrite_legal]
  · have hlane : memFind (memWriteBytes s.mem (Config.stageBase + off.toNat) (lanesOf size v))
        (Config.stageBase + off.toNat + k) = some (v.extractLsb' (8 * k) 8) := by
      rw [memFind_writeBytes_inside _ _ _ _ (by rwa [length_lanesOf]), lanesOf_getElem? size v hk]
    rw [State.stageByte, State.byteAt, ← Nat.add_assoc, State.respond_mem, writeStage_mem, hlane]
    rfl
  · rw [State.byteAt, State.respond_mem, writeStage_mem,
      memFind_writeBytes_outside _ _ _ _ (by rwa [length_lanesOf])]
    rfl

/-- A byte put below the others moves them up by one lane; within four lanes nothing is lost. -/
theorem toNat_wordOfLanes_cons {b : Byte} {bs : List Byte} (h : (wordOfLanes bs).toNat < 2 ^ 24) :
    (wordOfLanes (b :: bs)).toNat = b.toNat + 256 * (wordOfLanes bs).toNat := by
  rw [wordOfLanes, BitVec.toNat_or, BitVec.toNat_shiftLeft, BitVec.toNat_setWidth,
    Nat.mod_eq_of_lt (a := b.toNat) (by omega), Nat.shiftLeft_eq, Nat.mod_eq_of_lt (by omega),
    ← Nat.shiftLeft_eq, ← Nat.shiftLeft_add_eq_or_of_lt b.isLt, Nat.shiftLeft_eq]
  omega

/-- Up to four lanes make the number whose digits to base 256 they are, the least first. -/
theorem toNat_wordOfLanes {bs : List Byte} (h : bs.length ≤ 4) :
    (wordOfLanes bs).toNat = Nat.ofDigits 256 (bs.map BitVec.toNat) := by
  induction bs with
  | nil => rfl
  | cons b bs ih =>
    have hlen : bs.length ≤ 3 := Nat.le_of_succ_le_succ h
    have hvalue := ih (by omega)
    have hlt : (wordOfLanes bs).toNat < 2 ^ 24 := by
      rw [hvalue]
      calc Nat.ofDigits 256 (bs.map BitVec.toNat)
          < 256 ^ (bs.map BitVec.toNat).length :=
            Nat.ofDigits_lt_base_pow_length (by decide) (List.forall_mem_map.2 fun b _ => b.isLt)
        _ ≤ 256 ^ 3 := Nat.pow_le_pow_right (by decide) (by rwa [List.length_map])
        _ = 2 ^ 24 := by decide
    rw [toNat_wordOfLanes_cons hlt, hvalue, List.map_cons, Nat.ofDigits_cons]

theorem bytes_le_four (size : Size) : size.bytes ≤ 4 := Nat.le_of_dvd (by decide) (bytes_dvd_four size)

theorem toNat_readBytes (s : State) (size : Size) (a : Nat) :
    (s.readBytes size a).toNat =
      ((List.range size.bytes).map fun k => (s.byteAt (a + k)).toNat * 2 ^ (8 * k)).sum := by
  rw [State.readBytes, toNat_wordOfLanes (by simpa using bytes_le_four size), Nat.ofDigits_eq_sum_mapIdx]
  congr 1
  refine List.ext_getElem (by simp) fun k _ _ => ?_
  simp [pow_mul]

/-- Settles O58: both windows answer `readBytes`, whose number is the sum over its lanes. -/
theorem windowReadsReturnBytes : Obligations.WindowReadsReturnBytes := by
  refine fun size s => ⟨fun off ha => ⟨s.readBytes size (Config.stageBase + off.toNat), ?_, ?_⟩,
    fun off ha hp => ⟨s.readBytes size (Config.tboutBase + off.toNat), ?_, ?_⟩⟩
  · show Host.Outcome.next (busRead (windowLegal size (Config.stageBase + off.toNat)) size _ s) = _
    rw [(windowLegal_add (by decide)).2 ha]
    rfl
  · simp only [toNat_readBytes, State.stageByte, Nat.add_assoc]
  · show Host.Outcome.next (busRead (windowLegal size (Config.tboutBase + off.toNat)) size _ s) = _
    rw [(windowLegal_add (by decide)).2 ha, busRead_legal, readTbout,
      if_neg (ne_true_of_eq_false (busy_of_pending_none hp))]
    rfl
  · simp only [toNat_readBytes, State.tboutByte, Nat.add_assoc]

end Sys2Proof.Machine
end

section
/-! SUPPORT. Faults and reset (60_exceptions.md R330 to R343): what a step does to FAULT and the fault record, a command in the wrong phase,
commands while FAULT = 1, and the two resets. -/

namespace Sys2Proof.Machine

/-! ### A command in the wrong phase (60_exceptions.md R330) -/

theorem harqAllocRule_accum {s : State} (hphase : s.phase = .accum) (hid : BitVec 8) (ncb : BitVec 16) :
    harqAllocRule hid ncb s = .error (.seqError, 1) := by
  rw [harqAllocRule, hphase, if_pos (by decide)]
  rfl

theorem beginRule_accum {s : State} (hphase : s.phase = .accum) : beginRule s = .error (.seqError, 1) := by
  rw [beginRule, hphase, if_pos (by decide)]
  rfl

theorem pushRule_idle {s : State} (hphase : s.phase = .idle) (len : BitVec 13) : pushRule len s = .error (.seqError, 0) := by
  rw [pushRule, hphase, if_pos (by decide)]
  rfl

theorem endRule_idle {s : State} (hphase : s.phase = .idle) : endRule s = .error (.seqError, 0) := by
  rw [endRule, hphase, if_pos (by decide)]
  rfl

/-- Settles O20: the phase is each rule's first check. -/
theorem commandsOutOfPhaseFault : Obligations.CommandsOutOfPhaseFault := by
  refine fun s hf => ⟨fun hphase => ⟨fun hid ncb => ?_, ?_⟩, fun hphase => ⟨fun len => ?_, ?_⟩⟩
  · exact exec_of_rule_error (fun _ => rfl) hf (harqAllocRule_accum hphase hid ncb)
  · exact exec_of_rule_error (fun _ => rfl) hf (beginRule_accum hphase)
  · exact exec_of_rule_error (fun _ => rfl) hf (pushRule_idle hphase len)
  · exact exec_of_rule_error (fun _ => rfl) hf (endRule_idle hphase)

/-! ### What a step does to FAULT and its record (60_exceptions.md R333, R336, R343) -/

/-- FAULT_CAUSE, FAULT_CMD and FAULT_INFO are as before. -/
def SameRecord (s t : State) : Prop :=
  t.faultCause = s.faultCause ∧ t.faultCmd = s.faultCmd ∧ t.faultInfo = s.faultInfo

/-- The first thing the host has sent is a reset: the reset input, or a CTRL write with bit 0 = 1. -/
def ResetNext (s : State) : Prop :=
  (∃ rest, s.inputs = .reset :: rest) ∨
  ∃ a v rest, s.inputs = .txn (.write .four a v) :: rest ∧ a % 2 ^ 19 = 0x020 ∧ v.getLsbD 0 = true

/-- What one step does to FAULT and the fault record: a reset, fault entry by an accepted command, or nothing. -/
inductive FaultChange (s t : State) : Prop
  | reset (after : AfterReset s t) (next : ResetNext s)
  | entry (w : Word) (cause : FaultCause) (info : Word) (pending : s.pending = some w) (before : s.fault = false)
      (raised : cause ≠ .none) (after : t = (s.withInputs t.inputs).faultedWith cause w info)
  | quiet (fault : t.fault = s.fault) (record : SameRecord s t)

theorem step_faultChange {s t : State} (h : step s = .next t) : FaultChange s t := by
  rcases step_effects h with ⟨l, rfl⟩ | ⟨hreset, hnext⟩ | ⟨w, l, hp, hcmd⟩ | ⟨x, rest, u, -, -, ht, hu⟩
  · exact .quiet rfl ⟨rfl, rfl, rfl⟩
  · exact .reset hreset hnext
  · rcases hcmd with ⟨-, rfl⟩ | ⟨hf, ⟨cause, info⟩, hraised, rfl⟩ | ⟨-, hrule⟩
    · exact .quiet rfl ⟨rfl, rfl, rfl⟩
    · exact .entry w cause info hp hf hraised rfl
    · rcases hrule with ⟨-, rfl⟩ | ⟨-, -, -, -, -, rfl⟩ | ⟨-, -, -, rfl⟩ | ⟨-, -, -, -, rfl⟩ | ⟨-, -, rfl⟩ <;>
        exact .quiet (by simp) (by simp [SameRecord])
  · obtain ⟨-, hfault, hcause, hcmd, hinfo, -⟩ := hu.frame
    rw [ht]
    exact .quiet hfault ⟨hcause, hcmd, hinfo⟩

/-- Settles O31: of the things a step does to FAULT, only fault entry sets it. -/
theorem faultsArePrecise : Obligations.FaultsArePrecise := by
  intro s t h hs ht
  cases step_faultChange h with
  | reset after =>
    rw [after.fault_eq] at ht
    cases ht
  | entry w cause info pending _ raised after => exact ⟨w, cause, info, pending, raised, after⟩
  | quiet fault =>
    rw [fault, hs] at ht
    cases ht

/-! ### Commands while FAULT = 1 (60_exceptions.md R336) -/

theorem exec_cmdWr_faulted {s : State} (hf : s.fault = true) (w : Word) :
    exec (.cmdWr .four w) s = .next (s.respond .writeOk) := by
  show Host.Outcome.next ((acceptCommand w s).respond .writeOk) = _
  rw [show acceptCommand w s = s from if_pos hf]

theorem exec_command_faulted {s : State} (hf : s.fault = true) {w : Word} {i : Instr} (hi : encode i = .command w) :
    exec i s = .next s.endStep := by
  obtain ⟨rule, -, hexec⟩ := exec_command (decodeCommand_of_encode hi)
  rw [hexec, commandStep_faulted w rule s hf]

/-- Settles O32: no command's step enters a fault once FAULT = 1, so a step resets the engine or leaves the record. -/
theorem commandsDiscardedWhileFaulted : Obligations.CommandsDiscardedWhileFaulted := by
  refine fun s hf => ⟨exec_cmdWr_faulted hf, fun i w hi => exec_command_faulted hf hi, fun t h => ?_⟩
  cases step_faultChange h with
  | reset after => exact .inl after
  | entry _ _ _ _ before =>
    rw [hf] at before
    cases before
  | quiet fault record => exact .inr ⟨fault.trans hf, record⟩

/-! ### The two resets (60_exceptions.md R343) -/

/-- The reset input acts whether or not a command is accepted (70_reset_and_hazards.md R382). -/
theorem step_resetInput {s : State} {rest : List HostInput} (hi : s.inputs = .reset :: rest) :
    step s = .next (s.withInputs rest).doReset := by
  simp only [step, fetch, hi]

/-- Every address that names CTRL decodes to it (20_memory.md R61, 30_encoding.md R98). -/
theorem decodeTxn_ctrl {a : Nat} (ha : a % 2 ^ 19 = 0x020) (v : Word) : decodeTxn (.write .four a v) = .ctrlWr .four v :=
  decodeWrite_ctrlWr .four v ((effectiveAddr_toNat a).trans ha)

/-- An idle engine performs the CTRL write that is next. -/
theorem step_ctrlWrite {s : State} {a : Nat} {v : Word} {rest : List HostInput} (hp : s.pending = none)
    (hi : s.inputs = .txn (.write .four a v) :: rest) (ha : a % 2 ^ 19 = 0x020) :
    step s = exec (.ctrlWr .four v) (s.withInputs rest) := by
  rw [step_idle_txn hp hi, decodeTxn_ctrl ha]

/-- Settles O33: of the things a step does to FAULT, only a reset clears it, and each of the two resets is `doReset`. -/
theorem onlyResetClearsFault : Obligations.OnlyResetClearsFault := by
  constructor
  · intro s t h hs ht
    cases step_faultChange h with
    | reset after next => exact ⟨after, next⟩
    | entry _ _ _ _ before =>
      rw [hs] at before
      cases before
    | quiet fault =>
      rw [fault, hs] at ht
      cases ht
  · rintro s rest (hi | ⟨hp, a, v, hi, ha, hbit⟩)
    · exact ⟨_, step_resetInput hi, (doReset_afterReset (s.withInputs rest)).transfer rfl rfl⟩
    · obtain ⟨t, hexec, hreset, -⟩ := (ctrlWriteEnablesOrResets v (s.withInputs rest)).2 hbit
      exact ⟨t, (step_ctrlWrite hp hi ha).trans hexec, hreset.transfer rfl rfl⟩

end Sys2Proof.Machine
end

section
/-! SUPPORT. Reset (70_reset_and_hazards.md R380, R382): what a reset leaves meets each part of the invariant that reads it, and the reset
input. -/

namespace Sys2Proof.Machine

/-! ### What a reset leaves meets the invariant (70_reset_and_hazards.md R380) -/

/-- A reset closes the session and empties the counts; the parameters are the instance's. -/
theorem AfterReset.sessionInv {s t : State} (h : AfterReset s t) (hp : s.params.Ok) : t.SessionInv where
  params := h.params ▸ hp
  legal haccum := nomatch h.phase_eq.symm.trans haccum
  idle _ := h.session.2
  count := h.session.2.le.trans (Nat.zero_le _)
  sized k := (h.store k).1.le.trans (Nat.zero_le _)

/-- A reset clears FAULT together with its record. -/
theorem AfterReset.faultInv {s t : State} (h : AfterReset s t) : t.FaultInv where
  clear _ := h.record
  raised hfault := nomatch h.fault_eq.symm.trans hfault

/-- The registers with reserved fields are 0 after a reset, and no codeblock is reported. -/
theorem AfterReset.reservedInv {s t : State} (h : AfterReset s t) : t.ReservedInv := by
  obtain ⟨-, hcoding, -⟩ := h.config
  obtain ⟨hres, -⟩ := h.results
  refine ⟨?_, ?_, ?_⟩
  · rw [hcoding]
    exact BitVec.zero_and
  · rw [hres]
    exact (by decide : (0#32).extractLsb' 2 14 = 0)
  · rw [hres]
    exact fun _ hw => nomatch hw

/-- `AfterReset` names the bytes a read finds, so that the list is canonical is asked for apart. -/
theorem AfterReset.memInv {s t : State} (h : AfterReset s t) (hwf : Memory.wf t.mem = true) : t.MemInv where
  canonical := hwf
  windows a _ hb := nomatch (h.ram a).symm.trans hb

/-- ACC and the soft buffers hold no LLR in the reset state (log 6). -/
theorem reset_llrInv : State.reset.LlrInv where
  acc _ hv := nomatch hv
  soft _ _ := softOk_softZero

/-- The defaults are within the ranges of 00_scope.md R13. -/
theorem default_paramsOk : Params.default.Ok where
  harq := by decide
  cb := by decide
  tb := by decide
  soft := by decide

/-- Settles O8: the reset state is one that a reset leaves, so each part of the invariant follows from R380; the default
parameters and the LLRs are the model's (log 6, 7). -/
theorem resetHasInvariant : Obligations.ResetHasInvariant where
  session := reset_afterReset.sessionInv default_paramsOk
  llr := reset_llrInv
  fault := reset_afterReset.faultInv
  reserved := reset_afterReset.reservedInv
  mem := reset_afterReset.memInv reset_mem_wf

/-! ### The reset input (70_reset_and_hazards.md R380, R382) -/

/-- Settles O11: the reset input is taken up before BUSY is looked at, and what it runs is `doReset`, which keeps the host's side. -/
theorem hardwareResetAtAnyTime : Obligations.HardwareResetAtAnyTime := by
  intro s rest hi
  have hafter : AfterReset s (s.withInputs rest).doReset := (doReset_afterReset (s.withInputs rest)).transfer rfl rfl
  exact ⟨_, step_resetInput hi, hafter, State.doReset_inputs _, State.doReset_resp _⟩

end Sys2Proof.Machine
end
